-- ==== Sys2Proof/Word.lean ====
section
/-! DEFINITION. The word types of the engine: bytes of the buffers, 32-bit registers and command words, 64-bit
counters and times (10_state.md, 20_memory.md R104). -/

namespace Sys2Proof

/-- One byte (u8): a buffer byte or a character (R14). -/
abbrev Byte := BitVec 8

/-- One 32-bit word (u32): a register, a bus word, a command word (R10, R130). -/
abbrev Word := BitVec 32

/-- One 64-bit value (u64): NOW, COUNTER and every derived counter (R37, R38, R341). -/
abbrev Dword := BitVec 64

end Sys2Proof
end

