-- ==== Sys2Proof/Syntax.lean ====
section
/-! DEFINITION. The command set (30_encoding.md R132), the names of the register map (10_state.md), host accesses,
the turns of a run, and the host-program notation of R137 and R138. -/

namespace Sys2Proof

/-- The ten commands of R132, one constructor per row of spec/opcode_table.json. Operands are implicit (R133), so no
constructor carries one. -/
inductive Instr where
  /-- DECODE, 0x001 (R205). -/
  | decode
  /-- ENCCTR, 0x002 (R232). -/
  | encctr
  /-- HMAC, 0x003 (R270). -/
  | hmac
  /-- TRUNC, 0x004 (R303). -/
  | trunc
  /-- FORMAT, 0x005 (R312). -/
  | format
  /-- HOTP, 0x006 (R330). -/
  | hotp
  /-- TOTP, 0x007 (R340). -/
  | totp
  /-- TREM, 0x008 (R350). -/
  | trem
  /-- VALIDATE, 0x009 (R371). -/
  | validate
  /-- VALIDATE.L, 0x109 (R372). -/
  | validateL
deriving DecidableEq, Repr

/-- The registers of the map that are not buffers (10_state.md section 2). -/
inductive RegName where
  | id | ctrl | cmd | status | digits | tstep | window | secretLen | keyLen | candLen
  | nowLo | nowHi | counterLo | counterHi | trem | offset | trunc | codeBin | codeLen
deriving DecidableEq, Repr

/-- The byte buffers of the map (10_state.md R51, R53, R55-R57, R64). -/
inductive BufName where
  | ctrBytes | digest | code | cand | secret | key
deriving DecidableEq, Repr

/-- What a host access does on the bus. -/
inductive AccessOp where
  | read
  | write (data : Word)
deriving DecidableEq, Repr

/-- One host access: platform address, size in bytes, and operation. Only 4-byte accesses at aligned offsets are
permitted (R101). -/
structure Access where
  addr : Nat
  size : Nat
  op : AccessOp
deriving DecidableEq, Repr

/-- One turn of a run: which agent moves, and what it does (R111, R114, R423, R450; log 1). -/
inductive Turn where
  /-- The host performs one bus access. -/
  | access (a : Access)
  /-- The host polls STATUS until DONE reads 1 (WAIT, R137). -/
  | wait
  /-- The host waits for the interrupt output (R454 step 4). -/
  | waitIrq
  /-- The moment at which the completion of a command in flight falls (R111). -/
  | engine
  /-- The platform asserts the reset input (R450). -/
  | resetAssert
  /-- The platform releases the reset input (R450). -/
  | resetRelease
deriving DecidableEq, Repr

/-- A turn is an action of the host, not of the engine or the platform (R471). -/
def Turn.isHost : Turn → Bool
  | .access _ | .wait | .waitIrq => true
  | .engine | .resetAssert | .resetRelease => false

/-- One line of a host program (R137). A LOADTXT text is given by its characters (R14). -/
inductive HostLine where
  | wr (r : RegName) (v : Word)
  | wrBuf (b : BufName) (k : Nat) (v : Word)
  | rd (r : RegName)
  | rdBuf (b : BufName) (k : Nat)
  | cmd (i : Instr)
  | wait
  | loadtxt (b : BufName) (text : List Byte)
  /-- An assertion of a test, "not a host action" (R137). -/
  | expect (r : RegName) (v : Word)
deriving DecidableEq, Repr

end Sys2Proof
end

