-- ==== Sys2Proof/Decode.lean ====
section
/-! DEFINITION. The command decoder and encoder (30_encoding.md R130-R134). -/

namespace Sys2Proof

/-- Why a word is illegal (the four cases R134 lists). Which one applies is invisible: every illegal word ends in
IllegalCommand (log 16). -/
inductive Illegal where
  /-- RES, bits 31:9, is not 0. -/
  | reservedBits
  /-- L = 1 and OP is not 0x09. -/
  | legacyFlag
  /-- OP = 0x00. -/
  | opZero
  /-- OP in 0x0A..0xFF. -/
  | opUnassigned
deriving DecidableEq, Repr

/-- OP, bits 7:0 (R130). -/
def opField (w : Word) : BitVec 8 := w.extractLsb' 0 8

/-- L, bit 8 (R130). -/
def legacyField (w : Word) : Bool := w.getLsbD 8

/-- RES, bits 31:9 (R130). -/
def reservedField (w : Word) : BitVec 23 := w.extractLsb' 9 23

/-- The instruction an OP value with L = 0 names (R132). -/
def opTable (op : Nat) : Except Illegal Instr :=
  match op with
  | 0 => .error .opZero
  | 1 => .ok .decode
  | 2 => .ok .encctr
  | 3 => .ok .hmac
  | 4 => .ok .trunc
  | 5 => .ok .format
  | 6 => .ok .hotp
  | 7 => .ok .totp
  | 8 => .ok .trem
  | 9 => .ok .validate
  | _ => .error .opUnassigned

/-- The decoder: total on all 32-bit words, exactly ten of them legal (R131, R132, R134). -/
def decode (w : Word) : Except Illegal Instr :=
  if reservedField w ≠ 0#23 then .error .reservedBits
  else if legacyField w then
    if opField w = 0x09#8 then .ok .validateL else .error .legacyFlag
  else opTable (opField w).toNat

/-- The OP field of an instruction (R132). -/
def Instr.op : Instr → BitVec 8
  | .decode => 0x01#8
  | .encctr => 0x02#8
  | .hmac => 0x03#8
  | .trunc => 0x04#8
  | .format => 0x05#8
  | .hotp => 0x06#8
  | .totp => 0x07#8
  | .trem => 0x08#8
  | .validate => 0x09#8
  | .validateL => 0x09#8

/-- The L field of an instruction: 1 for VALIDATE.L alone (R130, R132). -/
def Instr.legacy : Instr → BitVec 1
  | .validateL => 1#1
  | .decode | .encctr | .hmac | .trunc | .format | .hotp | .totp | .trem | .validate => 0#1

/-- The encoder: the command word of an instruction, `RES ++ L ++ OP` with RES = 0 (R130, R132). -/
def encode (i : Instr) : Word := (0#23 ++ i.legacy ++ i.op : BitVec 32)

/-- The instruction the decoder reads from a row of spec/opcode_table.json given as a number: a command word has
exactly 32 bits and is written whole by one bus write, so bit n of the number is bit n of the word (R130, R131). -/
def decodeTableWord (nbits w : Nat) : Option Instr :=
  match decode (BitVec.ofNat 32 (w % 2 ^ nbits)) with
  | .ok i => some i
  | .error _ => none

end Sys2Proof
end

