-- ==== Sys2Proof/Machine/Bytes.lean ====
section
/-! DEFINITION. Byte strings: the primitives of 00_scope.md R11 that the command functions share. -/

namespace Sys2Proof.Machine

/-- `BE_n(v)`: the n-byte big-endian encoding of `v mod 2^(8n)`, byte 0 most significant (R11). -/
def beBytes (n v : Nat) : List Byte :=
  (List.range n).map fun i => BitVec.ofNat 8 (v >>> (8 * (n - 1 - i)))

/-- `BEval(s)`: the number whose big-endian encoding is s (R11). -/
def beVal (s : List Byte) : Nat := s.foldl (fun acc b => acc * 256 + b.toNat) 0

/-- Byte i of a byte string; every rule indexes in range, and 0x00 stands past the end. -/
def byteAt (s : List Byte) (i : Nat) : Byte := s.getD i 0#8

/-- s followed by 0x00 up to n bytes (R64, R210, R261). -/
def padTo (n : Nat) (s : List Byte) : List Byte := s ++ List.replicate (n - s.length) 0#8

end Sys2Proof.Machine
end

