-- ==== Sys2Proof/Config.lean ====
section
/-! DEFINITION. The implementation parameters of 00_scope.md R7, the OPEN parameters of 92_eei_decisions.md, and the
one free value of the model, the `cryptoOk` draw. -/

namespace Sys2Proof.Config

/-- `DIGEST_BYTES` (R7). -/
def digestBytes : Nat := 20
/-- `CTR_BYTES` (R7). -/
def ctrByteCount : Nat := 8
/-- `DIGITS_MIN` (R7). -/
def digitsMin : Nat := 1
/-- `DIGITS_MAX` (R7). -/
def digitsMax : Nat := 9
/-- `COUNTER_WIDTH`, in bits, unsigned (R7, R38). -/
abbrev counterWidth : Nat := 64
/-- `DIGITS_WIDTH`, in bits, unsigned (R7, R34). -/
abbrev digitsWidth : Nat := 8
/-- `TSTEP_WIDTH`, in bits, unsigned (R7, R35). -/
abbrev tstepWidth : Nat := 32
/-- `WINDOW_WIDTH`, in bits, two's-complement signed (R7, R36). -/
abbrev windowWidth : Nat := 32
/-- `TREM_WIDTH`, in bits, unsigned (R7, R39). -/
abbrev tremWidth : Nat := 32
/-- `NOW_WIDTH`, in bits, unsigned seconds (R7, R37). -/
abbrev nowWidth : Nat := 64
/-- `SECRET_MAX`, in bytes (R7, R50). -/
def secretMax : Nat := 256
/-- `KEY_MAX`, in bytes (R7, R52). -/
def keyMax : Nat := 160
/-- `CAND_MAX`, in bytes (R7, R54). -/
def candMax : Nat := 16
/-- `CODE_BUF`, in bytes (R7, R64). -/
def codeBuf : Nat := 12
/-- `WINDOW_MAX` (R7, R36). -/
def windowMax : Nat := 16
/-- `SHA1_BLOCK`, in bytes (R7). -/
def sha1Block : Nat := 64
/-- The size of the register window in bytes (R100). -/
def windowBytes : Nat := 4096

/-- The constant of the ID register, ASCII "OTP1" (R3, R31). -/
def idValue : Word := 0x4F545031#32
/-- Reset value of DIGITS (R8, R34). -/
def defaultDigits : BitVec digitsWidth := 6#8
/-- Reset value of TSTEP (R8, R35). -/
def defaultTstep : BitVec tstepWidth := 30#32
/-- Reset value of WINDOW (R8, R36). -/
def defaultWindow : BitVec windowWidth := 1#32

/-- The OPEN parameters (92_eei_decisions.md, "parameters a model takes as arguments"). They stand in State as
plain data that no step changes (log 4). `maxLatencyCycles` is read by no rule (R470, log 15). -/
structure Platform where
  /-- `ENGINE_BASE`: base address of the register window (R100, D3). -/
  engineBase : Nat
  /-- `CRYPTO_ALWAYS_OK`: when true, every `cryptoOk` draw is true (R403, D23). -/
  cryptoAlwaysOk : Bool
  /-- `MAX_LATENCY_CYCLES`: a bound on the time from accept to completion, or `none` for unbounded (R470, D29). -/
  maxLatencyCycles : Option Nat
deriving DecidableEq, Repr

/-- The free value of a `cryptoOk` draw, by the number of draws taken before it, used once the tape of State is
empty (R9, I1, log 3). It has no body: nothing can evaluate it or prove a value of it. -/
opaque freeDraw : Nat → Bool

end Sys2Proof.Config
end

