-- ==== Sys2Proof/Machine/State.lean ====
section
/-! DEFINITION. The state of the engine as plain data, its reset value (10_state.md R30-R72), the reasons a step can
stop, and the data a command hands to its commit (00_scope.md R13). -/

namespace Sys2Proof.Machine

/-- The bytes of the six buffers, keyed by window byte offset: byte i of a buffer at base B is byte B + i (R102,
log 9). Canonical form: offsets strictly rising, no byte equal to 0x00, which is what an unlisted offset reads as and
the reset contents of every buffer (R72). -/
structure Memory where
  cells : List Host.Cell
deriving DecidableEq, Repr

/-- Every stored register, status field and buffer of 10_state.md. ID is a constant, CMD stores nothing, BUSY is read
off the sequencer. -/
structure Regs where
  /-- CTRL.IRQ_EN (R32). -/
  irqEn : Bool
  /-- STATUS.DONE (R42). -/
  done : Bool
  /-- STATUS.ERR (R43). -/
  err : Bool
  /-- STATUS.MATCH (R44). -/
  matched : Bool
  /-- STATUS.CODE_VALID (R46). -/
  codeValid : Bool
  /-- STATUS.OVR (R45). -/
  ovr : Bool
  /-- STATUS.ERRCODE (R43, R400). -/
  errcode : BitVec 4
  /-- DIGITS (R34). -/
  digits : BitVec Config.digitsWidth
  /-- TSTEP (R35). -/
  tstep : BitVec Config.tstepWidth
  /-- WINDOW, read as an i32 (R36). -/
  window : BitVec Config.windowWidth
  /-- SECRET_LEN (R50). -/
  secretLen : BitVec 16
  /-- KEY_LEN (R52). -/
  keyLen : BitVec 16
  /-- CAND_LEN (R54). -/
  candLen : BitVec 16
  /-- NOW_LO (R37). -/
  nowLo : Word
  /-- NOW_HI (R37). -/
  nowHi : Word
  /-- COUNTER_LO (R38). -/
  counterLo : Word
  /-- COUNTER_HI (R38). -/
  counterHi : Word
  /-- TREM (R39). -/
  trem : BitVec Config.tremWidth
  /-- OFFSET (R60). -/
  offset : BitVec 4
  /-- TRUNC (R61). -/
  trunc : BitVec 31
  /-- CODE_BIN (R62, log 17). -/
  codeBin : Word
  /-- CODE_LEN (R63). -/
  codeLen : BitVec 4
  /-- CTRBYTES, DIGEST, CODE, CAND, SECRET and KEY. -/
  mem : Memory
deriving DecidableEq, Repr

/-- The sequencer SEQ; while BUSY it holds the accepted word CUR and the snapshot S (R30). -/
inductive Seq where
  | idle
  | busy (cur : Word) (snap : Regs)
deriving DecidableEq, Repr

/-- The `cryptoOk` draws still to come, and how many were taken (R9, log 3). The model's own field. -/
structure Draws where
  tape : List Bool
  taken : Nat
deriving DecidableEq, Repr

/-- What a host access returned: an error flag, and data for a read (R101, R105, log 10). -/
structure BusResp where
  error : Bool
  data : Option Word
deriving DecidableEq, Repr

/-- The machine: registers and sequencer are the engine's (R30), the reset input is the platform's; the other fields are the model's own and carry the
environment and the open choices. -/
structure State where
  regs : Regs
  seq : Seq
  /-- The reset input is asserted (R450, log 13). -/
  resetHeld : Bool
  /-- The turns still to come (log 1). -/
  script : List Turn
  /-- The response of the last host access (log 10). -/
  resp : Option BusResp
  /-- Whether the host has observed DONE of the last accepted command, or none awaits it (R471, log 10). -/
  doneSeen : Bool
  /-- The draws (log 3). -/
  draws : Draws
  /-- The OPEN parameters (log 4). -/
  platform : Config.Platform
deriving DecidableEq, Repr

/-- Why a step stops. -/
inductive Fault where
  /-- Raised by `busAccess`: a scripted access lies outside the 4 KiB window at ENGINE_BASE, an address that does not
  exist in the engine's one address space (R100, log 7). Safe: the model stops, it picks no effect. -/
  | outsideWindow (addr : Nat)
deriving DecidableEq, Repr

/-- Why a step is refused. -/
inductive Refusal where
  /-- Raised by exec alone, in an arm whose instruction has no meaning yet. Safe: the model stops. No arm does. -/
  | notModelled (mnemonic : String)
deriving DecidableEq, Repr

/-- The error codes a command can end in (R400). -/
inductive ErrCode where
  | invalidSecretEncoding
  | cryptoBackendFailure
  | invalidParameters
  | illegalCommand
deriving DecidableEq, Repr

/-- One register write of a command's result set W (R13, R410). -/
inductive RegWrite where
  /-- The whole KEY buffer: the bytes given, then 0x00 up to byte 159 (R210). -/
  | key (k : List Byte)
  | keyLen (v : BitVec 16)
  | counter (c : BitVec Config.counterWidth)
  | ctrBytes (m : List Byte)
  | digest (d : List Byte)
  | offset (v : BitVec 4)
  | trunc (v : BitVec 31)
  | codeBin (v : Word)
  /-- The whole CODE buffer: the bytes given, then 0x00 up to byte 11 (R64). -/
  | code (s : List Byte)
  | codeLen (v : BitVec 4)
  | codeValid (v : Bool)
  | trem (v : BitVec Config.tremWidth)
  | matched (v : Bool)
deriving DecidableEq, Repr

/-- What a command's function returns: `Ok(W)` or `Err(code)` (R13). -/
abbrev CmdResult := Except ErrCode (List RegWrite)

/-- The registers right after reset (R72, R450). -/
def Regs.reset : Regs where
  irqEn := false
  done := false
  err := false
  matched := false
  codeValid := false
  ovr := false
  errcode := 0#4
  digits := Config.defaultDigits
  tstep := Config.defaultTstep
  window := Config.defaultWindow
  secretLen := 0#16
  keyLen := 0#16
  candLen := 0#16
  nowLo := 0#32
  nowHi := 0#32
  counterLo := 0#32
  counterHi := 0#32
  trem := 0#32
  offset := 0#4
  trunc := 0#31
  codeBin := 0#32
  codeLen := 0#4
  mem := ⟨[]⟩

/-- The machine right after reset, the reset input released (R72, R450). The model's own fields hold nothing: no turn, no response, nothing
awaiting observation, no draw on the tape (logs 3, 4, 6, 10). -/
def State.reset : State where
  regs := Regs.reset
  seq := .idle
  resetHeld := false
  script := []
  resp := none
  doneSeen := true
  draws := ⟨[], 0⟩
  platform := ⟨0, false, none⟩

end Sys2Proof.Machine
end

