-- ==== Sys2Proof/Machine/Flags.lean ====
section
/-! DEFINITION. STATUS and CTRL: the layout the host reads, what a host write does, the overrun flag, the error codes
and the interrupt output (R32, R40-R47, R400, R420). -/

namespace Sys2Proof.Machine

/-- ERRCODE of an error (R400). -/
def ErrCode.code : ErrCode → BitVec 4
  | .invalidSecretEncoding => 1#4
  | .cryptoBackendFailure => 2#4
  | .invalidParameters => 3#4
  | .illegalCommand => 4#4

/-- STATUS.BUSY is 1 exactly when SEQ = BUSY (R41). -/
def State.busy (s : State) : Bool :=
  match s.seq with
  | .idle => false
  | .busy _ _ => true

/-- STATUS as the host reads it: ERRCODE in 11:8, OVR 5, CODE_VALID 4, MATCH 3, ERR 2, DONE 1, BUSY 0 (R40). -/
def statusWord (busy : Bool) (r : Regs) : Word :=
  (0#20 ++ r.errcode ++ 0#2 ++ BitVec.ofBool r.ovr ++ BitVec.ofBool r.codeValid ++ BitVec.ofBool r.matched ++
    BitVec.ofBool r.err ++ BitVec.ofBool r.done ++ BitVec.ofBool busy : BitVec 32)

/-- CTRL as the host reads it: IRQ_EN in bit 0, SRST reads 0 (R32). -/
def ctrlWord (r : Regs) : Word := (0#31 ++ BitVec.ofBool r.irqEn : BitVec 32)

/-- A host write to STATUS clears DONE and OVR where the written bit is 1, and nothing else (R47). -/
def Regs.writeStatus (v : Word) (r : Regs) : Regs :=
  { r with done := r.done && !v.getLsbD 1, ovr := r.ovr && !v.getLsbD 5 }

/-- The overrun flag is set and the write dropped (R45, R112). -/
def State.overrun (s : State) : State := { s with regs := { s.regs with ovr := true } }

/-- The interrupt output, level-sensitive and active high: `STATUS.DONE & CTRL.IRQ_EN` (R420). -/
def State.irq (s : State) : Bool := s.regs.done && s.regs.irqEn

end Sys2Proof.Machine
end

