-- ==== Sys2Proof/Machine/RegMap.lean ====
section
/-! DEFINITION. The register map: offsets, buffer extents and access kinds (10_state.md section 2). -/

namespace Sys2Proof.Machine

/-- The offset of a register (10_state.md section 2). -/
def regOffset : RegName → Nat
  | .id => 0x000
  | .ctrl => 0x004
  | .cmd => 0x008
  | .status => 0x00C
  | .digits => 0x010
  | .tstep => 0x014
  | .window => 0x018
  | .secretLen => 0x01C
  | .keyLen => 0x020
  | .candLen => 0x024
  | .nowLo => 0x028
  | .nowHi => 0x02C
  | .counterLo => 0x030
  | .counterHi => 0x034
  | .trem => 0x038
  | .offset => 0x03C
  | .trunc => 0x040
  | .codeBin => 0x044
  | .codeLen => 0x048

/-- The base offset of a buffer (10_state.md section 2). -/
def bufBase : BufName → Nat
  | .ctrBytes => 0x050
  | .digest => 0x060
  | .code => 0x080
  | .cand => 0x090
  | .secret => 0x100
  | .key => 0x200

/-- The size of a buffer in bytes (R7, R51, R53, R55-R57, R64). -/
def bufSize : BufName → Nat
  | .ctrBytes => Config.ctrByteCount
  | .digest => Config.digestBytes
  | .code => Config.codeBuf
  | .cand => Config.candMax
  | .secret => Config.secretMax
  | .key => Config.keyMax

/-- A window offset lies in a buffer's bytes. -/
def bufHolds (b : BufName) (off : Nat) : Bool :=
  bufBase b ≤ off && off < bufBase b + bufSize b

/-- The six buffers. -/
def allBufs : List BufName := [.ctrBytes, .digest, .code, .cand, .secret, .key]

/-- The nineteen registers. -/
def allRegs : List RegName :=
  [.id, .ctrl, .cmd, .status, .digits, .tstep, .window, .secretLen, .keyLen, .candLen,
   .nowLo, .nowHi, .counterLo, .counterHi, .trem, .offset, .trunc, .codeBin, .codeLen]

/-- What stands at a word-aligned offset of the window. -/
inductive Slot where
  | reg (r : RegName)
  | word (b : BufName) (k : Nat)
  | reserved
deriving DecidableEq, Repr

/-- The slot at a word-aligned offset; every offset the map does not name is reserved (R70, R100). -/
def slotAt (off : Nat) : Slot :=
  match allRegs.find? (fun r => regOffset r = off) with
  | some r => .reg r
  | none =>
    match allBufs.find? (fun b => bufHolds b off) with
    | some b => .word b ((off - bufBase b) / 4)
    | none => .reserved

/-- A register that the host reads and writes and that a BUSY engine protects with OVR (R112). CTRL, STATUS and CMD
have rules of their own, and the others are read-only. -/
def isRWReg : RegName → Bool
  | .digits | .tstep | .window | .secretLen | .keyLen | .candLen | .nowLo | .nowHi
  | .counterLo | .counterHi | .trunc => true
  | .id | .ctrl | .cmd | .status | .trem | .offset | .codeBin | .codeLen => false

/-- A buffer that the host may write: all but CODE (R64, R112). -/
def isRWBuf : BufName → Bool
  | .code => false
  | .ctrBytes | .digest | .cand | .secret | .key => true

end Sys2Proof.Machine
end

