-- ==== Sys2Proof/Machine/Ops.lean ====
section
/-! DEFINITION. The shared operations: the byte memory of the buffers, the commit of a command's writes, error
completion, command accept, reset, and the draw of `cryptoOk`. -/

namespace Sys2Proof.Machine

/-! ## The byte memory (R102, log 9) -/

/-- The byte listed at an offset, 0x00 where none is (R72). -/
def readCells : List Host.Cell → Nat → Byte
  | [], _ => 0#8
  | (x, v) :: rest, a => if x = a then v else readCells rest a

/-- Cells with one cell put at its place in rising order. -/
def insertCell (a : Nat) (b : Byte) : List Host.Cell → List Host.Cell
  | [] => [(a, b)]
  | c :: rest => if a < c.1 then (a, b) :: c :: rest else c :: insertCell a b rest

/-- Cells with the byte at offset a replaced, in canonical form: a byte equal to what an unlisted offset reads as is
not listed. -/
def writeCells (a : Nat) (b : Byte) (cells : List Host.Cell) : List Host.Cell :=
  if b = 0#8 then cells.filter (·.1 ≠ a) else insertCell a b (cells.filter (·.1 ≠ a))

/-- The byte at a window offset. -/
def Memory.read (m : Memory) (a : Nat) : Byte := readCells m.cells a

/-- The memory with one byte replaced. -/
def Memory.write (m : Memory) (a : Nat) (b : Byte) : Memory := ⟨writeCells a b m.cells⟩

/-- n bytes from offset a. -/
def Memory.readBytes (m : Memory) (a n : Nat) : List Byte := (List.range n).map fun i => m.read (a + i)

/-- A byte string stored from offset a. -/
def Memory.writeBytes (m : Memory) (a : Nat) : List Byte → Memory
  | [] => m
  | b :: bs => (m.write a b).writeBytes (a + 1) bs

/-- Canonical form: offsets strictly rising, and no byte equal to what an unlisted offset reads as. -/
abbrev Memory.wf (m : Memory) : Prop :=
  m.cells.Pairwise (fun c d => c.1 < d.1) ∧ ∀ c ∈ m.cells, c.2 ≠ 0#8

/-- The first n bytes of a buffer (R12, R102). -/
def Regs.buf (r : Regs) (b : BufName) (n : Nat) : List Byte := r.mem.readBytes (bufBase b) n

/-- The registers with a byte string stored from the start of a buffer (R12, R102). -/
def Regs.setBuf (r : Regs) (b : BufName) (s : List Byte) : Regs :=
  { r with mem := r.mem.writeBytes (bufBase b) s }

/-! ## Completion (R410, R411) -/

/-- One write of W (R13, R410). -/
def Regs.applyWrite (r : Regs) : RegWrite → Regs
  | .key k => r.setBuf .key (padTo Config.keyMax k)
  | .keyLen v => { r with keyLen := v }
  | .counter c => { r with counterHi := c.extractLsb' 32 32, counterLo := c.extractLsb' 0 32 }
  | .ctrBytes m => r.setBuf .ctrBytes m
  | .digest d => r.setBuf .digest d
  | .offset v => { r with offset := v }
  | .trunc v => { r with trunc := v }
  | .codeBin v => { r with codeBin := v }
  | .code s => r.setBuf .code (padTo Config.codeBuf s)
  | .codeLen v => { r with codeLen := v }
  | .codeValid v => { r with codeValid := v }
  | .trem v => { r with trem := v }
  | .matched v => { r with matched := v }

/-- All writes of W. -/
def Regs.applyWrites (r : Regs) (W : List RegWrite) : Regs := W.foldl Regs.applyWrite r

/-- Successful completion, one atomic step (R410). -/
def State.succeed (s : State) (W : List RegWrite) : State :=
  { s with
    regs := { s.regs.applyWrites W with err := false, errcode := 0#4, done := true }
    seq := .idle }

/-- Error completion, one atomic step: the engine's one way of taking an error. STATUS reports it, the code is
cleared, and nothing else changes (R411). -/
def State.fail (s : State) (e : ErrCode) : State :=
  { s with
    regs := { s.regs.setBuf .code (List.replicate Config.codeBuf 0#8) with
      err := true, errcode := e.code, matched := false, codeValid := false,
      codeLen := 0#4, codeBin := 0#32, done := true }
    seq := .idle }

/-- Completion of a command whose function returned r (R111, R410, R411). -/
def State.complete (s : State) : CmdResult → State
  | .ok W => s.succeed W
  | .error e => s.fail e

/-! ## Accept (R110) -/

/-- Command accept: CUR, then the snapshot of every register and buffer as they stand, then SEQ and the status bits
(R110, log 12). -/
def State.accept (s : State) (w : Word) : State :=
  { s with
    regs := { s.regs with done := false, err := false, errcode := 0#4, matched := false }
    seq := .busy w s.regs
    doneSeen := false }

/-- The state in which instruction i is in flight: the state itself while BUSY, its accept while IDLE (log 5). -/
def State.issue (s : State) (i : Instr) : State :=
  match s.seq with
  | .idle => s.accept (encode i)
  | .busy _ _ => s

/-- The snapshot S the command in flight reads (R13, R110). -/
def State.snapshot (s : State) : Regs :=
  match s.seq with
  | .idle => s.regs
  | .busy _ snap => snap

/-! ## Reset (R450, R451) -/

/-- The state change of a hardware and of a soft reset: every piece of engine state at its reset value, a command in
flight abandoned (R72, R450, R451). The model's own fields stay, but nothing awaits observation any more (log 13). -/
def State.engineReset (s : State) : State :=
  { s with regs := Regs.reset, seq := .idle, doneSeen := true }

/-- A host write to CTRL, while IDLE or BUSY: SRST = 1 resets the engine, else IRQ_EN is stored (R32, R112, R451). -/
def State.writeCtrl (s : State) (v : Word) : State :=
  if v.getLsbD 1 then s.engineReset
  else { s with regs := { s.regs with irqEn := v.getLsbD 0 } }

/-- The reset input asserted: the engine is at its reset values, and stays there until the input is released (R450,
log 13). -/
def State.assertReset (s : State) : State := { s.engineReset with resetHeld := true }

/-- The reset input released: the engine goes on from its reset values (R450, R452). -/
def State.releaseReset (s : State) : State := { s with resetHeld := false }

/-! ## The draw of `cryptoOk` (R9, R403, log 3) -/

/-- The value of the next draw: true where CRYPTO_ALWAYS_OK holds, else the tape's next entry, else the free value. -/
def Draws.head (d : Draws) (p : Config.Platform) : Bool :=
  p.cryptoAlwaysOk ||
    match d.tape with
    | b :: _ => b
    | [] => Config.freeDraw d.taken

/-- The draws after n are taken. -/
def Draws.skip (d : Draws) (n : Nat) : Draws := ⟨d.tape.drop n, d.taken + n⟩

/-- The draws after one is taken. -/
def Draws.advance (d : Draws) : Draws := d.skip 1

end Sys2Proof.Machine
end

