-- ==== Sys2Proof/Machine/Bus.lean ====
section
/-! DEFINITION. Host accesses of the register window (20_memory.md R100-R113): what a read returns and what a write
does, while IDLE and while BUSY. -/

namespace Sys2Proof.Machine

/-- What a register reads as (10_state.md R31-R63). Unnamed bits read 0 (R70). -/
def readReg (busy : Bool) (r : Regs) : RegName → Word
  | .id => Config.idValue
  | .ctrl => ctrlWord r
  | .cmd => 0#32
  | .status => statusWord busy r
  | .digits => r.digits.setWidth 32
  | .tstep => r.tstep
  | .window => r.window
  | .secretLen => r.secretLen.setWidth 32
  | .keyLen => r.keyLen.setWidth 32
  | .candLen => r.candLen.setWidth 32
  | .nowLo => r.nowLo
  | .nowHi => r.nowHi
  | .counterLo => r.counterLo
  | .counterHi => r.counterHi
  | .trem => r.trem
  | .offset => r.offset.setWidth 32
  | .trunc => r.trunc.setWidth 32
  | .codeBin => r.codeBin
  | .codeLen => r.codeLen.setWidth 32

/-- Word k of a buffer: byte 4k in bits 31:24, byte 4k+3 in bits 7:0 (R102). -/
def readWord (r : Regs) (b : BufName) (k : Nat) : Word :=
  let byte (i : Nat) : Byte := r.mem.read (bufBase b + 4 * k + i)
  (byte 0 ++ byte 1 ++ byte 2 ++ byte 3 : BitVec 32)

/-- The four bytes a word is stored as (R102). -/
def wordBytes (v : Word) : List Byte :=
  [v.extractLsb' 24 8, v.extractLsb' 16 8, v.extractLsb' 8 8, v.extractLsb' 0 8]

/-- A host write to an RW register of an idle engine: the named bits are stored, the others ignored (R34-R38, R50, R52,
R54, R61, R70). The other registers store nothing here. -/
def writeReg (r : Regs) (v : Word) : RegName → Regs
  | .digits => { r with digits := v.setWidth Config.digitsWidth }
  | .tstep => { r with tstep := v }
  | .window => { r with window := v }
  | .secretLen => { r with secretLen := v.setWidth 16 }
  | .keyLen => { r with keyLen := v.setWidth 16 }
  | .candLen => { r with candLen := v.setWidth 16 }
  | .nowLo => { r with nowLo := v }
  | .nowHi => { r with nowHi := v }
  | .counterLo => { r with counterLo := v }
  | .counterHi => { r with counterHi := v }
  | .trunc => { r with trunc := v.setWidth 31 }
  | .id | .ctrl | .cmd | .status | .trem | .offset | .codeBin | .codeLen => r

/-- A host write to word k of a buffer of an idle engine (R102). -/
def writeWord (r : Regs) (v : Word) (b : BufName) (k : Nat) : Regs :=
  { r with mem := r.mem.writeBytes (bufBase b + 4 * k) (wordBytes v) }

/-- What a permitted host read returns; it changes no engine state (R106, R113). -/
def hostRead (s : State) : Slot → Word
  | .reg r => readReg s.busy s.regs r
  | .word b k => readWord s.regs b k
  | .reserved => 0#32

/-- What a permitted host write does (R106, R112): CTRL and STATUS act at any time, CMD and the RW registers and
buffers only while IDLE and set OVR while BUSY, RO and reserved offsets never. -/
def hostWrite (s : State) (v : Word) : Slot → State
  | .reg .ctrl => s.writeCtrl v
  | .reg .status => { s with regs := s.regs.writeStatus v }
  | .reg .cmd => if s.busy then s.overrun else s.accept v
  | .reg r => if isRWReg r then (if s.busy then s.overrun else { s with regs := writeReg s.regs v r }) else s
  | .word b k => if isRWBuf b then (if s.busy then s.overrun else { s with regs := writeWord s.regs v b k }) else s
  | .reserved => s

/-- A host read of STATUS that returns DONE = 1 observes the completion (R471, log 10). -/
def State.observe (s : State) (sl : Slot) : State :=
  { s with doneSeen := s.doneSeen || (sl == .reg .status && s.regs.done) }

/-- A permitted access at a window offset, with its response (R105, R106). While the reset input is held a write changes
nothing, and a read returns the reset values (R450, log 13). -/
def windowAccess (s : State) (off : Nat) : AccessOp → State
  | .read => { s.observe (slotAt off) with resp := some ⟨false, some (hostRead s (slotAt off))⟩ }
  | .write v => { (if s.resetHeld then s else hostWrite s v (slotAt off)) with resp := some ⟨false, none⟩ }

/-- The response of an access of another size or alignment: a bus error, and 0 for a read; no engine state changes
(R101, log 8). -/
def State.busError (s : State) : AccessOp → State
  | .read => { s with resp := some ⟨true, some 0#32⟩ }
  | .write _ => { s with resp := some ⟨true, none⟩ }

/-- One host access (R100, R101). -/
def busAccess (a : Access) (s : State) : Host.Outcome State Fault Refusal :=
  if a.addr < s.platform.engineBase ∨ s.platform.engineBase + Config.windowBytes ≤ a.addr then
    .fault (.outsideWindow a.addr)
  else if a.size ≠ 4 ∨ (a.addr - s.platform.engineBase) % 4 ≠ 0 then .next (s.busError a.op)
  else .next (windowAccess s (a.addr - s.platform.engineBase) a.op)

end Sys2Proof.Machine
end

