-- ==== Sys2Proof/Machine/Operands.lean ====
section
/-! DEFINITION. Operand assembly from the snapshot (R104, R136), and the parameter checks of R401. -/

namespace Sys2Proof.Machine

/-- NOW: NOW_HI is bits 63:32, NOW_LO bits 31:0 (R37, R104). -/
def Regs.now (S : Regs) : BitVec Config.nowWidth := (S.nowHi ++ S.nowLo : BitVec 64)

/-- COUNTER: COUNTER_HI is bits 63:32, COUNTER_LO bits 31:0 (R38, R104). -/
def Regs.counter (S : Regs) : BitVec Config.counterWidth := (S.counterHi ++ S.counterLo : BitVec 64)

/-- `SECRET[0..SECRET_LEN)` (R50). -/
def Regs.secretText (S : Regs) : List Byte := S.buf .secret S.secretLen.toNat

/-- `KEY[0..KEY_LEN)` (R53). -/
def Regs.keyBytes (S : Regs) : List Byte := S.buf .key S.keyLen.toNat

/-- `CAND[0..CAND_LEN)` (R55). -/
def Regs.candText (S : Regs) : List Byte := S.buf .cand S.candLen.toNat

/-- `CTRBYTES[0..8)` (R56). -/
def Regs.message (S : Regs) : List Byte := S.buf .ctrBytes Config.ctrByteCount

/-- `DIGEST[0..20)` (R57). -/
def Regs.digestBuf (S : Regs) : List Byte := S.buf .digest Config.digestBytes

/-- WINDOW as a signed number (R36, R136). -/
def Regs.windowInt (S : Regs) : Int := S.window.toInt

/-- DIGITS = 0 or DIGITS > 9 (R401). -/
def Regs.badDigits (S : Regs) : Bool :=
  S.digits.toNat < Config.digitsMin || Config.digitsMax < S.digits.toNat

/-- TSTEP = 0 (R401). -/
def Regs.badTstep (S : Regs) : Bool := S.tstep = 0#32

/-- SECRET_LEN > 256 (R401). -/
def Regs.badSecretLen (S : Regs) : Bool := Config.secretMax < S.secretLen.toNat

/-- KEY_LEN > 160 (R401). -/
def Regs.badKeyLen (S : Regs) : Bool := Config.keyMax < S.keyLen.toNat

/-- CAND_LEN > 16 (R401). -/
def Regs.badCandLen (S : Regs) : Bool := Config.candMax < S.candLen.toNat

/-- WINDOW < 0 or WINDOW > 16, as an i32 (R401). -/
def Regs.badWindow (S : Regs) : Bool := S.windowInt < 0 || (Config.windowMax : Int) < S.windowInt

end Sys2Proof.Machine
end

