-- ==== Sys2Proof/Machine/Base32.lean ====
section
/-! DEFINITION. The Base32 decoder and the DECODE command (40_base32.md). -/

namespace Sys2Proof.Machine

/-- Every trailing `=` removed: applied to the reversed text, it drops the leading run (R201). -/
def stripPadding (s : List Byte) : List Byte := (s.reverse.dropWhile (· == 0x3D#8)).reverse

/-- `a`..`z` upper-cased, every other byte unchanged (R202). -/
def foldCase (c : Byte) : Byte := if 0x61#8 ≤ c ∧ c ≤ 0x7A#8 then c - 0x20#8 else c

/-- The 5-bit value of an upper-cased byte, `none` outside the alphabet (R200). -/
def alphabetValue (c : Byte) : Option Nat :=
  if 0x41#8 ≤ c ∧ c ≤ 0x5A#8 then some (c.toNat - 0x41)
  else if 0x32#8 ≤ c ∧ c ≤ 0x37#8 then some (c.toNat - 0x32 + 26)
  else none

/-- The loop of R208 over the remaining bytes, with `acc`, `nb` and `out`. -/
def base32Loop : List Byte → Nat → Nat → List Byte → Except ErrCode (List Byte)
  | [], _, _, out => .ok out
  | c :: cs, acc, nb, out =>
    match alphabetValue (foldCase c) with
    | none => .error .invalidSecretEncoding
    | some v =>
      let acc := (acc <<< 5) ||| v
      let nb := nb + 5
      if 8 ≤ nb then
        base32Loop cs (acc &&& ((1 <<< (nb - 8)) - 1)) (nb - 8)
          (out ++ [BitVec.ofNat 8 ((acc >>> (nb - 8)) &&& 0xFF)])
      else base32Loop cs acc nb out

/-- `Base32Decode` (R208): padding strip, the loop, and the empty-key check. -/
def base32Decode (s : List Byte) : Except ErrCode (List Byte) :=
  match base32Loop (stripPadding s) 0 0 [] with
  | .error e => .error e
  | .ok out => if out.length = 0 then .error .invalidSecretEncoding else .ok out

/-- The writes that commit a decoded key: the whole KEY buffer and KEY_LEN (R205, R210). -/
def keyWrites (k : List Byte) : List RegWrite := [.key k, .keyLen (BitVec.ofNat 16 k.length)]

/-- DECODE as a function of the snapshot (R205). -/
def decodeCmd (S : Regs) : CmdResult :=
  if S.badSecretLen then .error .invalidParameters
  else
    match base32Decode S.secretText with
    | .error e => .error e
    | .ok key => .ok (keyWrites key)

/-- DECODE: decode the secret text into the key buffer (R205). -/
def execDecode (s : State) : Host.Outcome State Fault Refusal :=
  .next ((s.issue .decode).complete (decodeCmd (s.issue .decode).snapshot))

end Sys2Proof.Machine
end

