-- ==== Sys2Proof/Machine/Counter.lean ====
section
/-! DEFINITION. The counter encoder and the ENCCTR command (41_counter.md). -/

namespace Sys2Proof.Machine

/-- `EncodeCounter(c) = BE_8(c)` (R230, R231). -/
def encodeCounter (c : Dword) : List Byte := beBytes Config.ctrByteCount c.toNat

/-- ENCCTR as a function of the snapshot (R232). -/
def encctrCmd (S : Regs) : CmdResult := .ok [.ctrBytes (encodeCounter S.counter)]

/-- ENCCTR: encode COUNTER into CTRBYTES (R232). -/
def execEncctr (s : State) : Host.Outcome State Fault Refusal :=
  .next ((s.issue .encctr).complete (encctrCmd (s.issue .encctr).snapshot))

end Sys2Proof.Machine
end

