-- ==== Sys2Proof/Machine/Sha1.lean ====
section
/-! DEFINITION. SHA-1 (42_hmac_sha1.md R251-R258). -/

namespace Sys2Proof.Machine

/-- `ROTL_n(x)` on a u32 (R10). -/
def rotl (n : Nat) (x : Word) : Word := (x <<< n) ||| (x >>> (32 - n))

/-- The padded message: `M || 0x80 || 0x00^z || BE_8(8*l)` with `z = (55 - l) mod 64` (R251). The 119 is 55 + 64, so
that the subtraction stays a natural number. -/
def sha1Pad (M : List Byte) : List Byte :=
  M ++ [0x80#8] ++ List.replicate ((119 - M.length % 64) % 64) 0x00#8 ++ beBytes 8 (8 * M.length)

/-- The 16 message words of a block (R252). -/
def blockWords (block : List Byte) : List Word :=
  (List.range 16).map fun t => BitVec.ofNat 32 (beVal ((block.drop (4 * t)).take 4))

/-- The first n blocks of 64 bytes, each as its message words (R252). -/
def parseBlocks : Nat → List Byte → List (List Word)
  | 0, _ => []
  | n + 1, P => blockWords (P.take Config.sha1Block) :: parseBlocks n (P.drop Config.sha1Block)

/-- Word t of a schedule under construction. -/
def wAt (W : List Word) (t : Nat) : Word := W.getD t 0#32

/-- The schedule extended by n words: each new one is `ROTL_1(W[t-3] ^ W[t-8] ^ W[t-14] ^ W[t-16])` at `t = len(W)`
(R254). -/
def extendSchedule : Nat → List Word → List Word
  | 0, W => W
  | n + 1, W =>
    extendSchedule n
      (W ++ [rotl 1 (wAt W (W.length - 3) ^^^ wAt W (W.length - 8) ^^^ wAt W (W.length - 14) ^^^ wAt W (W.length - 16))])

/-- The 80-word message schedule of a block (R254). -/
def schedule (M : List Word) : List Word := extendSchedule 64 M

/-- `f_t(b, c, d)` (R255). -/
def roundF (t : Nat) (b c d : Word) : Word :=
  if t < 20 then (b &&& c) ||| (~~~b &&& d)
  else if t < 40 then b ^^^ c ^^^ d
  else if t < 60 then (b &&& c) ||| (b &&& d) ||| (c &&& d)
  else b ^^^ c ^^^ d

/-- `K_t` (R255). -/
def roundK (t : Nat) : Word :=
  if t < 20 then 0x5A827999#32
  else if t < 40 then 0x6ED9EBA1#32
  else if t < 60 then 0x8F1BBCDC#32
  else 0xCA62C1D6#32

/-- Five u32 values: the hash H0..H4 or the working variables a..e (R253, R256). -/
structure Hash where
  h0 : Word
  h1 : Word
  h2 : Word
  h3 : Word
  h4 : Word
deriving DecidableEq, Repr

/-- The initial hash value (R253). -/
def initialHash : Hash := ⟨0x67452301#32, 0xEFCDAB89#32, 0x98BADCFE#32, 0x10325476#32, 0xC3D2E1F0#32⟩

/-- One round t on the working variables, with schedule word w (R256). -/
def sha1Round (t : Nat) (w : Word) (v : Hash) : Hash :=
  ⟨rotl 5 v.h0 + roundF t v.h1 v.h2 v.h3 + v.h4 + roundK t + w, v.h0, rotl 30 v.h1, v.h2, v.h3⟩

/-- The rounds from t on, one for each schedule word given (R256). -/
def sha1Rounds : Nat → List Word → Hash → Hash
  | _, [], v => v
  | t, w :: ws, v => sha1Rounds (t + 1) ws (sha1Round t w v)

/-- Componentwise sum mod 2^32 (R256). -/
def Hash.add (x y : Hash) : Hash := ⟨x.h0 + y.h0, x.h1 + y.h1, x.h2 + y.h2, x.h3 + y.h3, x.h4 + y.h4⟩

/-- Compression of one block (R256). -/
def compress (H : Hash) (M : List Word) : Hash := H.add (sha1Rounds 0 (schedule M) H)

/-- The 20 output bytes (R257). -/
def Hash.bytes (H : Hash) : List Byte :=
  beBytes 4 H.h0.toNat ++ beBytes 4 H.h1.toNat ++ beBytes 4 H.h2.toNat ++ beBytes 4 H.h3.toNat ++ beBytes 4 H.h4.toNat

/-- `SHA1(M)` (R258). -/
def sha1 (M : List Byte) : List Byte :=
  ((parseBlocks ((sha1Pad M).length / Config.sha1Block) (sha1Pad M)).foldl compress initialHash).bytes

end Sys2Proof.Machine
end

