-- ==== Sys2Proof/Machine/Hmac.lean ====
section
/-! DEFINITION. HMAC-SHA1, one invocation of the HMAC unit, and the HMAC command (42_hmac_sha1.md R260-R271). -/

namespace Sys2Proof.Machine

/-- The HMAC key block: the key, or its SHA-1 where it is longer than a block, padded with 0x00 (R261). -/
def hmacKeyBlock (K : List Byte) : List Byte :=
  if K.length ≤ Config.sha1Block then padTo Config.sha1Block K else padTo Config.sha1Block (sha1 K)

/-- `HMAC_SHA1(K, msg)`, with ipad 0x36 and opad 0x5C (R260, R262). -/
def hmacSha1 (K msg : List Byte) : List Byte :=
  sha1 ((hmacKeyBlock K).map (· ^^^ 0x5C#8) ++ sha1 ((hmacKeyBlock K).map (· ^^^ 0x36#8) ++ msg))

/-- `HmacInvoke(K, msg)`: one draw of `cryptoOk`, then the digest or CryptoBackendFailure (R265). -/
def hmacInvoke (p : Config.Platform) (d : Draws) (K msg : List Byte) : Except ErrCode (List Byte) × Draws :=
  (if d.head p then .ok (hmacSha1 K msg) else .error .cryptoBackendFailure, d.advance)

/-- HMAC as a function of the snapshot and the draws (R270). -/
def hmacCmd (p : Config.Platform) (d : Draws) (S : Regs) : CmdResult × Draws :=
  if S.badKeyLen then (.error .invalidParameters, d)
  else if S.keyLen = 0#16 then (.error .invalidSecretEncoding, d)
  else
    match hmacInvoke p d S.keyBytes S.message with
    | (.error e, d') => (.error e, d')
    | (.ok digest, d') => (.ok [.digest digest], d')

/-- Completion of a command that takes draws. -/
def State.completeDrawn (s : State) (r : CmdResult × Draws) : State :=
  { s.complete r.1 with draws := r.2 }

/-- HMAC: compute the digest of CTRBYTES under KEY (R270). -/
def execHmac (s : State) : Host.Outcome State Fault Refusal :=
  .next ((s.issue .hmac).completeDrawn (hmacCmd s.platform s.draws (s.issue .hmac).snapshot))

end Sys2Proof.Machine
end

