-- ==== Sys2Proof/Machine/Truncation.lean ====
section
/-! DEFINITION. Dynamic truncation, the modulo and formatter, and the TRUNC and FORMAT commands (43_truncation.md). -/

namespace Sys2Proof.Machine

/-- `offset = d[19] & 0x0F` (R300). -/
def truncOffset (d : List Byte) : BitVec 4 := (byteAt d 19 &&& 0x0F#8).setWidth 4

/-- The big-endian 4-byte read at offset with bit 31 cleared, a 31-bit value (R301). -/
def truncValue (d : List Byte) (off : Nat) : BitVec 31 :=
  let b (i : Nat) : Word := (byteAt d (off + i)).setWidth 32
  (((b 0 &&& 0x7F#32) <<< 24) ||| (b 1 <<< 16) ||| (b 2 <<< 8) ||| b 3).setWidth 31

/-- `DynTrunc(d)` (R303). -/
def dynTrunc (d : List Byte) : BitVec 4 × BitVec 31 := (truncOffset d, truncValue d (truncOffset d).toNat)

/-- `Fmt(code, n)`: the zero-padded decimal of n ASCII digits (R311). -/
def fmt (code n : Nat) : List Byte :=
  (List.range n).map fun i => BitVec.ofNat 8 (0x30 + code / 10 ^ (n - 1 - i) % 10)

/-- `t mod 10^n` (R310). -/
def codeNumber (t : BitVec 31) (n : Nat) : Nat := t.toNat % 10 ^ n

/-- The writes that commit a code: CODE_BIN, CODE, CODE_LEN and CODE_VALID (R312, R133 "code"). -/
def codeWrites (code n : Nat) : List RegWrite :=
  [.codeBin (BitVec.ofNat 32 code), .code (fmt code n), .codeLen (BitVec.ofNat 4 n), .codeValid true]

/-- TRUNC as a function of the snapshot (R303). -/
def truncCmd (S : Regs) : CmdResult :=
  .ok [.offset (dynTrunc S.digestBuf).1, .trunc (dynTrunc S.digestBuf).2]

/-- FORMAT as a function of the snapshot (R312). -/
def formatCmd (S : Regs) : CmdResult :=
  if S.badDigits then .error .invalidParameters
  else .ok (codeWrites (codeNumber S.trunc S.digits.toNat) S.digits.toNat)

/-- TRUNC: dynamic truncation of DIGEST (R303). -/
def execTrunc (s : State) : Host.Outcome State Fault Refusal :=
  .next ((s.issue .trunc).complete (truncCmd (s.issue .trunc).snapshot))

/-- FORMAT: reduce TRUNC modulo 10^DIGITS and write the code (R312). -/
def execFormat (s : State) : Host.Outcome State Fault Refusal :=
  .next ((s.issue .format).complete (formatCmd (s.issue .format).snapshot))

end Sys2Proof.Machine
end

