-- ==== Sys2Proof/Machine/Hotp.lean ====
section
/-! DEFINITION. The HOTP core, and the HOTP, TOTP and TREM commands (44_hotp_totp.md). -/

namespace Sys2Proof.Machine

/-- What `HotpCore` returns on success (R331). -/
structure HotpResult where
  message : List Byte
  digest : List Byte
  offset : BitVec 4
  trunc : BitVec 31
  code : Nat
  text : List Byte
deriving DecidableEq, Repr

/-- Steps 2 to 5 of the algorithm, from a digest on (R331). -/
def hotpOfDigest (c : Dword) (d : List Byte) (n : Nat) : HotpResult :=
  ⟨encodeCounter c, d, (dynTrunc d).1, (dynTrunc d).2, codeNumber (dynTrunc d).2 n, fmt (codeNumber (dynTrunc d).2 n) n⟩

/-- The result of the five-step algorithm when its HMAC succeeds (R331). -/
def hotpValue (K : List Byte) (c : Dword) (n : Nat) : HotpResult :=
  hotpOfDigest c (hmacSha1 K (encodeCounter c)) n

/-- `HotpCore(K, c, n)`, with its one draw (R331). -/
def hotpCore (p : Config.Platform) (d : Draws) (K : List Byte) (c : Dword) (n : Nat) :
    Except ErrCode HotpResult × Draws :=
  match hmacInvoke p d K (encodeCounter c) with
  | (.error e, d') => (.error e, d')
  | (.ok digest, d') => (.ok (hotpOfDigest c digest n), d')

/-- The writes HOTP and TOTP share: CTRBYTES, DIGEST, OFFSET, TRUNC and the code (R330, R340). -/
def hotpWrites (h : HotpResult) (n : Nat) : List RegWrite :=
  [.ctrBytes h.message, .digest h.digest, .offset h.offset, .trunc h.trunc,
   .codeBin (BitVec.ofNat 32 h.code), .code h.text, .codeLen (BitVec.ofNat 4 n), .codeValid true]

/-- HOTP as a function of the snapshot and the draws (R330). -/
def hotpCmd (p : Config.Platform) (d : Draws) (S : Regs) : CmdResult × Draws :=
  if S.badDigits then (.error .invalidParameters, d)
  else if S.badKeyLen then (.error .invalidParameters, d)
  else if S.keyLen = 0#16 then (.error .invalidSecretEncoding, d)
  else
    match hotpCore p d S.keyBytes S.counter S.digits.toNat with
    | (.error e, d') => (.error e, d')
    | (.ok h, d') => (.ok (hotpWrites h S.digits.toNat), d')

/-- `counter = floor(now / timeStep)`, a u64 (R341). -/
def timeCounter (S : Regs) : BitVec Config.counterWidth := S.now / S.tstep.setWidth Config.nowWidth

/-- TOTP as a function of the snapshot and the draws (R340). -/
def totpCmd (p : Config.Platform) (d : Draws) (S : Regs) : CmdResult × Draws :=
  if S.badDigits then (.error .invalidParameters, d)
  else if S.badTstep then (.error .invalidParameters, d)
  else if S.badSecretLen then (.error .invalidParameters, d)
  else
    match base32Decode S.secretText with
    | .error e => (.error e, d)
    | .ok K =>
      match hotpCore p d K (timeCounter S) S.digits.toNat with
      | (.error e, d') => (.error e, d')
      | (.ok h, d') => (.ok (keyWrites K ++ .counter (timeCounter S) :: hotpWrites h S.digits.toNat), d')

/-- TREM as a function of the snapshot: `step - (now mod step)` (R350). -/
def tremCmd (S : Regs) : CmdResult :=
  if S.badTstep then .error .invalidParameters
  else .ok [.trem (BitVec.ofNat Config.tremWidth (S.tstep.toNat - S.now.toNat % S.tstep.toNat))]

/-- HOTP: compute the HOTP code of KEY at COUNTER (R330). -/
def execHotp (s : State) : Host.Outcome State Fault Refusal :=
  .next ((s.issue .hotp).completeDrawn (hotpCmd s.platform s.draws (s.issue .hotp).snapshot))

/-- TOTP: decode the secret, derive the counter from NOW and TSTEP, compute the code (R340). -/
def execTotp (s : State) : Host.Outcome State Fault Refusal :=
  .next ((s.issue .totp).completeDrawn (totpCmd s.platform s.draws (s.issue .totp).snapshot))

/-- TREM: seconds until the counter next increments (R350). -/
def execTrem (s : State) : Host.Outcome State Fault Refusal :=
  .next ((s.issue .trem).complete (tremCmd (s.issue .trem).snapshot))

end Sys2Proof.Machine
end

