-- ==== Sys2Proof/Machine/Validator.lean ====
section
/-! DEFINITION. The VALIDATE and VALIDATE.L commands (45_validator.md). -/

namespace Sys2Proof.Machine

/-- What the shared front end hands on: the private key, the counter and DIGITS (R370). -/
structure Front where
  key : List Byte
  counter : Dword
  digits : Nat
deriving DecidableEq, Repr

/-- `ValidateFront(S, windowed)` (R370). The decoded key is private: no write of KEY (R210, R370). -/
def validateFront (S : Regs) (windowed : Bool) : Except ErrCode Front :=
  if S.badDigits then .error .invalidParameters
  else if S.badTstep then .error .invalidParameters
  else if S.badSecretLen then .error .invalidParameters
  else if S.badCandLen then .error .invalidParameters
  else if windowed && S.badWindow then .error .invalidParameters
  else
    match base32Decode S.secretText with
    | .error e => .error e
    | .ok K => .ok ⟨K, timeCounter S, S.digits.toNat⟩

/-- The counters tried, in increasing order: the integers j with `c - w ≤ j ≤ c + w` and `0 ≤ j ≤ 2^64 - 1`, computed
on unbounded integers (R373). -/
def windowCounters (c : Dword) (w : Nat) : List Dword :=
  (((List.range (2 * w + 1)).map fun (k : Nat) => (c.toNat : Int) - w + k).filter
    fun j => 0 ≤ j && j ≤ 2 ^ 64 - 1).map fun j => BitVec.ofNat 64 j.toNat

/-- `CodeEq(cand, s)`: equal length and equal bytes (R375). -/
def codeEq (cand s : List Byte) : Bool := cand == s

/-- The windowed scan: every counter is computed, a failed draw ends the command (R371, R374, log 11). -/
def validateScan (p : Config.Platform) (K : List Byte) (n : Nat) (cand : List Byte) :
    List Dword → Bool → Draws → Except ErrCode Bool × Draws
  | [], m, d => (.ok m, d)
  | j :: js, m, d =>
    match hotpCore p d K j n with
    | (.error e, d') => (.error e, d')
    | (.ok h, d') => validateScan p K n cand js (m || codeEq cand h.text) d'

/-- VALIDATE as a function of the snapshot and the draws (R371). -/
def validateCmd (p : Config.Platform) (d : Draws) (S : Regs) : CmdResult × Draws :=
  match validateFront S true with
  | .error e => (.error e, d)
  | .ok f =>
    match validateScan p f.key f.digits S.candText (windowCounters f.counter S.windowInt.toNat) false d with
    | (.error e, d') => (.error e, d')
    | (.ok m, d') => (.ok [.matched m], d')

/-- VALIDATE.L as a function of the snapshot and the draws (R372). -/
def validateLCmd (p : Config.Platform) (d : Draws) (S : Regs) : CmdResult × Draws :=
  match validateFront S false with
  | .error e => (.error e, d)
  | .ok f =>
    match hotpCore p d f.key f.counter f.digits with
    | (.error e, d') => (.error e, d')
    | (.ok h, d') => (.ok [.matched (codeEq S.candText h.text)], d')

/-- VALIDATE: windowed validation (R371). -/
def execValidate (s : State) : Host.Outcome State Fault Refusal :=
  .next ((s.issue .validate).completeDrawn (validateCmd s.platform s.draws (s.issue .validate).snapshot))

/-- VALIDATE.L: single-counter validation (R372). -/
def execValidateL (s : State) : Host.Outcome State Fault Refusal :=
  .next ((s.issue .validateL).completeDrawn (validateLCmd s.platform s.draws (s.issue .validateL).snapshot))

end Sys2Proof.Machine
end

