-- ==== Sys2Proof/Machine/Dispatch.lean ====
section
/-! DEFINITION. exec: one arm per command (30_encoding.md R132). -/

namespace Sys2Proof.Machine

def exec (i : Instr) (s : State) : Host.Outcome State Fault Refusal :=
  match i with
  | .decode => Sys2Proof.Machine.execDecode s
  | .encctr => Sys2Proof.Machine.execEncctr s
  | .hmac => Sys2Proof.Machine.execHmac s
  | .trunc => Sys2Proof.Machine.execTrunc s
  | .format => Sys2Proof.Machine.execFormat s
  | .hotp => Sys2Proof.Machine.execHotp s
  | .totp => Sys2Proof.Machine.execTotp s
  | .trem => Sys2Proof.Machine.execTrem s
  | .validate => Sys2Proof.Machine.execValidate s
  | .validateL => Sys2Proof.Machine.execValidateL s

end Sys2Proof.Machine
end

