-- ==== Sys2Proof/Machine/Sequencer.lean ====
section
/-! DEFINITION. The turns of a run: the completion of the command in flight (R111), the host's accesses and waits, and
the reset input (log 1). -/

namespace Sys2Proof.Machine

/-- The engine's step, enabled whenever SEQ = BUSY: CUR is decoded and its command completes; an illegal word
completes with IllegalCommand (R111, R134). An idle engine keeps its state (R435, log 14). -/
def completion (s : State) : Host.Outcome State Fault Refusal :=
  match s.seq with
  | .idle => .next s
  | .busy cur _ =>
    match decode cur with
    | .ok i => exec i s
    | .error _ => .next (s.fail .illegalCommand)

/-- The poll of a WAIT that finds DONE = 1: a read of STATUS (R137). -/
def State.statusPoll (s : State) : State :=
  windowAccess s (regOffset .status) .read

/-- One turn (log 1). A wait whose condition does not hold leaves the move to the engine and stays (log 2). With no turn
left the engine is the only agent (R111). -/
def takeTurn (s : State) : Host.Outcome State Fault Refusal :=
  match s.script with
  | [] => completion s
  | .access a :: rest => busAccess a { s with script := rest }
  | .wait :: rest => if s.regs.done then .next ({ s with script := rest }.statusPoll) else completion s
  | .waitIrq :: rest => if s.irq then .next { s with script := rest, doneSeen := true } else completion s
  | .engine :: rest => completion { s with script := rest }
  | .resetAssert :: rest => .next ({ s with script := rest }.assertReset)
  | .resetRelease :: rest => .next ({ s with script := rest }.releaseReset)

/-- The machine with command word w in flight on its present registers, the reset input released, and the completion as
the very next turn (log 6). -/
def State.load (s : State) (w : Word) : State :=
  { s.releaseReset.accept w with script := .engine :: s.script }

end Sys2Proof.Machine
end

