-- ==== Sys2Proof/Machine/Step.lean ====
section
/-! DEFINITION. One step of the machine, and the placing of a command word where the next step runs it. -/

namespace Sys2Proof.Machine

/-- One step: the next turn (log 1). -/
def step (s : State) : Host.Outcome State Fault Refusal := takeTurn s

/-- The engine fetches nothing (R30, R117): a command comes to run by a CMD write. The word of a table row is put in
flight on the present registers, and the very next step completes it (log 6). -/
def State.withFetchWord (s : State) (nbits w : Nat) : State := s.load (BitVec.ofNat 32 (w % 2 ^ nbits))

end Sys2Proof.Machine
end

