-- ==== Sys2Proof/Machine/HostProgram.lean ====
section
/-! DEFINITION. The host-program notation expanded into turns (30_encoding.md R137, R138). -/

namespace Sys2Proof.Machine

/-- `MemWrite(off, 4, v)` (R12). -/
def memWrite (base off : Nat) (v : Word) : Turn := .access ⟨base + off, 4, .write v⟩

/-- `MemRead(off, 4)` (R12). -/
def memRead (base off : Nat) : Turn := .access ⟨base + off, 4, .read⟩

/-- The value of a hexadecimal digit character (R138, log 18). -/
def hexValue (c : Byte) : Nat :=
  if c.toNat ≤ 0x39 then c.toNat - 0x30 else if c.toNat ≤ 0x46 then c.toNat - 0x41 + 10 else c.toNat - 0x61 + 10

/-- The bytes a string of hexadecimal digits spells, first pair first (R138). -/
def hexBytes : List Byte → List Byte
  | hi :: lo :: rest => BitVec.ofNat 8 (16 * hexValue hi + hexValue lo) :: hexBytes rest
  | _ => []

/-- The bytes a LOADTXT text stands for: its characters, or for KEY the bytes its hex digits spell (R138). -/
def loadBytes (b : BufName) (text : List Byte) : List Byte :=
  match b with
  | .key => hexBytes text
  | .ctrBytes | .digest | .code | .cand | .secret => text

/-- The length register of a buffer LOADTXT may name (R138). -/
def lenReg : BufName → Option RegName
  | .secret => some .secretLen
  | .cand => some .candLen
  | .key => some .keyLen
  | .ctrBytes | .digest | .code => none

/-- Word k of a byte string, padded past its end with 0x00 (R138). -/
def packWord (t : List Byte) (k : Nat) : Word :=
  (byteAt t (4 * k) ++ byteAt t (4 * k + 1) ++ byteAt t (4 * k + 2) ++ byteAt t (4 * k + 3) : BitVec 32)

/-- The word writes of LOADTXT, k = 0 .. ceil(n/4) - 1 (R138). -/
def loadWrites (base : Nat) (b : BufName) (t : List Byte) : List Turn :=
  (List.range ((t.length + 3) / 4)).map fun k => memWrite base (bufBase b + 4 * k) (packWord t k)

/-- The turns of one line (R137, R138). -/
def expandLine (base : Nat) : HostLine → List Turn
  | .wr r v => [memWrite base (regOffset r) v]
  | .wrBuf b k v => [memWrite base (bufBase b + 4 * k) v]
  | .rd r => [memRead base (regOffset r)]
  | .rdBuf b k => [memRead base (bufBase b + 4 * k)]
  | .cmd i => [memWrite base (regOffset .cmd) (encode i)]
  | .wait => [.wait]
  | .loadtxt b text =>
    match lenReg b with
    | some r =>
      loadWrites base b (loadBytes b text) ++
        [memWrite base (regOffset r) (BitVec.ofNat 32 (loadBytes b text).length)]
    | none => []
  | .expect _ _ => []

/-- The turns of a host program (R137). -/
def expandProgram (base : Nat) (p : List HostLine) : List Turn := p.flatMap (expandLine base)

end Sys2Proof.Machine
end

