-- ==== Sys2Proof/WellFormed.lean ====
section
/-! DEFINITION. Which terms of Syntax.lean are well formed: commands (R133), host accesses (R101) and lines of a host
program (R137, R138). -/

namespace Sys2Proof

/-- A command carries no operand (R133, R136), so there is nothing in it to check. -/
def Instr.wf : Instr → Bool
  | .decode | .encctr | .hmac | .trunc | .format | .hotp | .totp | .trem | .validate | .validateL => true

/-- A permitted access of the window at base: 32 bits wide, at an aligned offset inside the window (R100, R101). -/
def Access.permitted (base : Nat) (a : Access) : Bool :=
  base ≤ a.addr && a.addr < base + Config.windowBytes && a.size = 4 && (a.addr - base) % 4 = 0

/-- A hexadecimal digit character (R138, log 18). -/
def isHexChar (c : Byte) : Bool :=
  (0x30 ≤ c.toNat && c.toNat ≤ 0x39) || (0x61 ≤ c.toNat && c.toNat ≤ 0x66) || (0x41 ≤ c.toNat && c.toNat ≤ 0x46)

/-- A legal line of a host program: a buffer word inside its buffer, a LOADTXT of SECRET, CAND or KEY that fits
(R137, R138). -/
def HostLine.wf : HostLine → Bool
  | .wr _ _ | .rd _ | .cmd _ | .wait | .expect _ _ => true
  | .wrBuf b k _ => 4 * k < Machine.bufSize b
  | .rdBuf b k => 4 * k < Machine.bufSize b
  | .loadtxt .secret t => t.length ≤ Config.secretMax
  | .loadtxt .cand t => t.length ≤ Config.candMax
  | .loadtxt .key t => t.length % 2 = 0 && t.length / 2 ≤ Config.keyMax && t.all isHexChar
  | .loadtxt .ctrBytes _ | .loadtxt .digest _ | .loadtxt .code _ => false

end Sys2Proof
end

