-- ==== Sys2Proof/Safety.lean ====
section
/-! DEFINITION. What counts as a safe run: the machine's invariant, the end of a run, and the terms in which the
statements say what a completion does and when it fails. -/

namespace Sys2Proof.Machine

/-! ## The invariant of the machine -/

/-- No code is held: CODE_LEN, CODE_BIN and every CODE byte read 0 (R46). -/
def Regs.CodeCleared (r : Regs) : Prop :=
  r.codeLen = 0#4 ∧ r.codeBin = 0#32 ∧ ∀ a, bufHolds .code a = true → r.mem.read a = 0#8

/-- A decimal number read from its ASCII digits, most significant first (R311). -/
def decimalValue (s : List Byte) : Nat := s.foldl (fun acc b => 10 * acc + (b.toNat - 0x30)) 0

/-- A byte is an ASCII digit (R14, R311). -/
def isDigitByte (b : Byte) : Bool := 0x30 ≤ b.toNat && b.toNat ≤ 0x39

/-- A code is held: CODE_LEN in [1, 9], that many ASCII digits whose value is CODE_BIN, then 0x00 (R63, R64, R313). -/
def Regs.CodeHeld (r : Regs) : Prop :=
  1 ≤ r.codeLen.toNat ∧ r.codeLen.toNat ≤ 9 ∧
  (r.buf .code r.codeLen.toNat).all isDigitByte = true ∧
  decimalValue (r.buf .code r.codeLen.toNat) = r.codeBin.toNat ∧
  r.codeBin.toNat < 10 ^ r.codeLen.toNat ∧
  ∀ a, bufBase .code + r.codeLen.toNat ≤ a → bufHolds .code a = true → r.mem.read a = 0#8

/-- The invariant of the machine. -/
structure State.Inv (s : State) : Prop where
  /-- The byte memory is in canonical form. -/
  memWf : s.regs.mem.wf
  /-- Every listed byte lies in a buffer of the map (R100, R70). -/
  memInMap : ∀ c ∈ s.regs.mem.cells, ∃ b ∈ allBufs, bufHolds b c.1 = true
  /-- ERR = 1 exactly when ERRCODE is not 0 (R43). -/
  errReport : s.regs.err = true ↔ s.regs.errcode ≠ 0#4
  /-- ERRCODE 5 to 15 never occurs (R400, I7). -/
  errcodeRange : s.regs.errcode.toNat ≤ 4
  /-- MATCH = 1 only after a VALIDATE that completed without error (R44). -/
  matchClean : s.regs.matched = true → s.regs.err = false
  /-- Whenever CODE_VALID is 0 no code is held (R46). -/
  noCode : s.regs.codeValid = false → s.regs.CodeCleared
  /-- Whenever CODE_VALID is 1 a well-formed code is held (R46, R313). -/
  code : s.regs.codeValid = true → s.regs.CodeHeld
  /-- While the reset input is held, the engine is at its reset values (R450). -/
  heldAtReset : s.resetHeld = true → s.regs = Regs.reset ∧ s.seq = .idle
  /-- While BUSY, DONE, ERR, ERRCODE and MATCH are 0 (R42, R110). -/
  busyStatus : ∀ cur S, s.seq = .busy cur S →
    s.regs.done = false ∧ s.regs.err = false ∧ s.regs.errcode = 0#4 ∧ s.regs.matched = false
  /-- While BUSY, every register and buffer but CTRL and STATUS is as the snapshot holds it (R112, R113). -/
  busySnapshot : ∀ cur S, s.seq = .busy cur S →
    s.regs = { S with irqEn := s.regs.irqEn, done := s.regs.done, err := s.regs.err, errcode := s.regs.errcode,
                      matched := s.regs.matched, ovr := s.regs.ovr }

/-- The host has executed its last action: no turn left is the host's (R471). -/
def State.hostDone (s : State) : Bool := !s.script.any Turn.isHost

/-- A run of a host program has ended: the host has executed its last action, SEQ = IDLE, and the last command's DONE
was observed (R471). Turns of the engine or the reset input may be left. -/
def State.ended (s : State) : Bool := s.hostDone && !s.busy && s.doneSeen

/-! ## Completions, as seen through byte reads -/

/-- The byte a byte string stored from the start of a buffer puts at offset a. -/
def storedAt (b : BufName) (bs : List Byte) (a : Nat) : Option Byte :=
  if bufBase b ≤ a then bs[a - bufBase b]? else none

/-- t is s after a successful completion (R410): the registers are r, the bytes of `stored` are stored, every other
byte reads as before, STATUS reports success, the draws are d, and nothing else of s changed. -/
def CompletesWith (s t : State) (d : Draws) (r : Regs) (stored : Nat → Option Byte) : Prop :=
  ∃ m : Memory,
    t = { s with seq := .idle, draws := d, regs := { r with done := true, err := false, errcode := 0#4, mem := m } } ∧
    ∀ a, m.read a = (stored a).getD (s.regs.mem.read a)

/-- t is s after an error completion with code e (R411): STATUS reports it, the code is cleared, the draws are d, and
nothing else of s changed. -/
def FailsWith (s t : State) (d : Draws) (e : ErrCode) : Prop :=
  ∃ m : Memory,
    t = { s with
          seq := .idle, draws := d
          regs := { s.regs with done := true, err := true, errcode := e.code, matched := false, codeValid := false,
                                codeLen := 0#4, codeBin := 0#32, mem := m } } ∧
    ∀ a, m.read a = if bufHolds .code a then 0#8 else s.regs.mem.read a

/-! ## When a command fails (R401-R403) -/

/-- The table of R401: the parameter checks of each command. -/
def paramBad (i : Instr) (S : Regs) : Bool :=
  let digits := S.digits.toNat = 0 || 9 < S.digits.toNat
  let tstep := S.tstep.toNat = 0
  let secret := 256 < S.secretLen.toNat
  let key := 160 < S.keyLen.toNat
  let cand := 16 < S.candLen.toNat
  let window := S.window.toInt < 0 || 16 < S.window.toInt
  match i with
  | .decode => secret
  | .encctr | .trunc => false
  | .hmac => key
  | .format => digits
  | .hotp => digits || key
  | .totp => digits || tstep || secret
  | .trem => tstep
  | .validate => digits || tstep || secret || cand || window
  | .validateL => digits || tstep || secret || cand

/-- The secret text does not decode (R204). -/
def secretUndecodable (S : Regs) : Bool :=
  match base32Decode S.secretText with
  | .ok _ => false
  | .error _ => true

/-- InvalidSecretEncoding causes of each command (R400, R402): decoding, or KEY_LEN = 0 for HMAC and HOTP. -/
def secretBad (i : Instr) (S : Regs) : Bool :=
  match i with
  | .decode | .totp | .validate | .validateL => secretUndecodable S
  | .hmac | .hotp => S.keyLen = 0#16
  | .encctr | .trunc | .format | .trem => false

/-- The counter NOW div TSTEP, on numbers (R341). -/
def counterAt (S : Regs) : Nat := (S.nowHi.toNat * 2 ^ 32 + S.nowLo.toNat) / S.tstep.toNat

/-- A counter j is tried by VALIDATE: `c - w ≤ j ≤ c + w` and `j ≤ 2^64 - 1` (R373). -/
def inWindow (c w j : Nat) : Prop := c ≤ j + w ∧ j ≤ c + w ∧ j < 2 ^ 64

/-- How many counters VALIDATE tries (R373): those from `max(0, c - w)` to `min(c + w, 2^64 - 1)`. -/
def windowCount (c w : Nat) : Nat := min (c + w) (2 ^ 64 - 1) + 1 - (c - w)

/-- How many draws a command takes when each succeeds (R403). -/
def drawsNeeded (i : Instr) (S : Regs) : Nat :=
  match i with
  | .hmac | .hotp | .totp | .validateL => 1
  | .validate => windowCount (counterAt S) S.window.toInt.toNat
  | .decode | .encctr | .trunc | .format | .trem => 0

/-- The first n draws are all true. -/
def drawsHold (p : Config.Platform) (d : Draws) (n : Nat) : Bool := (List.range n).all fun j => (d.skip j).head p

/-- The error a command ends in, by the priority of R402. -/
def expectedError (i : Instr) (S : Regs) (p : Config.Platform) (d : Draws) : Option ErrCode :=
  if paramBad i S then some .invalidParameters
  else if secretBad i S then some .invalidSecretEncoding
  else if drawsHold p d (drawsNeeded i S) then none
  else some .cryptoBackendFailure

/-! ## The command words and the register map, as the host sees them -/

/-- The words of R132's table, written out. -/
def tableWord : Instr → Word
  | .decode => 0x00000001#32
  | .encctr => 0x00000002#32
  | .hmac => 0x00000003#32
  | .trunc => 0x00000004#32
  | .format => 0x00000005#32
  | .hotp => 0x00000006#32
  | .totp => 0x00000007#32
  | .trem => 0x00000008#32
  | .validate => 0x00000009#32
  | .validateL => 0x00000109#32

/-- The offsets of the map's table (10_state.md section 2), written out. -/
def tableOffset : RegName → Nat
  | .id => 0x000 | .ctrl => 0x004 | .cmd => 0x008 | .status => 0x00C
  | .digits => 0x010 | .tstep => 0x014 | .window => 0x018 | .secretLen => 0x01C
  | .keyLen => 0x020 | .candLen => 0x024 | .nowLo => 0x028 | .nowHi => 0x02C
  | .counterLo => 0x030 | .counterHi => 0x034 | .trem => 0x038 | .offset => 0x03C
  | .trunc => 0x040 | .codeBin => 0x044 | .codeLen => 0x048

/-- The base offset and the number of words of each buffer in the map's table (10_state.md section 2), written out. -/
def tableBuffer : BufName → Nat × Nat
  | .ctrBytes => (0x050, 2) | .digest => (0x060, 5) | .code => (0x080, 3)
  | .cand => (0x090, 4) | .secret => (0x100, 64) | .key => (0x200, 40)

/-- The number a register holds, as the rules of 10_state.md give it: ID the constant (R31), CMD 0 (R33), CTRL its
IRQ_EN alone (R32), STATUS its layout (R40), each other register the number of its named bits. -/
def regNumber (s : State) : RegName → Nat
  | .id => 0x4F545031
  | .ctrl => s.regs.irqEn.toNat
  | .cmd => 0
  | .status => s.busy.toNat + 2 * s.regs.done.toNat + 4 * s.regs.err.toNat + 8 * s.regs.matched.toNat +
      16 * s.regs.codeValid.toNat + 32 * s.regs.ovr.toNat + 256 * s.regs.errcode.toNat
  | .digits => s.regs.digits.toNat
  | .tstep => s.regs.tstep.toNat
  | .window => s.regs.window.toNat
  | .secretLen => s.regs.secretLen.toNat
  | .keyLen => s.regs.keyLen.toNat
  | .candLen => s.regs.candLen.toNat
  | .nowLo => s.regs.nowLo.toNat
  | .nowHi => s.regs.nowHi.toNat
  | .counterLo => s.regs.counterLo.toNat
  | .counterHi => s.regs.counterHi.toNat
  | .trem => s.regs.trem.toNat
  | .offset => s.regs.offset.toNat
  | .trunc => s.regs.trunc.toNat
  | .codeBin => s.regs.codeBin.toNat
  | .codeLen => s.regs.codeLen.toNat

/-- The bits of an RW register that a write stores (R34-R38, R50, R52, R54, R61). -/
def regMask : RegName → Word
  | .digits => 0x000000FF#32
  | .secretLen | .keyLen | .candLen => 0x0000FFFF#32
  | .tstep | .window | .nowLo | .nowHi | .counterLo | .counterHi => 0xFFFFFFFF#32
  | .trunc => 0x7FFFFFFF#32
  | .id | .ctrl | .cmd | .status | .trem | .offset | .codeBin | .codeLen => 0#32

/-- The reserved word offsets of the map (10_state.md section 2). -/
def reservedOffset (off : Nat) : Bool :=
  off % 4 = 0 &&
  (off = 0x04C || (0x058 ≤ off && off ≤ 0x05C) || (0x074 ≤ off && off ≤ 0x07C) || off = 0x08C ||
   (0x0A0 ≤ off && off ≤ 0x0FC) || (0x2A0 ≤ off && off ≤ 0xFFC))

/-- The offsets a write of which a BUSY engine drops with OVR: CMD, the RW registers and the RW buffers (R112). -/
def protectedOffset (off : Nat) : Prop :=
  off = 0x008 ∨ (∃ r, isRWReg r = true ∧ off = tableOffset r) ∨
    ∃ b k, isRWBuf b = true ∧ k < (tableBuffer b).2 ∧ off = (tableBuffer b).1 + 4 * k

/-- The offsets a write of which never has an effect: RO registers, CODE and reserved space (R70, R112). -/
def inertOffset (off : Nat) : Prop :=
  off ∈ [0x000, 0x038, 0x03C, 0x044, 0x048, 0x080, 0x084, 0x088] ∨ reservedOffset off = true

/-- A host write of word v at window offset off. -/
def writeTurn (s : State) (off : Nat) (v : Word) : Turn := .access ⟨s.platform.engineBase + off, 4, .write v⟩

/-- A host read at window offset off. -/
def readTurn (s : State) (off : Nat) : Turn := .access ⟨s.platform.engineBase + off, 4, .read⟩

/-- The next turn resets the engine: the reset input, or a CTRL write with SRST = 1 (R450, R451). -/
def State.resetsNext (s : State) : Prop :=
  (∃ rest, s.script = .resetAssert :: rest) ∨ ∃ v rest, v.getLsbD 1 = true ∧ s.script = writeTurn s 0x004 v :: rest

/-- What VALIDATE decides: some counter of the window has the candidate as its code (R371). -/
def windowMatches (K : List Byte) (n : Nat) (cand : List Byte) (c w : Nat) : Prop :=
  ∃ j, inWindow c w j ∧ cand = (hotpValue K (BitVec.ofNat 64 j) n).text

end Sys2Proof.Machine
end

