-- ==== Sys2Proof/Certificates/Slice0/Obligations.lean ====
section
/-! DEFINITION. The statements for the provers. Each docstring names the rule it formalises. -/

open Sys2Proof Sys2Proof.Machine

/-! ## Encoding and the step -/

/-- R132: a few of the table's words, and illegal words of each kind of R134. -/
def Obligations.SomeWordsDecodeAsTheTableSays : Prop :=
  decode 0x00000001#32 = .ok .decode ∧ decode 0x00000006#32 = .ok .hotp ∧ decode 0x00000009#32 = .ok .validate ∧
  decode 0x00000109#32 = .ok .validateL ∧ decode 0x00000000#32 = .error .opZero ∧
  decode 0x0000000A#32 = .error .opUnassigned ∧ decode 0x00000107#32 = .error .legacyFlag ∧
  decode 0x80000001#32 = .error .reservedBits

/-- R132: the legal words are exactly the ten of the table, and the encoder gives them. -/
def Obligations.LegalWordsAreExactlyTheTen : Prop :=
  ∀ (w : Word) (i : Instr), (decode w = .ok i ↔ w = tableWord i) ∧ decode (encode i) = .ok i

/-- R111, R423: whenever the completion of a command in flight is due, the step is exec of the command CUR decodes to:
at an engine turn (the turn taken off the script), once no turn is left, and while the host waits for DONE or irq. That
turns come from a script, and that a wait hands the move to the engine, is the model's choice (logs 1, 2). -/
def Obligations.StepRunsTheDecodedCommand : Prop :=
  ∀ (s : State) (cur : Word) (S : Regs) (i : Instr), s.seq = .busy cur S → decode cur = .ok i →
    (s.script = [] → step s = exec i s) ∧
    (∀ rest, s.script = .engine :: rest → step s = exec i { s with script := rest }) ∧
    (∀ rest, s.script = .wait :: rest → s.regs.done = false → step s = exec i s) ∧
    (∀ rest, s.script = .waitIrq :: rest → s.irq = false → step s = exec i s)

/-- Log 6: a table word placed by withFetchWord runs at the very next step, on the registers as they stand, the reset
input released. -/
def Obligations.PlacedWordRunsAtTheNextStep : Prop :=
  ∀ (s : State) (nbits w : Nat) (i : Instr), decodeTableWord nbits w = some i →
    step (s.withFetchWord nbits w) = exec i (s.releaseReset.accept (encode i))

/-- Log 5: exec on an idle machine is the accept of the command's word followed by its completion (R110, R111). -/
def Obligations.IdleExecIsAcceptThenCompletion : Prop :=
  ∀ (s : State) (i : Instr), s.seq = .idle → exec i s = exec i (s.accept (encode i))

/-! ## Completion and errors -/

/-- R410, R411: every command completes, with or without an error: the engine is idle, DONE is 1, and OVR, IRQ_EN and
everything outside the engine but the draws are as before. -/
def Obligations.EveryCommandCompletes : Prop :=
  ∀ (i : Instr) (s : State), ∃ t, exec i s = .next t ∧ t.seq = .idle ∧ t.regs.done = true ∧
    t.regs.ovr = s.regs.ovr ∧ t.regs.irqEn = s.regs.irqEn ∧ t.script = s.script ∧ t.resp = s.resp ∧
    t.platform = s.platform ∧ t.resetHeld = s.resetHeld

/-- R402: the error a completion reports, IllegalCommand first, then the table of R401, then InvalidSecretEncoding,
then CryptoBackendFailure; and no error where none of them applies. -/
def Obligations.ErrorCodeFollowsThePriority : Prop :=
  ∀ (s : State) (cur : Word) (S : Regs) (rest : List Turn), s.seq = .busy cur S → s.script = .engine :: rest →
    ∃ t, step s = .next t ∧
      (∀ why, decode cur = .error why → t.regs.err = true ∧ t.regs.errcode = 4#4) ∧
      (∀ i, decode cur = .ok i →
        match expectedError i S s.platform s.draws with
        | none => t.regs.err = false ∧ t.regs.errcode = 0#4
        | some .invalidParameters => t.regs.err = true ∧ t.regs.errcode = 3#4
        | some .invalidSecretEncoding => t.regs.err = true ∧ t.regs.errcode = 1#4
        | some .cryptoBackendFailure => t.regs.err = true ∧ t.regs.errcode = 2#4
        | some .illegalCommand => False)

/-- R411: a command that fails leaves STATUS and the cleared code, and changes no other register and no other byte. -/
def Obligations.ErrorsChangeOnlyStatusAndTheCode : Prop :=
  ∀ (i : Instr) (s t : State) (cur : Word) (S : Regs), s.seq = .busy cur S → exec i s = .next t → t.regs.err = true →
    ∃ e, t.regs.errcode = e.code ∧ FailsWith s t t.draws e

/-- R134: a word that is none of the ten completes with IllegalCommand, with the effects of R411 and nothing else. -/
def Obligations.IllegalWordsEndInIllegalCommand : Prop :=
  ∀ (s : State) (cur : Word) (S : Regs) (rest : List Turn), s.seq = .busy cur S → (∀ i, cur ≠ tableWord i) →
    s.script = .engine :: rest →
    ∃ t, step s = .next t ∧ FailsWith { s with script := rest } t s.draws .illegalCommand

/-- R133, R51, R55: no command changes an input: DIGITS, TSTEP, WINDOW, SECRET_LEN, CAND_LEN, NOW, and every byte of
SECRET and CAND. -/
def Obligations.CommandsNeverChangeTheInputs : Prop :=
  ∀ (i : Instr) (s t : State), exec i s = .next t →
    t.regs.digits = s.regs.digits ∧ t.regs.tstep = s.regs.tstep ∧ t.regs.window = s.regs.window ∧
    t.regs.secretLen = s.regs.secretLen ∧ t.regs.candLen = s.regs.candLen ∧ t.regs.nowLo = s.regs.nowLo ∧
    t.regs.nowHi = s.regs.nowHi ∧
    ∀ a, bufHolds .secret a = true ∨ bufHolds .cand a = true → t.regs.mem.read a = s.regs.mem.read a

/-- R133, R39: a result register or buffer changes only under the commands that write it; the code only under FORMAT,
HOTP, TOTP or an error. -/
def Obligations.ResultsChangeOnlyUnderTheirCommands : Prop :=
  ∀ (i : Instr) (s t : State), exec i s = .next t →
    (i ≠ .trem → t.regs.trem = s.regs.trem) ∧
    (i ≠ .decode → i ≠ .totp → t.regs.keyLen = s.regs.keyLen ∧
      ∀ a, bufHolds .key a = true → t.regs.mem.read a = s.regs.mem.read a) ∧
    (i ≠ .totp → t.regs.counterHi = s.regs.counterHi ∧ t.regs.counterLo = s.regs.counterLo) ∧
    (i ≠ .encctr → i ≠ .hotp → i ≠ .totp →
      ∀ a, bufHolds .ctrBytes a = true → t.regs.mem.read a = s.regs.mem.read a) ∧
    (i ≠ .hmac → i ≠ .hotp → i ≠ .totp →
      ∀ a, bufHolds .digest a = true → t.regs.mem.read a = s.regs.mem.read a) ∧
    (i ≠ .trunc → i ≠ .hotp → i ≠ .totp → t.regs.offset = s.regs.offset ∧ t.regs.trunc = s.regs.trunc) ∧
    (i ≠ .format → i ≠ .hotp → i ≠ .totp → t.regs.err = false →
      t.regs.codeLen = s.regs.codeLen ∧ t.regs.codeBin = s.regs.codeBin ∧ t.regs.codeValid = s.regs.codeValid ∧
      ∀ a, bufHolds .code a = true → t.regs.mem.read a = s.regs.mem.read a)

/-! ## DECODE and Base32 -/

/-- R205, R210: DECODE of a text that decodes commits the whole KEY buffer and KEY_LEN, between 1 and 160. -/
def Obligations.DecodeCommitsTheKey : Prop :=
  ∀ (s : State) (cur : Word) (S : Regs) (key : List Byte), s.seq = .busy cur S → S.secretLen.toNat ≤ 256 →
    base32Decode S.secretText = .ok key →
    ∃ t, exec .decode s = .next t ∧
      CompletesWith s t s.draws { s.regs with keyLen := BitVec.ofNat 16 key.length }
        (storedAt .key (key ++ List.replicate (160 - key.length) 0#8)) ∧
      1 ≤ key.length ∧ key.length ≤ 160 ∧ t.regs.keyLen.toNat = key.length

/-- R203, R204, R206: the decoder is the bit stream cut into bytes. With vs the values of the symbols left after the
padding strip and case folding, the key has floor(5n/8) bytes and is, as a number, the 5n-bit stream without its last
5n mod 8 bits; a byte outside the alphabet or an empty key is InvalidSecretEncoding. -/
def Obligations.Base32DecodeIsTheBitStream : Prop :=
  ∀ s : List Byte,
    match (stripPadding s).mapM fun c => alphabetValue (foldCase c) with
    | none => base32Decode s = .error .invalidSecretEncoding
    | some vs =>
      if 5 * vs.length / 8 = 0 then base32Decode s = .error .invalidSecretEncoding
      else ∃ key, base32Decode s = .ok key ∧ key.length = 5 * vs.length / 8 ∧
        beVal key = vs.foldl (fun acc v => acc * 32 + v) 0 / 2 ^ (5 * vs.length % 8)

/-- R200, R202: the alphabet and the case folding, byte by byte, and decoding does not depend on the case. -/
def Obligations.Base32FoldsAsciiLettersOnly : Prop :=
  (∀ c : Byte, (0x61 ≤ c.toNat ∧ c.toNat ≤ 0x7A → (foldCase c).toNat = c.toNat - 0x20) ∧
    (¬(0x61 ≤ c.toNat ∧ c.toNat ≤ 0x7A) → foldCase c = c)) ∧
  (∀ c : Byte, alphabetValue c =
    if 0x41 ≤ c.toNat ∧ c.toNat ≤ 0x5A then some (c.toNat - 0x41)
    else if 0x32 ≤ c.toNat ∧ c.toNat ≤ 0x37 then some (c.toNat - 0x32 + 26) else none) ∧
  ∀ s : List Byte, base32Decode (s.map foldCase) = base32Decode s

/-- R201: any number of trailing `=` is removed, and an `=` that some other byte follows is invalid. -/
def Obligations.Base32StripsTrailingPaddingOnly : Prop :=
  (∀ (s : List Byte) (k : Nat), base32Decode (s ++ List.replicate k 0x3D#8) = base32Decode s) ∧
  ∀ (p q : List Byte), (∃ c ∈ q, c ≠ 0x3D#8) → base32Decode (p ++ 0x3D#8 :: q) = .error .invalidSecretEncoding

/-! ## ENCCTR -/

/-- R230, R231: EncodeCounter gives 8 bytes, byte i being bits 63-8i to 56-8i, and loses nothing; it is the message of
every HOTP computation. -/
def Obligations.CounterEncodingIsBigEndian : Prop :=
  ∀ c : Dword, (encodeCounter c).length = 8 ∧
    (∀ i < 8, (encodeCounter c)[i]? = some (c.extractLsb' (56 - 8 * i) 8)) ∧ beVal (encodeCounter c) = c.toNat ∧
    ∀ (K : List Byte) (n : Nat), (hotpValue K c n).digest = hmacSha1 K (encodeCounter c)

/-- R232, R233: ENCCTR always completes, stores the 8 counter bytes, and CTRBYTES0 and CTRBYTES1 then read as
COUNTER_HI and COUNTER_LO. -/
def Obligations.EncctrStoresTheCounter : Prop :=
  ∀ (s : State) (cur : Word) (S : Regs) (c : Dword), s.seq = .busy cur S →
    c.toNat = S.counterHi.toNat * 2 ^ 32 + S.counterLo.toNat →
    ∃ t, exec .encctr s = .next t ∧ CompletesWith s t s.draws s.regs (storedAt .ctrBytes (encodeCounter c)) ∧
      hostRead t (.word .ctrBytes 0) = S.counterHi ∧ hostRead t (.word .ctrBytes 1) = S.counterLo

/-! ## SHA-1 and HMAC -/

/-- R251: the padded message is M, 0x80, the least number of zero bytes, and the bit length, filling
(l + 8) div 64 + 1 whole blocks. -/
def Obligations.Sha1PaddingFillsWholeBlocks : Prop :=
  ∀ M : List Byte, ∃ z, z < 64 ∧ sha1Pad M = M ++ [0x80#8] ++ List.replicate z 0#8 ++ beBytes 8 (8 * M.length) ∧
    (sha1Pad M).length = 64 * ((M.length + 8) / 64 + 1)

/-- R254: the schedule has 80 words, the first 16 those of the block, each later one ROTL_1 of the four before it. -/
def Obligations.Sha1ScheduleFollowsTheRecurrence : Prop :=
  ∀ M : List Word, M.length = 16 → (schedule M).length = 80 ∧
    (∀ t < 16, wAt (schedule M) t = wAt M t) ∧
    ∀ t, 16 ≤ t → t < 80 → wAt (schedule M) t =
      (wAt (schedule M) (t - 3) ^^^ wAt (schedule M) (t - 8) ^^^ wAt (schedule M) (t - 14) ^^^
        wAt (schedule M) (t - 16)).rotateLeft 1

/-- R257: the digest is 20 bytes, four big-endian bytes for each of H0 to H4, and byte 19 is H4[7:0]. -/
def Obligations.Sha1DigestIsFiveBigEndianWords : Prop :=
  ∀ H : Hash, H.bytes.length = 20 ∧
    beVal (H.bytes.take 4) = H.h0.toNat ∧ beVal ((H.bytes.drop 4).take 4) = H.h1.toNat ∧
    beVal ((H.bytes.drop 8).take 4) = H.h2.toNat ∧ beVal ((H.bytes.drop 12).take 4) = H.h3.toNat ∧
    beVal ((H.bytes.drop 16).take 4) = H.h4.toNat ∧ H.bytes[19]? = some (H.h4.extractLsb' 0 8)

/-- R261: a key of more than 64 bytes is hashed first, and trailing zero bytes up to a block change nothing. -/
def Obligations.HmacHashesLongKeysFirst : Prop :=
  (∀ K msg : List Byte, 64 < K.length → hmacSha1 K msg = hmacSha1 (sha1 K) msg) ∧
  ∀ (K msg : List Byte) (z : Nat), K.length + z ≤ 64 → hmacSha1 (K ++ List.replicate z 0#8) msg = hmacSha1 K msg

/-- R270: HMAC with a key of 1 to 160 bytes and a true draw stores the digest of CTRBYTES under KEY, taking one draw. -/
def Obligations.HmacStoresTheDigest : Prop :=
  ∀ (s : State) (cur : Word) (S : Regs), s.seq = .busy cur S → 1 ≤ S.keyLen.toNat → S.keyLen.toNat ≤ 160 →
    s.draws.head s.platform = true →
    ∃ t, exec .hmac s = .next t ∧
      CompletesWith s t (s.draws.skip 1) s.regs
        (storedAt .digest (hmacSha1 (S.buf .key S.keyLen.toNat) (S.buf .ctrBytes 8)))

/-! ## TRUNC and FORMAT -/

/-- R300, R301, R303: TRUNC always completes. OFFSET is the low nibble of DIGEST[19], TRUNC the big-endian 4-byte read
at that offset with its top bit cleared; no byte of memory changes. -/
def Obligations.TruncReadsFourDigestBytes : Prop :=
  ∀ (s : State) (cur : Word) (S : Regs), s.seq = .busy cur S →
    ∃ (t : State) (off : BitVec 4) (v : BitVec 31), exec .trunc s = .next t ∧
      CompletesWith s t s.draws { s.regs with offset := off, trunc := v } (fun _ => none) ∧
      off.toNat = (S.mem.read (0x060 + 19)).toNat % 16 ∧
      v.toNat = (S.mem.read (0x060 + off.toNat)).toNat % 128 * 2 ^ 24 +
        (S.mem.read (0x060 + off.toNat + 1)).toNat * 2 ^ 16 + (S.mem.read (0x060 + off.toNat + 2)).toNat * 2 ^ 8 +
        (S.mem.read (0x060 + off.toNat + 3)).toNat

/-- R310, R312: FORMAT with DIGITS in [1, 9] commits TRUNC mod 10^DIGITS, its text, its length and CODE_VALID. -/
def Obligations.FormatCommitsTheCode : Prop :=
  ∀ (s : State) (cur : Word) (S : Regs), s.seq = .busy cur S → 1 ≤ S.digits.toNat → S.digits.toNat ≤ 9 →
    ∃ t, exec .format s = .next t ∧
      CompletesWith s t s.draws
        { s.regs with codeBin := BitVec.ofNat 32 (S.trunc.toNat % 10 ^ S.digits.toNat),
                      codeLen := BitVec.ofNat 4 S.digits.toNat, codeValid := true }
        (storedAt .code (fmt (S.trunc.toNat % 10 ^ S.digits.toNat) S.digits.toNat ++
          List.replicate (12 - S.digits.toNat) 0#8))

/-- R311, R313: the text of a number below 10^n has exactly n ASCII digits, the most significant first, and reads back
as the number. -/
def Obligations.FormattedCodeReadsBackAsTheNumber : Prop :=
  ∀ code n : Nat, code < 10 ^ n → (fmt code n).length = n ∧ (∀ b ∈ fmt code n, isDigitByte b = true) ∧
    decimalValue (fmt code n) = code

/-! ## HOTP, TOTP and TREM -/

/-- R330, R331: HOTP with DIGITS in [1, 9], a key of 1 to 160 bytes and a true draw commits the five-step result. -/
def Obligations.HotpCommitsTheCode : Prop :=
  ∀ (s : State) (cur : Word) (S : Regs) (c : Dword) (h : HotpResult), s.seq = .busy cur S → 1 ≤ S.digits.toNat →
    S.digits.toNat ≤ 9 → 1 ≤ S.keyLen.toNat → S.keyLen.toNat ≤ 160 → s.draws.head s.platform = true →
    c.toNat = S.counterHi.toNat * 2 ^ 32 + S.counterLo.toNat →
    h = hotpValue (S.buf .key S.keyLen.toNat) c S.digits.toNat →
    ∃ t, exec .hotp s = .next t ∧
      CompletesWith s t (s.draws.skip 1)
        { s.regs with offset := h.offset, trunc := h.trunc, codeBin := BitVec.ofNat 32 h.code,
                      codeLen := BitVec.ofNat 4 S.digits.toNat, codeValid := true }
        (fun a => storedAt .ctrBytes h.message a <|> storedAt .digest h.digest a <|>
          storedAt .code (h.text ++ List.replicate (12 - S.digits.toNat) 0#8) a)

/-- R332: HOTP is ENCCTR, HMAC, TRUNC and FORMAT in sequence: the same registers and the same values. That exec takes an
idle engine is the model's choice (log 5). -/
def Obligations.HotpEqualsTheUnitChain : Prop :=
  ∀ s : State, s.seq = .idle → 1 ≤ s.regs.digits.toNat → s.regs.digits.toNat ≤ 9 → 1 ≤ s.regs.keyLen.toNat →
    s.regs.keyLen.toNat ≤ 160 → s.draws.head s.platform = true →
    ∃ t t1 t2 t3 : State, exec .hotp s = .next t ∧ exec .encctr s = .next t1 ∧ exec .hmac t1 = .next t2 ∧
      exec .trunc t2 = .next t3 ∧ exec .format t3 = .next t ∧ t.regs.err = false

/-- R340, R341: TOTP with legal parameters, a secret that decodes and a true draw commits the key, the counter
NOW div TSTEP and the five-step result. -/
def Obligations.TotpCommitsTheCode : Prop :=
  ∀ (s : State) (cur : Word) (S : Regs) (K : List Byte) (c : Dword) (h : HotpResult), s.seq = .busy cur S →
    1 ≤ S.digits.toNat → S.digits.toNat ≤ 9 → S.tstep ≠ 0#32 → S.secretLen.toNat ≤ 256 →
    base32Decode S.secretText = .ok K → s.draws.head s.platform = true →
    c.toNat = (S.nowHi.toNat * 2 ^ 32 + S.nowLo.toNat) / S.tstep.toNat → h = hotpValue K c S.digits.toNat →
    ∃ t, exec .totp s = .next t ∧
      CompletesWith s t (s.draws.skip 1)
        { s.regs with keyLen := BitVec.ofNat 16 K.length, counterHi := c.extractLsb' 32 32,
                      counterLo := c.extractLsb' 0 32, offset := h.offset, trunc := h.trunc,
                      codeBin := BitVec.ofNat 32 h.code, codeLen := BitVec.ofNat 4 S.digits.toNat,
                      codeValid := true }
        (fun a => storedAt .key (K ++ List.replicate (160 - K.length) 0#8) a <|> storedAt .ctrBytes h.message a <|>
          storedAt .digest h.digest a <|> storedAt .code (h.text ++ List.replicate (12 - S.digits.toNat) 0#8) a)

/-- R342: TOTP is DECODE, the host's two writes of COUNTER with NOW div TSTEP, and HOTP: the same registers and the
same values. The host's writes come from the script (log 1), and exec takes an idle engine (log 5). -/
def Obligations.TotpEqualsDecodeThenHotp : Prop :=
  ∀ (s : State) (K : List Byte) (c : Dword), s.seq = .idle → 1 ≤ s.regs.digits.toNat → s.regs.digits.toNat ≤ 9 →
    s.regs.tstep ≠ 0#32 → s.regs.secretLen.toNat ≤ 256 → base32Decode s.regs.secretText = .ok K →
    s.draws.head s.platform = true → c.toNat = counterAt s.regs → s.resetHeld = false →
    s.script = [writeTurn s 0x030 (c.extractLsb' 0 32), writeTurn s 0x034 (c.extractLsb' 32 32)] →
    ∃ t t1 t2 t3 : State, exec .totp s = .next t ∧ exec .decode s = .next t1 ∧
      Sys2Proof.core.run 2 t1 = .next t2 ∧ exec .hotp t2 = .next t3 ∧ t3.regs = t.regs ∧ t.regs.err = false

/-- R350, R351: TREM with TSTEP not 0 commits TSTEP - (NOW mod TSTEP), in [1, TSTEP], and changes nothing else but
STATUS, whatever DIGITS, SECRET or any other register holds. -/
def Obligations.TremCommitsTheSecondsLeft : Prop :=
  ∀ (s : State) (cur : Word) (S : Regs), s.seq = .busy cur S → S.tstep ≠ 0#32 →
    ∃ t, exec .trem s = .next t ∧
      CompletesWith s t s.draws { s.regs with trem := t.regs.trem } (fun _ => none) ∧
      t.regs.trem.toNat = S.tstep.toNat - (S.nowHi.toNat * 2 ^ 32 + S.nowLo.toNat) % S.tstep.toNat ∧
      1 ≤ t.regs.trem.toNat ∧ t.regs.trem.toNat ≤ S.tstep.toNat

/-- R352: the counter steps exactly TREM seconds from NOW, and at no second before, so the code is the same until
then. -/
def Obligations.TremMarksTheNextCounterStep : Prop :=
  ∀ (s t : State) (cur : Word) (S : Regs), s.seq = .busy cur S → S.tstep ≠ 0#32 → exec .trem s = .next t →
    (S.nowHi.toNat * 2 ^ 32 + S.nowLo.toNat + t.regs.trem.toNat) / S.tstep.toNat = counterAt S + 1 ∧
    (S.nowHi.toNat * 2 ^ 32 + S.nowLo.toNat + t.regs.trem.toNat - 1) / S.tstep.toNat = counterAt S ∧
    ∀ d < t.regs.trem.toNat, (S.nowHi.toNat * 2 ^ 32 + S.nowLo.toNat + d) / S.tstep.toNat = counterAt S

/-! ## VALIDATE and VALIDATE.L -/

/-- R370, R371, R374, R375: VALIDATE with legal parameters, a secret that decodes and a true draw for every counter of
the window commits MATCH alone, 1 exactly when some counter of the window has the candidate as its code. -/
def Obligations.ValidateScansTheWindow : Prop :=
  ∀ (s : State) (cur : Word) (S : Regs) (K : List Byte), s.seq = .busy cur S → paramBad .validate S = false →
    base32Decode S.secretText = .ok K → drawsHold s.platform s.draws (drawsNeeded .validate S) = true →
    ∃ (t : State) (m : Bool), exec .validate s = .next t ∧
      CompletesWith s t (s.draws.skip (drawsNeeded .validate S)) { s.regs with matched := m } (fun _ => none) ∧
      (m = true ↔ windowMatches K S.digits.toNat S.candText (counterAt S) S.window.toInt.toNat)

/-- R372: VALIDATE.L with legal parameters, WINDOW not among them, a secret that decodes and one true draw commits
MATCH alone, 1 exactly when the candidate is the code of the current counter. -/
def Obligations.ValidateLegacyComparesOneCounter : Prop :=
  ∀ (s : State) (cur : Word) (S : Regs) (K : List Byte), s.seq = .busy cur S → paramBad .validateL S = false →
    base32Decode S.secretText = .ok K → s.draws.head s.platform = true →
    ∃ (t : State) (m : Bool), exec .validateL s = .next t ∧
      CompletesWith s t (s.draws.skip 1) { s.regs with matched := m } (fun _ => none) ∧
      (m = true ↔ S.candText = (hotpValue K (BitVec.ofNat 64 (counterAt S)) S.digits.toNat).text)

/-- R373: the counters tried are the integers of [c - w, c + w] that are u64 values, each once, in increasing order,
between w + 1 and 2w + 1 of them. -/
def Obligations.WindowCountersAreTheClippedInterval : Prop :=
  ∀ (c : Dword) (w : Nat), w ≤ 16 →
    (∀ j : Dword, j ∈ windowCounters c w ↔ c.toNat ≤ j.toNat + w ∧ j.toNat ≤ c.toNat + w) ∧
    (windowCounters c w).Pairwise (fun x y => x.toNat < y.toNat) ∧
    w + 1 ≤ (windowCounters c w).length ∧ (windowCounters c w).length ≤ 2 * w + 1

/-- R380: with WINDOW = 0, VALIDATE and VALIDATE.L do the same. -/
def Obligations.WindowZeroEqualsLegacy : Prop :=
  ∀ (s : State) (cur : Word) (S : Regs), s.seq = .busy cur S → S.window = 0#32 →
    exec .validate s = exec .validateL s

/-- R378: the code of a successful TOTP, copied to CAND, validates under both commands at the same inputs. -/
def Obligations.TotpCodeValidates : Prop :=
  ∀ (s t u : State) (cur cur' : Word) (S U : Regs), s.seq = .busy cur S → exec .totp s = .next t →
    t.regs.err = false → u.seq = .busy cur' U → U.digits = S.digits → U.tstep = S.tstep →
    U.nowHi = S.nowHi → U.nowLo = S.nowLo → U.secretLen = S.secretLen → U.secretText = S.secretText →
    U.candLen.toNat = t.regs.codeLen.toNat → U.candText = t.regs.buf .code t.regs.codeLen.toNat →
    (0 ≤ U.window.toInt → U.window.toInt ≤ 16 → drawsHold u.platform u.draws (drawsNeeded .validate U) = true →
      ∃ v, exec .validate u = .next v ∧ v.regs.err = false ∧ v.regs.matched = true) ∧
    (u.draws.head u.platform = true →
      ∃ v, exec .validateL u = .next v ∧ v.regs.err = false ∧ v.regs.matched = true)

/-- R71, R133: TOTP, VALIDATE and VALIDATE.L read only input registers, and of SECRET and CAND only the bytes below
their lengths: two machines that agree on those report the same outcome and commit the same results. -/
def Obligations.CompositesReadOnlyTheirInputs : Prop :=
  ∀ (s u t v : State) (cur cur' : Word) (S U : Regs), s.seq = .busy cur S → u.seq = .busy cur' U →
    s.draws = u.draws → s.platform = u.platform → S.digits = U.digits → S.tstep = U.tstep → S.nowHi = U.nowHi →
    S.nowLo = U.nowLo → S.secretLen = U.secretLen → S.secretText = U.secretText →
    (exec .totp s = .next t → exec .totp u = .next v →
      t.regs.errcode = v.regs.errcode ∧
      (t.regs.err = false → t.regs.keyLen = v.regs.keyLen ∧ t.regs.counterHi = v.regs.counterHi ∧
        t.regs.counterLo = v.regs.counterLo ∧ t.regs.offset = v.regs.offset ∧ t.regs.trunc = v.regs.trunc ∧
        t.regs.codeBin = v.regs.codeBin ∧ t.regs.codeLen = v.regs.codeLen ∧
        ∀ b ∈ [BufName.key, .ctrBytes, .digest, .code], t.regs.buf b (bufSize b) = v.regs.buf b (bufSize b))) ∧
    (S.candLen = U.candLen → S.candText = U.candText →
      (S.window = U.window → exec .validate s = .next t → exec .validate u = .next v →
        t.regs.errcode = v.regs.errcode ∧ (t.regs.err = false → t.regs.matched = v.regs.matched)) ∧
      (exec .validateL s = .next t → exec .validateL u = .next v →
        t.regs.errcode = v.regs.errcode ∧ (t.regs.err = false → t.regs.matched = v.regs.matched)))

/-! ## The invariant -/

/-- R42, R43, R44, R46, R113, R313, R400, R450: every step keeps the machine's invariant. -/
def Obligations.EveryStepKeepsTheInvariant : Prop :=
  ∀ s t : State, s.Inv → step s = .next t → t.Inv

/-- The machine right after reset meets the invariant. -/
def Obligations.ResetMeetsTheInvariant : Prop := State.reset.Inv

/-- R113: while BUSY, a read of any register or buffer word but STATUS and CTRL shows the value at accept. -/
def Obligations.BusyReadsShowTheAcceptedValues : Prop :=
  ∀ (s : State) (cur : Word) (S : Regs) (sl : Slot), s.Inv → s.seq = .busy cur S → sl ≠ .reg .status →
    sl ≠ .reg .ctrl → hostRead s sl = hostRead { s with regs := S } sl

/-! ## The register window -/

/-- R106: a read changes nothing of the engine, whatever it addresses. -/
def Obligations.ReadsHaveNoSideEffects : Prop :=
  ∀ (s t : State) (addr size : Nat) (rest : List Turn), s.script = .access ⟨addr, size, .read⟩ :: rest →
    step s = .next t →
    t.regs = s.regs ∧ t.seq = s.seq ∧ t.draws = s.draws ∧ t.platform = s.platform ∧ t.script = rest

/-- R101: an access of another size or alignment completes with a bus error, a read returning 0, and changes no engine
state, while IDLE and while BUSY. That the machine goes on, with the error in its response field, is the model's reading
(logs 8, 10). -/
def Obligations.BusErrorsChangeNoEngineState : Prop :=
  ∀ (s : State) (off size : Nat) (op : AccessOp) (rest : List Turn), off < 4096 → (size ≠ 4 ∨ off % 4 ≠ 0) →
    s.script = .access ⟨s.platform.engineBase + off, size, op⟩ :: rest →
    step s = .next { s with script := rest, resp := some ⟨true, if op = .read then some 0#32 else none⟩ }

/-- R32, R34-R38, R50, R52, R54, R61, R70, R112: a write to an RW register of an idle engine is read back with the
unnamed bits 0, and no other register and no buffer byte changes; a write to CTRL with SRST = 0, while IDLE or BUSY,
stores IRQ_EN alone, which CTRL then reads in bit 0 with every other bit 0, and changes nothing else: neither SEQ nor
the command in flight. The response is the model's own field (log 10). -/
def Obligations.RegisterWritesStoreTheirNamedBits : Prop :=
  (∀ (s : State) (r : RegName) (v : Word) (rest : List Turn), s.resetHeld = false → s.seq = .idle →
    isRWReg r = true → s.script = writeTurn s (tableOffset r) v :: rest →
    ∃ t, step s = .next t ∧ t.seq = .idle ∧ t.script = rest ∧ t.resp = some ⟨false, none⟩ ∧
      hostRead t (.reg r) = v &&& regMask r ∧ (∀ sl, sl ≠ .reg r → hostRead t sl = hostRead s sl) ∧
      ∀ a, t.regs.mem.read a = s.regs.mem.read a) ∧
  ∀ (s : State) (v : Word) (rest : List Turn), s.resetHeld = false → v.getLsbD 1 = false →
    s.script = writeTurn s 0x004 v :: rest →
    ∃ t, step s = .next t ∧
      t = { s with script := rest, resp := some ⟨false, none⟩, regs := { s.regs with irqEn := v.getLsbD 0 } } ∧
      hostRead t (.reg .ctrl) = v &&& 1#32

/-- R102: a word written to a buffer of an idle engine is read back, its most significant byte is the first of the
four, and nothing else changes. -/
def Obligations.BufferWritesArePackedBigEndian : Prop :=
  ∀ (s : State) (b : BufName) (k : Nat) (v : Word) (rest : List Turn), s.resetHeld = false →
    s.seq = .idle → isRWBuf b = true → k < (tableBuffer b).2 →
    s.script = writeTurn s ((tableBuffer b).1 + 4 * k) v :: rest →
    ∃ (t : State) (m : Memory), step s = .next t ∧
      t = { s with script := rest, resp := some ⟨false, none⟩, regs := { s.regs with mem := m } } ∧
      hostRead t (.word b k) = v ∧
      (∀ i < 4, m.read (bufBase b + 4 * k + i) = v.extractLsb' (24 - 8 * i) 8) ∧
      ∀ a, a < bufBase b + 4 * k ∨ bufBase b + 4 * k + 4 ≤ a → m.read a = s.regs.mem.read a

/-- R112, R45: while BUSY, a write to CMD, an RW register or an RW buffer stores nothing and sets OVR. -/
def Obligations.WritesWhileBusyAreDropped : Prop :=
  ∀ (s : State) (cur : Word) (S : Regs) (off : Nat) (v : Word) (rest : List Turn), s.resetHeld = false →
    s.seq = .busy cur S → protectedOffset off → s.script = writeTurn s off v :: rest →
    step s = .next { s with script := rest, resp := some ⟨false, none⟩, regs := { s.regs with ovr := true } }

/-- R70, R112: a write to an RO register, to CODE or to reserved space has no effect and sets no OVR, while IDLE and
while BUSY; a reserved offset reads 0. -/
def Obligations.ReadOnlyAndReservedWritesAreIgnored : Prop :=
  (∀ (s : State) (off : Nat) (v : Word) (rest : List Turn), inertOffset off → s.script = writeTurn s off v :: rest →
    step s = .next { s with script := rest, resp := some ⟨false, none⟩ }) ∧
  ∀ (s : State) (off : Nat) (rest : List Turn), reservedOffset off = true → s.script = readTurn s off :: rest →
    step s = .next { s with script := rest, resp := some ⟨false, some 0#32⟩ }

/-- R110: a write to CMD of an idle engine is the accept: CUR, the snapshot, BUSY, and the four status fields. The
response and the mark that DONE awaits observation are the model's own fields (log 10). -/
def Obligations.AcceptTakesTheSnapshot : Prop :=
  ∀ (s : State) (w : Word) (rest : List Turn), s.resetHeld = false → s.seq = .idle →
    s.script = writeTurn s 0x008 w :: rest →
    step s = .next
      { s with
        seq := .busy w s.regs
        regs := { s.regs with done := false, err := false, errcode := 0#4, matched := false }
        script := rest, resp := some ⟨false, none⟩, doneSeen := false }

/-- R40, R41: the layout of STATUS as the host reads it. -/
def Obligations.StatusWordLayout : Prop :=
  ∀ s : State, ∀ w, hostRead s (.reg .status) = w →
    (w.getLsbD 0 = true ↔ ∃ cur S, s.seq = .busy cur S) ∧ w.getLsbD 1 = s.regs.done ∧ w.getLsbD 2 = s.regs.err ∧
    w.getLsbD 3 = s.regs.matched ∧ w.getLsbD 4 = s.regs.codeValid ∧ w.getLsbD 5 = s.regs.ovr ∧
    w.extractLsb' 6 2 = 0#2 ∧ w.extractLsb' 8 4 = s.regs.errcode ∧ w.extractLsb' 12 20 = 0#20

/-- R47: a write to STATUS, while IDLE or BUSY, clears DONE and OVR where the written bit is 1, and nothing else. -/
def Obligations.StatusWritesClearDoneAndOverrun : Prop :=
  ∀ (s : State) (v : Word) (rest : List Turn), s.resetHeld = false → s.script = writeTurn s 0x00C v :: rest →
    step s = .next
      { s with
        script := rest, resp := some ⟨false, none⟩
        regs := { s.regs with done := if v.getLsbD 1 then false else s.regs.done,
                              ovr := if v.getLsbD 5 then false else s.regs.ovr } }

/-- R40, R42, R45: DONE goes from 1 to 0 only at a reset, a STATUS write of 1 to bit 1 or a command accept; OVR only at a
reset or a STATUS write of 1 to bit 5. -/
def Obligations.DoneAndOverrunClearOnlyAtTheirEvents : Prop :=
  ∀ s t : State, step s = .next t →
    (s.regs.done = true → t.regs.done = false →
      s.resetsNext ∨ (∃ v rest, v.getLsbD 1 = true ∧ s.script = writeTurn s 0x00C v :: rest) ∨
        ∃ w rest, s.seq = .idle ∧ s.script = writeTurn s 0x008 w :: rest) ∧
    (s.regs.ovr = true → t.regs.ovr = false →
      s.resetsNext ∨ ∃ v rest, v.getLsbD 5 = true ∧ s.script = writeTurn s 0x00C v :: rest)

/-- R40, R44, R45: DONE and ERR go from 0 to 1 only at a completion, MATCH only at a completion of VALIDATE or VALIDATE.L,
and OVR only at a host write that a BUSY engine drops. -/
def Obligations.StatusFlagsAreSetOnlyAtTheirEvents : Prop :=
  ∀ s t : State, step s = .next t →
    (s.regs.done = false → t.regs.done = true → s.seq ≠ .idle ∧ t.seq = .idle) ∧
    (s.regs.err = false → t.regs.err = true → s.seq ≠ .idle ∧ t.seq = .idle ∧ t.regs.done = true) ∧
    (s.regs.matched = false → t.regs.matched = true →
      ∃ cur S, s.seq = .busy cur S ∧ (decode cur = .ok .validate ∨ decode cur = .ok .validateL) ∧ t.seq = .idle) ∧
    (s.regs.ovr = false → t.regs.ovr = true →
      s.seq ≠ .idle ∧ t.seq = s.seq ∧ ∃ off v rest, protectedOffset off ∧ s.script = writeTurn s off v :: rest)

/-! ## Reset and interrupt -/

/-- R72: the values the host reads after a reset, SEQ and irq, in State.reset and in every state whose engine state a
reset has just set (SoftAndHardwareResetAgree). -/
def Obligations.ResetValuesAsTheHostReadsThem : Prop :=
  ∀ s : State, s.regs = State.reset.regs → s.seq = State.reset.seq →
    (∀ r, hostRead s (.reg r) =
      match r with
      | .id => 0x4F545031#32
      | .digits => 6#32
      | .tstep => 30#32
      | .window => 1#32
      | _ => 0#32) ∧
    (∀ b k, hostRead s (.word b k) = 0#32) ∧ s.seq = .idle ∧ s.irq = false

/-- R450, R451: the reset input asserted, and a CTRL write with SRST = 1 whatever else the write holds, put every piece of
engine state at its reset value, while IDLE or BUSY; irq is deasserted. -/
def Obligations.SoftAndHardwareResetAgree : Prop :=
  ∀ (s : State) (v : Word) (rest : List Turn),
    (s.script = .resetAssert :: rest →
      ∃ t, step s = .next t ∧ t.regs = State.reset.regs ∧ t.seq = State.reset.seq ∧ t.irq = false ∧
        t.script = rest ∧ t.resetHeld = true) ∧
    (s.resetHeld = false → v.getLsbD 1 = true → s.script = writeTurn s 0x004 v :: rest →
      ∃ t, step s = .next t ∧ t.regs = State.reset.regs ∧ t.seq = State.reset.seq ∧ t.irq = false ∧
        t.script = rest ∧ t.resetHeld = false ∧ t.resp = some ⟨false, none⟩)

/-- R420, R421: irq asserts at every completion with IRQ_EN = 1, success or error, of a legal or an illegal word;
setting IRQ_EN asserts it where DONE = 1; it deasserts at each of the four events of R421, a soft reset (the CTRL write
with SRST = 1) among them; and no step at any other event changes it. Host accesses come from the script (log 1). -/
def Obligations.InterruptFollowsDoneAndEnable : Prop :=
  (∀ s t : State, s.seq ≠ .idle → completion s = .next t → t.irq = s.regs.irqEn) ∧
  (∀ (s : State) (v : Word) (rest : List Turn), s.resetHeld = false → s.script = writeTurn s 0x004 v :: rest →
    ∃ t, step s = .next t ∧ t.irq = (s.regs.done && v.getLsbD 0 && !v.getLsbD 1)) ∧
  (∀ (s : State) (v : Word) (rest : List Turn), s.resetHeld = false → v.getLsbD 1 = true →
    s.script = writeTurn s 0x00C v :: rest → ∃ t, step s = .next t ∧ t.irq = false) ∧
  (∀ (s : State) (w : Word) (rest : List Turn), s.resetHeld = false → s.seq = .idle →
    s.script = writeTurn s 0x008 w :: rest → ∃ t, step s = .next t ∧ t.irq = false) ∧
  (∀ (s : State) (rest : List Turn), s.script = .resetAssert :: rest → ∃ t, step s = .next t ∧ t.irq = false) ∧
  ∀ s t : State, step s = .next t → t.irq ≠ s.irq →
    (s.seq ≠ .idle ∧ t.seq = .idle ∧ t.regs.done = true) ∨ s.resetsNext ∨
    (∃ v rest, s.script = writeTurn s 0x004 v :: rest) ∨
    (∃ v rest, v.getLsbD 1 = true ∧ s.script = writeTurn s 0x00C v :: rest) ∨
    ∃ w rest, s.seq = .idle ∧ s.script = writeTurn s 0x008 w :: rest

/-! ## Runs -/

/-- R111: a command in flight does not stay in flight: within one step more than there are turns left, the engine has
been idle, unless the host leaves the window (log 7). The script's end is the model's form of weak fairness (log 1). -/
def Obligations.CommandsInFlightEnd : Prop :=
  ∀ (s : State) (cur : Word) (S : Regs), s.seq = .busy cur S →
    ∃ k, k ≤ s.script.length + 1 ∧
      ((∃ t : State, Sys2Proof.core.run k s = .next t ∧ t.seq = .idle) ∨
        ∃ a, Sys2Proof.core.run k s = .fault (.outsideWindow a))

/-- R137, R138, R460, R471: a WAIT after an accept ends with DONE = 1 read, the command complete and its completion
observed; with no DONE to come it never ends. The collapse of the polls that find DONE = 0 and the observation mark are
the model's choice (logs 2, 10). -/
def Obligations.WaitObservesTheCompletion : Prop :=
  (∀ (s : State) (cur : Word) (S : Regs) (rest : List Turn), s.seq = .busy cur S → s.regs.done = false →
    s.script = .wait :: rest →
    ∃ (t : State) (w : Word), Sys2Proof.core.run 2 s = .next t ∧ t.seq = .idle ∧ t.script = rest ∧ t.doneSeen = true ∧
      t.resp = some ⟨false, some w⟩ ∧ w = hostRead t (.reg .status) ∧ w.getLsbD 1 = true ∧
      (rest.any Turn.isHost = false → t.ended = true)) ∧
  ∀ (s : State) (rest : List Turn), s.seq = .idle → s.regs.done = false → s.script = .wait :: rest → step s = .next s

/-- R138: LOADTXT on an idle engine leaves the text's bytes in the buffer, 0x00 up to the end of its last word, its
length in the length register, and everything else as it was. -/
def Obligations.LoadtxtFillsBufferAndLength : Prop :=
  ∀ (s : State) (b : BufName) (r : RegName) (text : List Byte) (rest : List Turn), s.resetHeld = false →
    s.seq = .idle → HostLine.wf (.loadtxt b text) = true → lenReg b = some r →
    s.script = expandLine s.platform.engineBase (.loadtxt b text) ++ rest →
    ∃ t : State, Sys2Proof.core.run (((loadBytes b text).length + 3) / 4 + 1) s = .next t ∧
      t.seq = .idle ∧ t.script = rest ∧
      readReg false t.regs r = BitVec.ofNat 32 (loadBytes b text).length ∧
      (∀ r', r' ≠ r → readReg false t.regs r' = readReg false s.regs r') ∧
      ∀ a, t.regs.mem.read a =
        if bufBase b ≤ a ∧ a < bufBase b + 4 * (((loadBytes b text).length + 3) / 4)
        then byteAt (loadBytes b text) (a - bufBase b) else s.regs.mem.read a

/-- The OPEN parameters are fixed for a machine: no step changes them (log 4). -/
def Obligations.StepsKeepThePlatformParameters : Prop :=
  ∀ s t : State, step s = .next t → t.platform = s.platform

/-! ## The response of a read, and the held reset -/

/-- R31-R40, R50, R52, R54, R60-R63, R102: a read at the offset of a register answers the number the register holds,
zero-extended; a read at word k of a buffer answers its bytes 4k to 4k+3, the first most significant. The response is
the model's own field (log 10). -/
def Obligations.ReadsReturnTheAddressedValue : Prop :=
  ∀ (s : State) (rest : List Turn),
    (∀ r, s.script = readTurn s (tableOffset r) :: rest →
      ∃ (t : State) (v : Word), step s = .next t ∧ t.resp = some ⟨false, some v⟩ ∧ v.toNat = regNumber s r) ∧
    ∀ b k, k < (tableBuffer b).2 → s.script = readTurn s ((tableBuffer b).1 + 4 * k) :: rest →
      ∃ (t : State) (v : Word), step s = .next t ∧ t.resp = some ⟨false, some v⟩ ∧
        ∀ i < 4, v.extractLsb' (24 - 8 * i) 8 = s.regs.mem.read (bufBase b + 4 * k + i)

/-- R450: while the reset input is held every step, whatever the host does, leaves the engine at its reset values, and
only the release of the input ends that; a write has a response and no effect, and the release changes the input alone.
The response of an access made while the input is held is the model's choice (log 13). -/
def Obligations.HeldResetKeepsTheResetState : Prop :=
  (∀ s t : State, s.Inv → s.resetHeld = true → step s = .next t →
    t.regs = State.reset.regs ∧ t.seq = State.reset.seq ∧ t.irq = false ∧
      (t.resetHeld = true ∨ ∃ rest, s.script = .resetRelease :: rest)) ∧
  (∀ (s : State) (off : Nat) (v : Word) (rest : List Turn), s.resetHeld = true → off < 4096 → off % 4 = 0 →
    s.script = writeTurn s off v :: rest →
    step s = .next { s with script := rest, resp := some ⟨false, none⟩ }) ∧
  ∀ (s : State) (rest : List Turn), s.script = .resetRelease :: rest →
    step s = .next { s with script := rest, resetHeld := false }
end

