-- ==== Sys2Proof/Laws/Bytes.lean ====
section
/-! SUPPORT. Lengths of the byte strings the command functions build. -/

namespace Sys2Proof.Machine

@[simp] theorem beBytes_length (n v : Nat) : (beBytes n v).length = n := by simp [beBytes]

theorem beBytes_getElem? (n v i : Nat) :
    (beBytes n v)[i]? = if i < n then some (BitVec.ofNat 8 (v >>> (8 * (n - 1 - i)))) else none := by
  by_cases h : i < n <;> simp [beBytes, h]

theorem padTo_length {n : Nat} {s : List Byte} (h : s.length ≤ n) : (padTo n s).length = n := by
  simp [padTo]; omega

@[simp] theorem fmt_length (code n : Nat) : (fmt code n).length = n := by simp [fmt]

/-- `BEval` of a string one byte longer. -/
theorem beVal_append_singleton (s : List Byte) (b : Byte) : beVal (s ++ [b]) = beVal s * 256 + b.toNat := by
  simp [beVal, List.foldl_append]

@[simp] theorem beVal_nil : beVal [] = 0 := rfl

/-- The number a big-endian encoding stands for (R11). -/
theorem beVal_beBytes (n v : Nat) : beVal (beBytes n v) = v % 2 ^ (8 * n) := by
  have key : ∀ n m : Nat, m ≤ n → beVal ((List.range m).map fun i => (BitVec.ofNat 8 (v >>> (8 * (n - 1 - i))))) = v / 2^(8*(n-m)) % 2^(8*m) := by
    intro n m
    induction m with
    | zero => intro _; simp [Nat.mod_one]
    | succ m ih =>
      intro hm
      rw [List.range_succ, List.map_append, List.map_cons, List.map_nil, beVal_append_singleton, ih (by omega)]
      simp only [BitVec.toNat_ofNat, Nat.shiftRight_eq_div_pow]
      have e1 : 8 * (n - 1 - m) = 8 * (n - (m+1)) := by omega
      have e2 : 8 * (n - m) = 8 * (n - (m+1)) + 8 := by omega
      rw [e1, e2, Nat.pow_add, ← Nat.div_div_eq_div_mul]
      generalize v / 2^(8 * (n-(m+1))) = u
      have : 2^(8*(m+1)) = 2^8 * 2^(8*m) := by rw [← Nat.pow_add]; congr 1; omega
      rw [this, Nat.mod_mul]; omega
  have := key n n (le_refl n)
  simpa [beBytes] using this

/-- A digest has 20 bytes (R257). -/
@[simp] theorem hash_bytes_length (H : Hash) : H.bytes.length = 20 := by simp [Hash.bytes]

@[simp] theorem sha1_length (M : List Byte) : (sha1 M).length = 20 := by simp [sha1]

@[simp] theorem hmacSha1_length (K msg : List Byte) : (hmacSha1 K msg).length = 20 := by simp [hmacSha1]

/-! ## The Base32 loop -/

/-- The loop keeps `8 * len(out) + nb` equal to the bits taken in, with nb below 8. -/
theorem base32Loop_length {cs : List Byte} {acc nb : Nat} {out key : List Byte} (hnb : nb < 8)
    (h : base32Loop cs acc nb out = .ok key) : key.length = out.length + (nb + 5 * cs.length) / 8 := by
  induction cs generalizing acc nb out with
  | nil =>
    simp only [base32Loop] at h
    injection h with h
    subst h
    simp; omega
  | cons c cs ih =>
    simp only [base32Loop] at h
    split at h
    · cases h
    · split at h
      · rename_i hv hge
        have := ih (by omega) h
        simp only [List.length_append, List.length_cons, List.length_nil] at this ⊢
        omega
      · rename_i hv hge
        have := ih (by omega) h
        simp only [List.length_cons] at this ⊢
        omega

theorem stripPadding_length_le (s : List Byte) : (stripPadding s).length ≤ s.length := by
  have := (List.dropWhile_suffix (fun c : Byte => c == 0x3D#8) (l := s.reverse)).length_le
  simpa [stripPadding] using this

/-- A decoded key is not empty and has floor(5n/8) bytes (R204, R206). -/
theorem base32Decode_length {s key : List Byte} (h : base32Decode s = .ok key) :
    1 ≤ key.length ∧ key.length = 5 * (stripPadding s).length / 8 := by
  unfold base32Decode at h
  split at h
  · cases h
  · rename_i out ho
    split at h
    · cases h
    · injection h with h
      subst h
      have := base32Loop_length (by decide) ho
      simp only [List.length_nil] at this
      constructor <;> omega

/-- The key of a text of at most 256 bytes fits KEY (R206). -/
theorem base32Decode_length_le {s key : List Byte} (h : base32Decode s = .ok key) (hs : s.length ≤ 256) :
    key.length ≤ 160 := by
  have h1 := base32Decode_length h
  have h2 := stripPadding_length_le s
  omega

/-- The decoder's one error is InvalidSecretEncoding (R204). -/
theorem base32Loop_error {cs : List Byte} {acc nb : Nat} {out : List Byte} {e : ErrCode}
    (h : base32Loop cs acc nb out = .error e) : e = .invalidSecretEncoding := by
  induction cs generalizing acc nb out with
  | nil => cases h
  | cons c cs ih =>
    simp only [base32Loop] at h
    split at h
    · injection h with h; exact h.symm
    · split at h <;> exact ih h

theorem base32Decode_error {s : List Byte} {e : ErrCode} (h : base32Decode s = .error e) :
    e = .invalidSecretEncoding := by
  unfold base32Decode at h
  split at h
  · rename_i e' he; injection h with h; subst h; exact base32Loop_error he
  · split at h
    · injection h with h; exact h.symm
    · cases h

end Sys2Proof.Machine
end

