-- ==== Sys2Proof/Laws/Memory.lean ====
section
/-! SUPPORT. The byte memory: read after write, and every operation keeps the canonical form. -/

namespace Sys2Proof.Machine

theorem readCells_filter_ne (cells : List Host.Cell) (a x : Nat) :
    readCells (cells.filter (·.1 ≠ a)) x = if a = x then 0#8 else readCells cells x := by
  induction cells with
  | nil => simp [readCells]
  | cons c rest ih =>
    obtain ⟨y, v⟩ := c
    by_cases hy : y = a
    · subst hy
      by_cases hx : y = x <;> simp_all [readCells]
    · by_cases hx : a = x
      · subst hx; simp_all [readCells]
      · simp_all [readCells]

theorem readCells_insertCell (cells : List Host.Cell) (a x : Nat) (b : Byte) (h : ∀ c ∈ cells, c.1 ≠ a) :
    readCells (insertCell a b cells) x = if a = x then b else readCells cells x := by
  induction cells with
  | nil => simp [insertCell, readCells]
  | cons c rest ih =>
    obtain ⟨y, v⟩ := c
    have hy : y ≠ a := h (y, v) (by simp)
    have hr : ∀ c ∈ rest, c.1 ≠ a := fun c hc => h c (by simp [hc])
    by_cases hlt : a < y
    · simp [insertCell, hlt, readCells]
    · simp only [insertCell, hlt, if_false, readCells, ih hr]
      by_cases hyx : y = x
      · subst hyx; simp [hy.symm]
      · simp [hyx]

/-- A read after a write gives the byte written at its offset, and every other byte as before. -/
theorem read_write (m : Memory) (a x : Nat) (b : Byte) :
    (m.write a b).read x = if a = x then b else m.read x := by
  by_cases hb : b = 0#8
  · subst hb
    simp only [Memory.read, Memory.write, writeCells, if_true, readCells_filter_ne]
  · simp only [Memory.read, Memory.write, writeCells, hb, if_false]
    rw [readCells_insertCell _ _ _ _ (by simp), readCells_filter_ne]
    split <;> rfl

theorem read_write_same (m : Memory) (a : Nat) (b : Byte) : (m.write a b).read a = b := by simp [read_write]

theorem read_write_other (m : Memory) {a x : Nat} (b : Byte) (h : a ≠ x) : (m.write a b).read x = m.read x := by
  simp [read_write, h]

/-- A read after a byte string is stored: the string's byte inside it, every other byte as before. -/
theorem read_writeBytes (m : Memory) (a x : Nat) (bs : List Byte) :
    (m.writeBytes a bs).read x = ((if a ≤ x then bs[x - a]? else none).getD (m.read x)) := by
  induction bs generalizing m a with
  | nil => simp [Memory.writeBytes]
  | cons b bs ih =>
    rw [Memory.writeBytes, ih]
    by_cases h1 : a + 1 ≤ x
    · have h2 : a ≤ x := by omega
      obtain ⟨k, rfl⟩ : ∃ k, x = a + 1 + k := ⟨x - (a + 1), by omega⟩
      have h3 : a + 1 + k - a = k + 1 := by omega
      simp [h2, h3, read_write_other m b (show a ≠ a + 1 + k by omega)]
    · by_cases h2 : a ≤ x
      · have h3 : x = a := by omega
        subst h3; simp [read_write]
      · simp [h1, h2, read_write_other m b (show a ≠ x by omega)]

theorem mem_insertCell {a : Nat} {b : Byte} {cells : List Host.Cell} {c : Host.Cell} :
    c ∈ insertCell a b cells ↔ c = (a, b) ∨ c ∈ cells := by
  induction cells with
  | nil => simp [insertCell]
  | cons d rest ih =>
    by_cases h : a < d.1
    · simp [insertCell, h]
    · simp [insertCell, h, ih]; tauto

theorem insertCell_pairwise {a : Nat} {b : Byte} {cells : List Host.Cell}
    (hs : cells.Pairwise (fun c d => c.1 < d.1)) (h : ∀ c ∈ cells, c.1 ≠ a) :
    (insertCell a b cells).Pairwise (fun c d => c.1 < d.1) := by
  induction cells with
  | nil => simp [insertCell]
  | cons d rest ih =>
    rw [List.pairwise_cons] at hs
    have hd : d.1 ≠ a := h d (by simp)
    by_cases hlt : a < d.1
    · simp only [insertCell, hlt, if_true, List.pairwise_cons]
      refine ⟨?_, hs.1, hs.2⟩
      intro c hc
      rcases List.mem_cons.mp hc with rfl | hc
      · exact hlt
      · exact Nat.lt_trans hlt (hs.1 c hc)
    · simp only [insertCell, hlt, if_false, List.pairwise_cons]
      refine ⟨?_, ih hs.2 (fun c hc => h c (by simp [hc]))⟩
      intro c hc
      rcases mem_insertCell.mp hc with rfl | hc
      · show d.1 < a
        omega
      · exact hs.1 c hc

/-- A write keeps the canonical form. -/
theorem write_wf {m : Memory} (h : m.wf) (a : Nat) (b : Byte) : (m.write a b).wf := by
  have hf : (m.cells.filter (·.1 ≠ a)).Pairwise (fun c d => c.1 < d.1) := h.1.sublist List.filter_sublist
  have hz : ∀ c ∈ m.cells.filter (·.1 ≠ a), c.2 ≠ 0#8 := fun c hc => h.2 c (List.mem_of_mem_filter hc)
  by_cases hb : b = 0#8
  · simp only [Memory.wf, Memory.write, writeCells, hb, if_true]
    exact ⟨hf, hz⟩
  · simp only [Memory.wf, Memory.write, writeCells, hb, if_false]
    refine ⟨insertCell_pairwise hf (by simp), ?_⟩
    intro c hc
    rcases mem_insertCell.mp hc with rfl | hc
    · exact hb
    · exact hz c hc

/-- Storing a byte string keeps the canonical form. -/
theorem writeBytes_wf {m : Memory} (h : m.wf) (a : Nat) (bs : List Byte) : (m.writeBytes a bs).wf := by
  induction bs generalizing m a with
  | nil => exact h
  | cons b bs ih => exact ih (write_wf h a b) (a + 1)

/-- A write lists no offset but its own and those already listed. -/
theorem mem_write {m : Memory} {a : Nat} {b : Byte} {c : Host.Cell} (h : c ∈ (m.write a b).cells) :
    c.1 = a ∨ c ∈ m.cells := by
  by_cases hb : b = 0#8
  · simp only [Memory.write, writeCells, hb, if_true] at h
    exact .inr (List.mem_of_mem_filter h)
  · simp only [Memory.write, writeCells, hb, if_false] at h
    rcases mem_insertCell.mp h with rfl | h
    · exact .inl rfl
    · exact .inr (List.mem_of_mem_filter h)

/-- A stored byte string lists no offset but its own and those already listed. -/
theorem mem_writeBytes {m : Memory} {a : Nat} {bs : List Byte} {c : Host.Cell}
    (h : c ∈ (m.writeBytes a bs).cells) : (a ≤ c.1 ∧ c.1 < a + bs.length) ∨ c ∈ m.cells := by
  induction bs generalizing m a with
  | nil => exact .inr h
  | cons b bs ih =>
    rcases ih h with h | h
    · left; simp only [List.length_cons]; omega
    · rcases mem_write h with h | h
      · left; simp only [List.length_cons]; omega
      · exact .inr h

@[simp] theorem readBytes_length (m : Memory) (a n : Nat) : (m.readBytes a n).length = n := by
  simp [Memory.readBytes]

theorem readBytes_getElem? (m : Memory) (a n i : Nat) :
    (m.readBytes a n)[i]? = if i < n then some (m.read (a + i)) else none := by
  by_cases h : i < n <;> simp [Memory.readBytes, h]

@[simp] theorem buf_length (r : Regs) (b : BufName) (n : Nat) : (r.buf b n).length = n := by simp [Regs.buf]

/-- Two memories that read alike over a range give the same byte string. -/
theorem readBytes_congr {m m' : Memory} {a n : Nat} (h : ∀ i < n, m.read (a + i) = m'.read (a + i)) :
    m.readBytes a n = m'.readBytes a n :=
  List.map_congr_left fun i hi => h i (List.mem_range.mp hi)

end Sys2Proof.Machine
end

