-- ==== Sys2Proof/Laws/State.lean ====
section
/-! SUPPORT. One lemma per field per update of State, true by rfl, so that no proof unfolds a record update. -/

namespace Sys2Proof.Machine

variable (s : State) (r : Regs)

/-! ## setBuf changes the memory alone -/

@[simp] theorem setBuf_irqEn (b : BufName) (bs : List Byte) : (r.setBuf b bs).irqEn = r.irqEn := rfl
@[simp] theorem setBuf_done (b : BufName) (bs : List Byte) : (r.setBuf b bs).done = r.done := rfl
@[simp] theorem setBuf_err (b : BufName) (bs : List Byte) : (r.setBuf b bs).err = r.err := rfl
@[simp] theorem setBuf_matched (b : BufName) (bs : List Byte) : (r.setBuf b bs).matched = r.matched := rfl
@[simp] theorem setBuf_codeValid (b : BufName) (bs : List Byte) : (r.setBuf b bs).codeValid = r.codeValid := rfl
@[simp] theorem setBuf_ovr (b : BufName) (bs : List Byte) : (r.setBuf b bs).ovr = r.ovr := rfl
@[simp] theorem setBuf_errcode (b : BufName) (bs : List Byte) : (r.setBuf b bs).errcode = r.errcode := rfl
@[simp] theorem setBuf_digits (b : BufName) (bs : List Byte) : (r.setBuf b bs).digits = r.digits := rfl
@[simp] theorem setBuf_tstep (b : BufName) (bs : List Byte) : (r.setBuf b bs).tstep = r.tstep := rfl
@[simp] theorem setBuf_window (b : BufName) (bs : List Byte) : (r.setBuf b bs).window = r.window := rfl
@[simp] theorem setBuf_secretLen (b : BufName) (bs : List Byte) : (r.setBuf b bs).secretLen = r.secretLen := rfl
@[simp] theorem setBuf_keyLen (b : BufName) (bs : List Byte) : (r.setBuf b bs).keyLen = r.keyLen := rfl
@[simp] theorem setBuf_candLen (b : BufName) (bs : List Byte) : (r.setBuf b bs).candLen = r.candLen := rfl
@[simp] theorem setBuf_nowLo (b : BufName) (bs : List Byte) : (r.setBuf b bs).nowLo = r.nowLo := rfl
@[simp] theorem setBuf_nowHi (b : BufName) (bs : List Byte) : (r.setBuf b bs).nowHi = r.nowHi := rfl
@[simp] theorem setBuf_counterLo (b : BufName) (bs : List Byte) : (r.setBuf b bs).counterLo = r.counterLo := rfl
@[simp] theorem setBuf_counterHi (b : BufName) (bs : List Byte) : (r.setBuf b bs).counterHi = r.counterHi := rfl
@[simp] theorem setBuf_trem (b : BufName) (bs : List Byte) : (r.setBuf b bs).trem = r.trem := rfl
@[simp] theorem setBuf_offset (b : BufName) (bs : List Byte) : (r.setBuf b bs).offset = r.offset := rfl
@[simp] theorem setBuf_trunc (b : BufName) (bs : List Byte) : (r.setBuf b bs).trunc = r.trunc := rfl
@[simp] theorem setBuf_codeBin (b : BufName) (bs : List Byte) : (r.setBuf b bs).codeBin = r.codeBin := rfl
@[simp] theorem setBuf_codeLen (b : BufName) (bs : List Byte) : (r.setBuf b bs).codeLen = r.codeLen := rfl
@[simp] theorem setBuf_mem (b : BufName) (bs : List Byte) :
    (r.setBuf b bs).mem = r.mem.writeBytes (bufBase b) bs := rfl

/-! ## accept -/

@[simp] theorem accept_seq (w : Word) : (s.accept w).seq = .busy w s.regs := rfl
@[simp] theorem accept_resetHeld (w : Word) : (s.accept w).resetHeld = s.resetHeld := rfl
@[simp] theorem accept_script (w : Word) : (s.accept w).script = s.script := rfl
@[simp] theorem accept_resp (w : Word) : (s.accept w).resp = s.resp := rfl
@[simp] theorem accept_doneSeen (w : Word) : (s.accept w).doneSeen = false := rfl
@[simp] theorem accept_draws (w : Word) : (s.accept w).draws = s.draws := rfl
@[simp] theorem accept_platform (w : Word) : (s.accept w).platform = s.platform := rfl
@[simp] theorem accept_regs (w : Word) :
    (s.accept w).regs = { s.regs with done := false, err := false, errcode := 0#4, matched := false } := rfl
@[simp] theorem accept_snapshot (w : Word) : (s.accept w).snapshot = s.regs := rfl

/-! ## completion -/

@[simp] theorem succeed_seq (W : List RegWrite) : (s.succeed W).seq = .idle := rfl
@[simp] theorem succeed_resetHeld (W : List RegWrite) : (s.succeed W).resetHeld = s.resetHeld := rfl
@[simp] theorem succeed_script (W : List RegWrite) : (s.succeed W).script = s.script := rfl
@[simp] theorem succeed_resp (W : List RegWrite) : (s.succeed W).resp = s.resp := rfl
@[simp] theorem succeed_doneSeen (W : List RegWrite) : (s.succeed W).doneSeen = s.doneSeen := rfl
@[simp] theorem succeed_draws (W : List RegWrite) : (s.succeed W).draws = s.draws := rfl
@[simp] theorem succeed_platform (W : List RegWrite) : (s.succeed W).platform = s.platform := rfl
@[simp] theorem succeed_regs (W : List RegWrite) :
    (s.succeed W).regs = { s.regs.applyWrites W with err := false, errcode := 0#4, done := true } := rfl

@[simp] theorem fail_seq (e : ErrCode) : (s.fail e).seq = .idle := rfl
@[simp] theorem fail_resetHeld (e : ErrCode) : (s.fail e).resetHeld = s.resetHeld := rfl
@[simp] theorem fail_script (e : ErrCode) : (s.fail e).script = s.script := rfl
@[simp] theorem fail_resp (e : ErrCode) : (s.fail e).resp = s.resp := rfl
@[simp] theorem fail_doneSeen (e : ErrCode) : (s.fail e).doneSeen = s.doneSeen := rfl
@[simp] theorem fail_draws (e : ErrCode) : (s.fail e).draws = s.draws := rfl
@[simp] theorem fail_platform (e : ErrCode) : (s.fail e).platform = s.platform := rfl
@[simp] theorem fail_regs (e : ErrCode) :
    (s.fail e).regs = { s.regs.setBuf .code (List.replicate Config.codeBuf 0#8) with
      err := true, errcode := e.code, matched := false, codeValid := false,
      codeLen := 0#4, codeBin := 0#32, done := true } := rfl

@[simp] theorem complete_ok (W : List RegWrite) : s.complete (.ok W) = s.succeed W := rfl
@[simp] theorem complete_error (e : ErrCode) : s.complete (.error e) = s.fail e := rfl

@[simp] theorem completeDrawn_seq (x : CmdResult × Draws) : (s.completeDrawn x).seq = (s.complete x.1).seq := rfl
@[simp] theorem completeDrawn_resetHeld (x : CmdResult × Draws) :
    (s.completeDrawn x).resetHeld = (s.complete x.1).resetHeld := rfl
@[simp] theorem completeDrawn_script (x : CmdResult × Draws) :
    (s.completeDrawn x).script = (s.complete x.1).script := rfl
@[simp] theorem completeDrawn_resp (x : CmdResult × Draws) : (s.completeDrawn x).resp = (s.complete x.1).resp := rfl
@[simp] theorem completeDrawn_doneSeen (x : CmdResult × Draws) :
    (s.completeDrawn x).doneSeen = (s.complete x.1).doneSeen := rfl
@[simp] theorem completeDrawn_draws (x : CmdResult × Draws) : (s.completeDrawn x).draws = x.2 := rfl
@[simp] theorem completeDrawn_platform (x : CmdResult × Draws) :
    (s.completeDrawn x).platform = (s.complete x.1).platform := rfl
@[simp] theorem completeDrawn_regs (x : CmdResult × Draws) : (s.completeDrawn x).regs = (s.complete x.1).regs := rfl

/-! ## reset, overrun, STATUS -/

@[simp] theorem engineReset_regs : s.engineReset.regs = Regs.reset := rfl
@[simp] theorem engineReset_seq : s.engineReset.seq = .idle := rfl
@[simp] theorem engineReset_resetHeld : s.engineReset.resetHeld = s.resetHeld := rfl
@[simp] theorem engineReset_script : s.engineReset.script = s.script := rfl
@[simp] theorem engineReset_resp : s.engineReset.resp = s.resp := rfl
@[simp] theorem engineReset_doneSeen : s.engineReset.doneSeen = true := rfl
@[simp] theorem engineReset_draws : s.engineReset.draws = s.draws := rfl
@[simp] theorem engineReset_platform : s.engineReset.platform = s.platform := rfl

@[simp] theorem assertReset_regs : s.assertReset.regs = Regs.reset := rfl
@[simp] theorem assertReset_seq : s.assertReset.seq = .idle := rfl
@[simp] theorem assertReset_resetHeld : s.assertReset.resetHeld = true := rfl
@[simp] theorem assertReset_script : s.assertReset.script = s.script := rfl
@[simp] theorem assertReset_resp : s.assertReset.resp = s.resp := rfl
@[simp] theorem assertReset_doneSeen : s.assertReset.doneSeen = true := rfl
@[simp] theorem assertReset_draws : s.assertReset.draws = s.draws := rfl
@[simp] theorem assertReset_platform : s.assertReset.platform = s.platform := rfl

@[simp] theorem releaseReset_regs : s.releaseReset.regs = s.regs := rfl
@[simp] theorem releaseReset_seq : s.releaseReset.seq = s.seq := rfl
@[simp] theorem releaseReset_resetHeld : s.releaseReset.resetHeld = false := rfl
@[simp] theorem releaseReset_script : s.releaseReset.script = s.script := rfl
@[simp] theorem releaseReset_resp : s.releaseReset.resp = s.resp := rfl
@[simp] theorem releaseReset_doneSeen : s.releaseReset.doneSeen = s.doneSeen := rfl
@[simp] theorem releaseReset_draws : s.releaseReset.draws = s.draws := rfl
@[simp] theorem releaseReset_platform : s.releaseReset.platform = s.platform := rfl

@[simp] theorem overrun_regs : s.overrun.regs = { s.regs with ovr := true } := rfl
@[simp] theorem overrun_seq : s.overrun.seq = s.seq := rfl
@[simp] theorem overrun_resetHeld : s.overrun.resetHeld = s.resetHeld := rfl
@[simp] theorem overrun_script : s.overrun.script = s.script := rfl
@[simp] theorem overrun_resp : s.overrun.resp = s.resp := rfl
@[simp] theorem overrun_doneSeen : s.overrun.doneSeen = s.doneSeen := rfl
@[simp] theorem overrun_draws : s.overrun.draws = s.draws := rfl
@[simp] theorem overrun_platform : s.overrun.platform = s.platform := rfl

@[simp] theorem observe_regs (sl : Slot) : (s.observe sl).regs = s.regs := rfl
@[simp] theorem observe_seq (sl : Slot) : (s.observe sl).seq = s.seq := rfl
@[simp] theorem observe_resetHeld (sl : Slot) : (s.observe sl).resetHeld = s.resetHeld := rfl
@[simp] theorem observe_script (sl : Slot) : (s.observe sl).script = s.script := rfl
@[simp] theorem observe_resp (sl : Slot) : (s.observe sl).resp = s.resp := rfl
@[simp] theorem observe_draws (sl : Slot) : (s.observe sl).draws = s.draws := rfl
@[simp] theorem observe_platform (sl : Slot) : (s.observe sl).platform = s.platform := rfl

/-! ## what is in flight -/

theorem busy_of_seq_idle {s : State} (h : s.seq = .idle) : s.busy = false := by simp [State.busy, h]
theorem busy_of_seq_busy {s : State} {w : Word} {S : Regs} (h : s.seq = .busy w S) : s.busy = true := by
  simp [State.busy, h]
theorem snapshot_of_seq_busy {s : State} {w : Word} {S : Regs} (h : s.seq = .busy w S) : s.snapshot = S := by
  simp [State.snapshot, h]
theorem issue_of_seq_busy {s : State} {w : Word} {S : Regs} (h : s.seq = .busy w S) (i : Instr) : s.issue i = s := by
  simp [State.issue, h]
theorem issue_of_seq_idle {s : State} (h : s.seq = .idle) (i : Instr) : s.issue i = s.accept (encode i) := by
  simp [State.issue, h]

/-- However a command comes to be in flight, the model's own fields are as they were. -/
theorem issue_own_fields (i : Instr) :
    (s.issue i).script = s.script ∧ (s.issue i).resp = s.resp ∧ (s.issue i).draws = s.draws ∧
      (s.issue i).platform = s.platform ∧ (s.issue i).resetHeld = s.resetHeld := by
  cases h : s.seq <;> simp [State.issue, h]

end Sys2Proof.Machine
end

