-- ==== Sys2Proof/Laws/Ops.lean ====
section
/-! SUPPORT. One lemma per shared operation that says once everything it can do: completions, accesses, turns. -/

namespace Sys2Proof.Machine

/-! ## Draws -/

@[simp] theorem skip_zero (d : Draws) : d.skip 0 = d := by simp [Draws.skip]

theorem skip_skip (d : Draws) (m n : Nat) : (d.skip m).skip n = d.skip (m + n) := by
  simp [Draws.skip, Nat.add_assoc]

theorem advance_eq_skip (d : Draws) : d.advance = d.skip 1 := rfl

/-- One invocation of the HMAC unit with a true draw. -/
theorem hmacInvoke_true {p : Config.Platform} {d : Draws} (h : d.head p = true) (K msg : List Byte) :
    hmacInvoke p d K msg = (.ok (hmacSha1 K msg), d.skip 1) := by
  simp [hmacInvoke, h, advance_eq_skip]

/-- One invocation of the HMAC unit with a false draw. -/
theorem hmacInvoke_false {p : Config.Platform} {d : Draws} (h : d.head p = false) (K msg : List Byte) :
    hmacInvoke p d K msg = (.error .cryptoBackendFailure, d.skip 1) := by
  simp [hmacInvoke, h, advance_eq_skip]

theorem hotpCore_true {p : Config.Platform} {d : Draws} (h : d.head p = true) (K : List Byte) (c : Dword) (n : Nat) :
    hotpCore p d K c n = (.ok (hotpValue K c n), d.skip 1) := by
  simp [hotpCore, hmacInvoke_true h, hotpValue]

theorem hotpCore_false {p : Config.Platform} {d : Draws} (h : d.head p = false) (K : List Byte) (c : Dword) (n : Nat) :
    hotpCore p d K c n = (.error .cryptoBackendFailure, d.skip 1) := by
  simp [hotpCore, hmacInvoke_false h]

/-! ## Operands -/

/-- The bounds the widths of R7 give, as numerals. -/
theorem digits_lt (S : Regs) : S.digits.toNat < 256 := S.digits.isLt
theorem tstep_lt (S : Regs) : S.tstep.toNat < 2 ^ 32 := S.tstep.isLt
theorem window_lt (S : Regs) : S.window.toNat < 2 ^ 32 := S.window.isLt
theorem trem_lt (S : Regs) : S.trem.toNat < 2 ^ 32 := S.trem.isLt
theorem now_lt (S : Regs) : S.now.toNat < 2 ^ 64 := S.now.isLt
theorem counter_lt (S : Regs) : S.counter.toNat < 2 ^ 64 := S.counter.isLt

theorem append_toNat (x y : Word) : (x ++ y : BitVec 64).toNat = x.toNat * 2 ^ 32 + y.toNat := by
  show BitVec.toNat (x ++ y : BitVec (32 + 32)) = _
  rw [BitVec.toNat_append, ← Nat.shiftLeft_add_eq_or_of_lt y.isLt, Nat.shiftLeft_eq]

/-- NOW as a number (R104). -/
theorem now_toNat (S : Regs) : S.now.toNat = S.nowHi.toNat * 2 ^ 32 + S.nowLo.toNat := append_toNat _ _

/-- COUNTER as a number (R104). -/
theorem counter_toNat (S : Regs) : S.counter.toNat = S.counterHi.toNat * 2 ^ 32 + S.counterLo.toNat :=
  append_toNat _ _

/-- The derived counter as a number (R341). -/
theorem timeCounter_toNat (S : Regs) : (timeCounter S).toNat = counterAt S := by
  have h : (S.tstep.setWidth 64).toNat = S.tstep.toNat := BitVec.toNat_setWidth_of_le (by decide)
  rw [timeCounter, BitVec.toNat_udiv, now_toNat, h, counterAt]

/-! ## exec in one form for all commands -/

/-- The command function of an instruction, with the draws it leaves. -/
def cmdOf (i : Instr) (p : Config.Platform) (d : Draws) (S : Regs) : CmdResult × Draws :=
  match i with
  | .decode => (decodeCmd S, d)
  | .encctr => (encctrCmd S, d)
  | .hmac => hmacCmd p d S
  | .trunc => (truncCmd S, d)
  | .format => (formatCmd S, d)
  | .hotp => hotpCmd p d S
  | .totp => totpCmd p d S
  | .trem => (tremCmd S, d)
  | .validate => validateCmd p d S
  | .validateL => validateLCmd p d S

theorem completeDrawn_same (s : State) (r : CmdResult) : s.completeDrawn (r, s.draws) = s.complete r := by
  cases r <;> rfl

/-- What exec does: the command in flight completes with what its function returns on the snapshot. -/
theorem exec_eq (i : Instr) (s : State) :
    exec i s = .next ((s.issue i).completeDrawn (cmdOf i s.platform s.draws (s.issue i).snapshot)) := by
  have h := (issue_own_fields s i).2.2.1
  cases i <;> simp only [exec, execDecode, execEncctr, execHmac, execTrunc, execFormat, execHotp, execTotp, execTrem,
    execValidate, execValidateL, cmdOf] <;> (rw [← completeDrawn_same, h])

/-- What exec does to a command in flight. -/
theorem exec_busy {s : State} {cur : Word} {S : Regs} (h : s.seq = .busy cur S) (i : Instr) :
    exec i s = .next (s.completeDrawn (cmdOf i s.platform s.draws S)) := by
  rw [exec_eq, issue_of_seq_busy h, snapshot_of_seq_busy h]

/-- exec on an idle machine. -/
theorem exec_idle {s : State} (h : s.seq = .idle) (i : Instr) :
    exec i s = .next ((s.accept (encode i)).completeDrawn (cmdOf i s.platform s.draws s.regs)) := by
  rw [exec_eq, issue_of_seq_idle h, accept_snapshot]

/-! ## Completions -/

theorem storedAt_eq (m : Memory) (b : BufName) (bs : List Byte) (a : Nat) :
    (m.writeBytes (bufBase b) bs).read a = (storedAt b bs a).getD (m.read a) := by
  rw [read_writeBytes, storedAt]

theorem storedAt_eq_none {b : BufName} {bs : List Byte} {a : Nat} (h : bs.length ≤ bufSize b)
    (ha : bufHolds b a = false) : storedAt b bs a = none := by
  simp only [bufHolds, Bool.and_eq_false_iff, decide_eq_false_iff_not] at ha
  unfold storedAt
  split
  · exact List.getElem?_eq_none (by omega)
  · rfl

theorem storedAt_isSome {b : BufName} {bs : List Byte} {a : Nat} (h : bs.length = bufSize b)
    (ha : bufHolds b a = true) : storedAt b bs a = some (byteAt bs (a - bufBase b)) := by
  simp only [bufHolds, Bool.and_eq_true, decide_eq_true_eq] at ha
  have hlt : a - bufBase b < bs.length := by omega
  simp [storedAt, ha.1, byteAt, hlt]

/-- An error completion (R411), whatever draws were taken. -/
theorem fail_failsWith (s : State) (e : ErrCode) (d : Draws) :
    FailsWith s (s.completeDrawn (.error e, d)) d e := by
  refine ⟨_, rfl, fun a => ?_⟩
  simp only [setBuf_mem, storedAt_eq]
  cases ha : bufHolds .code a
  · rw [storedAt_eq_none (by simp [Config.codeBuf, bufSize]) ha]; rfl
  · rw [storedAt_isSome (by simp [Config.codeBuf, bufSize]) ha]
    simp only [byteAt, Option.getD_some, if_true, List.getD_eq_getElem?_getD, List.getElem?_replicate]
    split <;> rfl

/-- What a write of W does to everything but the byte memory: nothing outside the field it names. -/
theorem applyWrites_cons (r : Regs) (w : RegWrite) (W : List RegWrite) :
    r.applyWrites (w :: W) = (r.applyWrite w).applyWrites W := rfl

@[simp] theorem applyWrites_nil (r : Regs) : r.applyWrites [] = r := rfl

/-- A successful completion stores exactly the bytes of `stored` once its writes do. -/
theorem succeed_completesWith {s : State} {W : List RegWrite} {d : Draws} {r : Regs} {stored : Nat → Option Byte}
    (hr : { s.regs.applyWrites W with done := true, err := false, errcode := 0#4 } =
      { r with done := true, err := false, errcode := 0#4, mem := (s.regs.applyWrites W).mem })
    (hm : ∀ a, (s.regs.applyWrites W).mem.read a = (stored a).getD (s.regs.mem.read a)) :
    CompletesWith s (s.completeDrawn (.ok W, d)) d r stored := by
  refine ⟨(s.regs.applyWrites W).mem, ?_, hm⟩
  rw [← hr]; rfl

/-! ## The register map -/

/-- The sizes of the buffers as numerals. -/
theorem bufSize_eq (b : BufName) :
    bufSize b = match b with | .ctrBytes => 8 | .digest => 20 | .code => 12 | .cand => 16 | .secret => 256 | .key => 160 := by
  cases b <;> rfl

theorem tableOffset_eq (r : RegName) : tableOffset r = regOffset r := by cases r <;> rfl

theorem tableBuffer_eq (b : BufName) : (tableBuffer b).1 = bufBase b ∧ 4 * (tableBuffer b).2 = bufSize b := by
  cases b <;> decide

theorem slotAt_regOffset (r : RegName) : slotAt (regOffset r) = .reg r := by cases r <;> rfl

theorem slotAt_bufWord {b : BufName} {k : Nat} (h : 4 * k < bufSize b) : slotAt (bufBase b + 4 * k) = .word b k := by
  have hk : k < bufSize b / 4 := by cases b <;> simp only [bufSize_eq] at h ⊢ <;> omega
  cases b <;> norm_num [bufSize_eq] at hk <;> interval_cases k <;> rfl

theorem regOffset_lt (r : RegName) : regOffset r < 4096 ∧ regOffset r % 4 = 0 := by cases r <;> decide

theorem bufWord_lt {b : BufName} {k : Nat} (h : 4 * k < bufSize b) :
    bufBase b + 4 * k < 4096 ∧ (bufBase b + 4 * k) % 4 = 0 := by
  cases b <;> simp only [bufSize_eq, bufBase] at h ⊢ <;> omega

/-- Buffers start and end at word boundaries. -/
theorem bufBase_mod (b : BufName) : bufBase b % 4 = 0 ∧ bufSize b % 4 = 0 := by cases b <;> decide

/-- No offset lies in two buffers. -/
theorem bufHolds_unique {b b' : BufName} {a : Nat} (h : bufHolds b a = true) (h' : bufHolds b' a = true) : b = b' := by
  simp only [bufHolds, Bool.and_eq_true, decide_eq_true_eq] at h h'
  cases b <;> cases b' <;> simp only [bufBase, bufSize_eq] at h h' <;> first | rfl | omega

/-- What slotAt answers lies where it says. -/
theorem slotAt_word {off : Nat} {b : BufName} {k : Nat} (h : slotAt off = .word b k) :
    bufHolds b off = true ∧ k = (off - bufBase b) / 4 := by
  unfold slotAt at h
  split at h
  · cases h
  · split at h
    · rename_i b' hb
      injection h with h1 h2
      subst h1
      exact ⟨by simpa using List.find?_some hb, h2.symm⟩
    · cases h

/-- A word read is the word whose four bytes the buffer holds (R102). -/
theorem readWord_eq {r : Regs} {b : BufName} {k : Nat} {v : Word}
    (h : ∀ i < 4, r.mem.read (bufBase b + 4 * k + i) = v.extractLsb' (24 - 8 * i) 8) : readWord r b k = v := by
  have h0 := h 0 (by omega); have h1 := h 1 (by omega); have h2 := h 2 (by omega); have h3 := h 3 (by omega)
  unfold readWord
  simp only [h0, h1, h2, h3]
  apply BitVec.eq_of_getLsbD_eq
  intro i hi
  show BitVec.getLsbD (_ ++ _ ++ _ ++ _ : BitVec (8+8+8+8)) i = _
  rw [BitVec.getLsbD_append, BitVec.getLsbD_append, BitVec.getLsbD_append]
  simp only [BitVec.getLsbD_extractLsb']
  by_cases h1 : i < 8
  · simp [h1]
  · by_cases h2 : i - 8 < 8
    · have : 8 + (i - 8) = i := by omega
      simp [h1, h2, this]
    · by_cases h3 : i - 8 - 8 < 8
      · have : 16 + (i - 8 - 8) = i := by omega
        simp [h1, h2, h3, this]
      · have : 24 + (i - 8 - 8 - 8) = i := by omega
        simp [h1, h2, h3, this]; omega

/-! ## Accesses and turns -/

/-- A permitted access inside the window. -/
theorem busAccess_window {s : State} {off : Nat} {op : AccessOp} (h : off < 4096) (ha : off % 4 = 0) :
    busAccess ⟨s.platform.engineBase + off, 4, op⟩ s = .next (windowAccess s off op) := by
  simp [busAccess, Config.windowBytes, h, ha]

/-- Everything a host access can do: leave the window, end in a bus error, or act on the slot it addresses. -/
theorem busAccess_cases {a : Access} {s t : State} (h : busAccess a s = .next t) :
    t = s.busError a.op ∨ ∃ off, off < 4096 ∧ off % 4 = 0 ∧ a = ⟨s.platform.engineBase + off, 4, a.op⟩ ∧
      t = windowAccess s off a.op := by
  unfold busAccess at h
  split at h
  · cases h
  · rename_i hw
    split at h
    · injection h with h; exact .inl h.symm
    · rename_i hp
      injection h with h
      refine .inr ⟨a.addr - s.platform.engineBase, ?_, ?_, ?_, h.symm⟩
      · simp only [Config.windowBytes] at hw; omega
      · omega
      · obtain ⟨addr, size, op⟩ := a
        simp only at hw hp ⊢
        simp only [Access.mk.injEq, and_true]
        omega

/-- Everything the completion step can do. -/
theorem completion_cases {s t : State} (h : completion s = .next t) :
    (s.seq = .idle ∧ t = s) ∨
    (∃ cur S i, s.seq = .busy cur S ∧ decode cur = .ok i ∧ exec i s = .next t) ∨
    (∃ cur S e, s.seq = .busy cur S ∧ decode cur = .error e ∧ t = s.fail .illegalCommand) := by
  unfold completion at h
  split at h
  · injection h with h; exact .inl ⟨‹_›, h.symm⟩
  · rename_i cur S hs
    split at h
    · rename_i i hd; exact .inr (.inl ⟨cur, S, i, hs, hd, h⟩)
    · rename_i e hd; injection h with h; exact .inr (.inr ⟨cur, S, e, hs, hd, h.symm⟩)

/-- Everything a step can do. -/
theorem step_cases {s t : State} (h : step s = .next t) :
    completion s = .next t ∨
    (∃ a rest, s.script = .access a :: rest ∧ busAccess a { s with script := rest } = .next t) ∨
    (∃ rest, s.script = .wait :: rest ∧ s.regs.done = true ∧ t = { s with script := rest }.statusPoll) ∨
    (∃ rest, s.script = .waitIrq :: rest ∧ s.irq = true ∧ t = { s with script := rest, doneSeen := true }) ∨
    (∃ rest, s.script = .engine :: rest ∧ completion { s with script := rest } = .next t) ∨
    (∃ rest, s.script = .resetAssert :: rest ∧ t = { s with script := rest }.assertReset) ∨
    (∃ rest, s.script = .resetRelease :: rest ∧ t = { s with script := rest }.releaseReset) := by
  unfold step takeTurn at h
  split at h
  · exact .inl h
  · exact .inr (.inl ⟨_, _, ‹_›, h⟩)
  · split at h
    · injection h with h; exact .inr (.inr (.inl ⟨_, ‹_›, ‹_›, h.symm⟩))
    · exact .inl h
  · split at h
    · injection h with h; exact .inr (.inr (.inr (.inl ⟨_, ‹_›, ‹_›, h.symm⟩)))
    · exact .inl h
  · exact .inr (.inr (.inr (.inr (.inl ⟨_, ‹_›, h⟩))))
  · injection h with h; exact .inr (.inr (.inr (.inr (.inr (.inl ⟨_, ‹_›, h.symm⟩)))))
  · injection h with h; exact .inr (.inr (.inr (.inr (.inr (.inr ⟨_, ‹_›, h.symm⟩)))))

/-- A run of no step. -/
theorem run_zero (s : State) : Host.Core.run Sys2Proof.core 0 s = .next s := rfl

/-- A run whose first step answers a next state goes on from it. -/
theorem run_succ {s t : State} (h : step s = .next t) (k : Nat) :
    Host.Core.run Sys2Proof.core (k + 1) s = Host.Core.run Sys2Proof.core k t := by
  have hc : Host.Core.step Sys2Proof.core s = .next t := h
  simp only [Host.Core.run, hc]

/-- A run whose first step faults ends in that fault. -/
theorem run_succ_fault {s : State} {f : Fault} (h : step s = .fault f) (k : Nat) :
    Host.Core.run Sys2Proof.core (k + 1) s = .fault f := by
  have hc : Host.Core.step Sys2Proof.core s = .fault f := h
  simp only [Host.Core.run, hc]

/-- A write while the reset input is released acts on its slot. -/
theorem windowAccess_write {s : State} (h : s.resetHeld = false) (off : Nat) (v : Word) :
    windowAccess s off (.write v) = { hostWrite s v (slotAt off) with resp := some ⟨false, none⟩ } := by
  simp [windowAccess, h]

/-- A write while the reset input is held has a response and no effect (R450). -/
theorem windowAccess_write_held {s : State} (h : s.resetHeld = true) (off : Nat) (v : Word) :
    windowAccess s off (.write v) = { s with resp := some ⟨false, none⟩ } := by
  simp [windowAccess, h]

/-- A step at a permitted write of the window. -/
theorem step_writeTurn {s : State} {off : Nat} {v : Word} {rest : List Turn} (h : off < 4096) (ha : off % 4 = 0)
    (hs : s.script = writeTurn s off v :: rest) :
    step s = .next (windowAccess { s with script := rest } off (.write v)) := by
  have hb := busAccess_window (s := { s with script := rest }) (op := .write v) h ha
  simp only [step, takeTurn, hs, writeTurn]
  exact hb

/-- A step at a permitted read of the window. -/
theorem step_readTurn {s : State} {off : Nat} {rest : List Turn} (h : off < 4096) (ha : off % 4 = 0)
    (hs : s.script = readTurn s off :: rest) :
    step s = .next (windowAccess { s with script := rest } off .read) := by
  have hb := busAccess_window (s := { s with script := rest }) (op := .read) h ha
  simp only [step, takeTurn, hs, readTurn]
  exact hb

end Sys2Proof.Machine
end

