-- ==== Sys2Proof/Laws/Commands.lean ====
section
/-! SUPPORT. What each command's function returns on legal operands, and what no write of a command touches. -/

namespace Sys2Proof.Machine

/-! ## Writes -/

/-- A write's byte string fits its buffer. -/
def RegWrite.sized : RegWrite → Prop
  | .key k => k.length ≤ 160
  | .ctrBytes m => m.length = 8
  | .digest d => d.length = 20
  | .code s => s.length ≤ 12
  | .keyLen _ | .counter _ | .offset _ | .trunc _ | .codeBin _ | .codeLen _ | .codeValid _ | .trem _ | .matched _ => True

/-- No write of a command touches an input register, IRQ_EN, OVR or a field that only completion sets. -/
theorem applyWrites_inputs (r : Regs) (W : List RegWrite) :
    (r.applyWrites W).irqEn = r.irqEn ∧ (r.applyWrites W).ovr = r.ovr ∧ (r.applyWrites W).digits = r.digits ∧
    (r.applyWrites W).tstep = r.tstep ∧ (r.applyWrites W).window = r.window ∧
    (r.applyWrites W).secretLen = r.secretLen ∧ (r.applyWrites W).candLen = r.candLen ∧
    (r.applyWrites W).nowLo = r.nowLo ∧ (r.applyWrites W).nowHi = r.nowHi := by
  induction W generalizing r with
  | nil => simp
  | cons w W ih =>
    have h := ih (r.applyWrite w)
    rw [applyWrites_cons]
    cases w <;> simpa [Regs.applyWrite] using h

/-- The buffer a write stores to. -/
def RegWrite.buffer : RegWrite → Option BufName
  | .key _ => some .key
  | .ctrBytes _ => some .ctrBytes
  | .digest _ => some .digest
  | .code _ => some .code
  | .keyLen _ | .counter _ | .offset _ | .trunc _ | .codeBin _ | .codeLen _ | .codeValid _ | .trem _ | .matched _ => none

/-- One write leaves every byte outside its buffer. -/
theorem applyWrite_read_other {r : Regs} {w : RegWrite} {a : Nat} (hw : w.sized)
    (ha : ∀ b, w.buffer = some b → bufHolds b a = false) : (r.applyWrite w).mem.read a = r.mem.read a := by
  cases w with
  | key k =>
    have hl : (padTo Config.keyMax k).length ≤ bufSize .key := Nat.le_of_eq (padTo_length hw)
    simp [Regs.applyWrite, storedAt_eq, storedAt_eq_none hl (ha _ rfl)]
  | ctrBytes m =>
    have hl : m.length ≤ bufSize .ctrBytes := Nat.le_of_eq hw
    simp [Regs.applyWrite, storedAt_eq, storedAt_eq_none hl (ha _ rfl)]
  | digest d =>
    have hl : d.length ≤ bufSize .digest := Nat.le_of_eq hw
    simp [Regs.applyWrite, storedAt_eq, storedAt_eq_none hl (ha _ rfl)]
  | code c =>
    have hl : (padTo Config.codeBuf c).length ≤ bufSize .code := Nat.le_of_eq (padTo_length hw)
    simp [Regs.applyWrite, storedAt_eq, storedAt_eq_none hl (ha _ rfl)]
  | keyLen | counter | offset | trunc | codeBin | codeLen | codeValid | trem | matched => rfl

/-- A list of writes leaves every byte outside the buffers it stores to. -/
theorem applyWrites_read_other {r : Regs} {W : List RegWrite} {a : Nat} (hW : ∀ w ∈ W, w.sized)
    (ha : ∀ w ∈ W, ∀ b, w.buffer = some b → bufHolds b a = false) :
    (r.applyWrites W).mem.read a = r.mem.read a := by
  induction W generalizing r with
  | nil => rfl
  | cons w W ih =>
    rw [applyWrites_cons, ih (fun x hx => hW x (by simp [hx])) (fun x hx => ha x (by simp [hx])),
      applyWrite_read_other (hW w (by simp)) (ha w (by simp))]

/-! ## What a list of writes leaves -/

theorem applyWrites_append (r : Regs) (W V : List RegWrite) :
    r.applyWrites (W ++ V) = (r.applyWrites W).applyWrites V := by
  simp [Regs.applyWrites, List.foldl_append]

/-- What committing a decoded key leaves (R205, R210). -/
theorem keyWrites_regs (r : Regs) (K : List Byte) :
    r.applyWrites (keyWrites K) =
      { r with keyLen := BitVec.ofNat 16 K.length,
               mem := r.mem.writeBytes (bufBase .key) (padTo Config.keyMax K) } := by
  simp only [keyWrites, applyWrites_cons, applyWrites_nil, Regs.applyWrite, Regs.setBuf]

/-- What committing a code leaves (R312). -/
theorem codeWrites_regs (r : Regs) (c n : Nat) :
    r.applyWrites (codeWrites c n) =
      { r with codeBin := BitVec.ofNat 32 c, codeLen := BitVec.ofNat 4 n, codeValid := true,
               mem := r.mem.writeBytes (bufBase .code) (padTo Config.codeBuf (fmt c n)) } := by
  simp only [codeWrites, applyWrites_cons, applyWrites_nil, Regs.applyWrite, Regs.setBuf]

/-- What committing a HOTP result leaves (R330). -/
theorem hotpWrites_regs (r : Regs) (h : HotpResult) (n : Nat) :
    r.applyWrites (hotpWrites h n) =
      { r with offset := h.offset, trunc := h.trunc, codeBin := BitVec.ofNat 32 h.code,
               codeLen := BitVec.ofNat 4 n, codeValid := true,
               mem := ((r.mem.writeBytes (bufBase .ctrBytes) h.message).writeBytes (bufBase .digest) h.digest).writeBytes
                 (bufBase .code) (padTo Config.codeBuf h.text) } := by
  simp only [hotpWrites, applyWrites_cons, applyWrites_nil, Regs.applyWrite, Regs.setBuf]

/-- The lengths of a HOTP result's byte strings (R331). -/
theorem hotpValue_lengths (K : List Byte) (c : Dword) (n : Nat) :
    (hotpValue K c n).message.length = 8 ∧ (hotpValue K c n).digest.length = 20 ∧
      (hotpValue K c n).text.length = n := by
  simp [hotpValue, hotpOfDigest, encodeCounter, Config.ctrByteCount]

/-- A buffer stored whole reads back as it was stored. -/
theorem buf_writeBytes_same {m : Memory} {b : BufName} {bs : List Byte} (h : bs.length = bufSize b) :
    (m.writeBytes (bufBase b) bs).readBytes (bufBase b) (bufSize b) = bs := by
  apply List.ext_getElem?
  intro i
  rw [readBytes_getElem?]
  split
  · rename_i hi
    rw [storedAt_eq, storedAt]
    simp [h, hi]
  · rw [List.getElem?_eq_none (by omega)]

/-- A string stored in one buffer leaves every other buffer. -/
theorem buf_writeBytes_other {m : Memory} {b b' : BufName} {bs : List Byte} (h : bs.length ≤ bufSize b) (hb : b ≠ b')
    {n : Nat} (hn : n ≤ bufSize b') :
    (m.writeBytes (bufBase b) bs).readBytes (bufBase b') n = m.readBytes (bufBase b') n := by
  apply readBytes_congr
  intro i hi
  have hn' : bufHolds b (bufBase b' + i) = false := by
    cases hc : bufHolds b (bufBase b' + i)
    · rfl
    · exact absurd (bufHolds_unique hc (by simp [bufHolds]; omega)) hb
  rw [storedAt_eq, storedAt_eq_none h hn']; rfl

/-- Strings stored in two buffers never meet. -/
theorem storedAt_disjoint {b b' : BufName} {bs bs' : List Byte} (hb : b ≠ b') (h : bs.length ≤ bufSize b)
    (h' : bs'.length ≤ bufSize b') (a : Nat) : storedAt b bs a = none ∨ storedAt b' bs' a = none := by
  by_cases ha : bufHolds b a = true
  · right
    apply storedAt_eq_none h'
    by_contra hc
    exact hb (bufHolds_unique ha (by simpa using hc))
  · left
    exact storedAt_eq_none h (by simpa using ha)

/-! ## What each function returns -/

theorem hotpWrites_sized (K : List Byte) (c : Dword) {n : Nat} (hn : n ≤ 9) :
    ∀ w ∈ hotpWrites (hotpValue K c n) n, w.sized := by
  simp [hotpWrites, hotpValue, hotpOfDigest, RegWrite.sized, encodeCounter, Config.ctrByteCount]
  omega

theorem keyWrites_sized {K : List Byte} (h : K.length ≤ 160) : ∀ w ∈ keyWrites K, w.sized := by
  simp [keyWrites, RegWrite.sized, h]

theorem codeWrites_sized (code : Nat) {n : Nat} (hn : n ≤ 9) : ∀ w ∈ codeWrites code n, w.sized := by
  simp [codeWrites, RegWrite.sized]; omega

theorem badDigits_false {S : Regs} : S.badDigits = false ↔ 1 ≤ S.digits.toNat ∧ S.digits.toNat ≤ 9 := by
  rw [Regs.badDigits, Bool.or_eq_false_iff, decide_eq_false_iff_not, decide_eq_false_iff_not, not_lt, not_lt]
  rfl

theorem badTstep_false {S : Regs} : S.badTstep = false ↔ S.tstep ≠ 0#32 := by simp [Regs.badTstep]

theorem badSecretLen_false {S : Regs} : S.badSecretLen = false ↔ S.secretLen.toNat ≤ 256 := by
  rw [Regs.badSecretLen, decide_eq_false_iff_not, not_lt]
  rfl

theorem badKeyLen_false {S : Regs} : S.badKeyLen = false ↔ S.keyLen.toNat ≤ 160 := by
  rw [Regs.badKeyLen, decide_eq_false_iff_not, not_lt]
  rfl

theorem badCandLen_false {S : Regs} : S.badCandLen = false ↔ S.candLen.toNat ≤ 16 := by
  rw [Regs.badCandLen, decide_eq_false_iff_not, not_lt]
  rfl

theorem badWindow_false {S : Regs} : S.badWindow = false ↔ 0 ≤ S.window.toInt ∧ S.window.toInt ≤ 16 := by
  rw [Regs.badWindow, Bool.or_eq_false_iff, decide_eq_false_iff_not, decide_eq_false_iff_not, not_lt, not_lt]
  rfl

/-- The secret's key fits KEY. -/
theorem secretKey_length_le {S : Regs} {K : List Byte} (hs : S.badSecretLen = false)
    (h : base32Decode S.secretText = .ok K) : K.length ≤ 160 :=
  base32Decode_length_le h (by simpa [Regs.secretText] using badSecretLen_false.mp hs)

/-- Everything HMAC's function can return (R270). -/
theorem hmacCmd_cases (p : Config.Platform) (d : Draws) (S : Regs) :
    (S.badKeyLen = true ∧ hmacCmd p d S = (.error .invalidParameters, d)) ∨
    (S.badKeyLen = false ∧ S.keyLen = 0#16 ∧ hmacCmd p d S = (.error .invalidSecretEncoding, d)) ∨
    (S.badKeyLen = false ∧ S.keyLen ≠ 0#16 ∧ d.head p = false ∧
      hmacCmd p d S = (.error .cryptoBackendFailure, d.skip 1)) ∨
    (S.badKeyLen = false ∧ S.keyLen ≠ 0#16 ∧ d.head p = true ∧
      hmacCmd p d S = (.ok [.digest (hmacSha1 S.keyBytes S.message)], d.skip 1)) := by
  unfold hmacCmd
  cases h1 : S.badKeyLen
  · by_cases h2 : S.keyLen = 0#16
    · simp [h2]
    · cases h3 : d.head p
      · simp [h2, hmacInvoke_false h3]
      · simp [h2, hmacInvoke_true h3]
  · simp

/-- Everything HOTP's function can return (R330). -/
theorem hotpCmd_cases (p : Config.Platform) (d : Draws) (S : Regs) :
    ((S.badDigits || S.badKeyLen) = true ∧ hotpCmd p d S = (.error .invalidParameters, d)) ∨
    ((S.badDigits || S.badKeyLen) = false ∧ S.keyLen = 0#16 ∧
      hotpCmd p d S = (.error .invalidSecretEncoding, d)) ∨
    ((S.badDigits || S.badKeyLen) = false ∧ S.keyLen ≠ 0#16 ∧ d.head p = false ∧
      hotpCmd p d S = (.error .cryptoBackendFailure, d.skip 1)) ∨
    ((S.badDigits || S.badKeyLen) = false ∧ S.keyLen ≠ 0#16 ∧ d.head p = true ∧
      hotpCmd p d S = (.ok (hotpWrites (hotpValue S.keyBytes S.counter S.digits.toNat) S.digits.toNat), d.skip 1)) := by
  unfold hotpCmd
  cases h0 : S.badDigits
  · cases h1 : S.badKeyLen
    · by_cases h2 : S.keyLen = 0#16
      · simp [h2]
      · cases h3 : d.head p
        · simp [h2, hotpCore_false h3]
        · simp [h2, hotpCore_true h3]
    · simp
  · simp

/-- Everything TOTP's function can return (R340). -/
theorem totpCmd_cases (p : Config.Platform) (d : Draws) (S : Regs) :
    ((S.badDigits || S.badTstep || S.badSecretLen) = true ∧ totpCmd p d S = (.error .invalidParameters, d)) ∨
    ((S.badDigits || S.badTstep || S.badSecretLen) = false ∧
      ((base32Decode S.secretText = .error .invalidSecretEncoding ∧
          totpCmd p d S = (.error .invalidSecretEncoding, d)) ∨
        ∃ K, base32Decode S.secretText = .ok K ∧
          ((d.head p = false ∧ totpCmd p d S = (.error .cryptoBackendFailure, d.skip 1)) ∨
            (d.head p = true ∧ totpCmd p d S =
              (.ok (keyWrites K ++ .counter (timeCounter S) ::
                hotpWrites (hotpValue K (timeCounter S) S.digits.toNat) S.digits.toNat), d.skip 1))))) := by
  unfold totpCmd
  cases h0 : S.badDigits
  · cases h1 : S.badTstep
    · cases h2 : S.badSecretLen
      · cases h3 : base32Decode S.secretText with
        | error e => have he := base32Decode_error h3; subst he; simp
        | ok K =>
          cases h4 : d.head p
          · simp [hotpCore_false h4]
          · simp [hotpCore_true h4]
      · simp
    · simp
  · simp

/-- Everything the validators' front end can return (R370). -/
theorem validateFront_cases (S : Regs) (w : Bool) :
    ((S.badDigits || S.badTstep || S.badSecretLen || S.badCandLen || (w && S.badWindow)) = true ∧
      validateFront S w = .error .invalidParameters) ∨
    ((S.badDigits || S.badTstep || S.badSecretLen || S.badCandLen || (w && S.badWindow)) = false ∧
      ((base32Decode S.secretText = .error .invalidSecretEncoding ∧
          validateFront S w = .error .invalidSecretEncoding) ∨
        ∃ K, base32Decode S.secretText = .ok K ∧
          validateFront S w = .ok ⟨K, timeCounter S, S.digits.toNat⟩)) := by
  unfold validateFront
  cases h0 : S.badDigits
  · cases h1 : S.badTstep
    · cases h2 : S.badSecretLen
      · cases h3 : S.badCandLen
        · cases h4 : w && S.badWindow
          · cases h5 : base32Decode S.secretText with
            | error e => have he := base32Decode_error h5; subst he; simp
            | ok K => simp
          · simp
        · simp
      · simp
    · simp
  · simp

theorem all_range_succ (f : Nat → Bool) (n : Nat) :
    (List.range (n + 1)).all f = (f 0 && (List.range n).all fun j => f (j + 1)) := by
  simp [List.range_succ_eq_map, List.all_map, Function.comp_def]

/-- Everything the windowed scan can return (R371, R374). -/
theorem validateScan_eq (p : Config.Platform) (K : List Byte) (n : Nat) (cand : List Byte) (js : List Dword)
    (m : Bool) (d : Draws) :
    (drawsHold p d js.length = true ∧
      validateScan p K n cand js m d =
        (.ok (m || js.any fun j => codeEq cand (hotpValue K j n).text), d.skip js.length)) ∨
    (drawsHold p d js.length = false ∧
      ∃ k, k < js.length ∧ validateScan p K n cand js m d = (.error .cryptoBackendFailure, d.skip (k + 1))) := by
  induction js generalizing m d with
  | nil => left; simp [drawsHold, validateScan]
  | cons j js ih =>
    have hd : drawsHold p d (js.length + 1) = (d.head p && drawsHold p (d.skip 1) js.length) := by
      unfold drawsHold
      rw [all_range_succ]
      simp [skip_skip, Nat.add_comm]
    simp only [List.length_cons, hd]
    cases h : d.head p
    · right
      refine ⟨by simp, 0, by omega, ?_⟩
      simp [validateScan, hotpCore_false h]
    · rcases ih (m || codeEq cand (hotpValue K j n).text) (d.skip 1) with ⟨h1, h2⟩ | ⟨h1, k, hk, h2⟩
      · left
        refine ⟨by simp [h1], ?_⟩
        simp only [validateScan, hotpCore_true h, h2, skip_skip, List.any_cons, Bool.or_assoc, Nat.add_comm]
      · right
        refine ⟨by simp [h1], k + 1, by omega, ?_⟩
        simp only [validateScan, hotpCore_true h, h2, skip_skip, Nat.add_comm 1]

/-- The byte strings a command writes fit their buffers. -/
theorem cmdOf_sized {i : Instr} {p : Config.Platform} {d d' : Draws} {S : Regs} {W : List RegWrite}
    (h : cmdOf i p d S = (.ok W, d')) : ∀ w ∈ W, w.sized := by
  cases i with
  | decode =>
    simp only [cmdOf, decodeCmd, Prod.mk.injEq] at h
    split at h
    · simp at h
    · rename_i hs
      split at h
      · simp at h
      · rename_i K hK
        have hW := h.1
        injection hW with hW
        subst hW
        exact keyWrites_sized (secretKey_length_le (by simpa using hs) hK)
  | encctr =>
    simp only [cmdOf, encctrCmd, Prod.mk.injEq, Except.ok.injEq] at h
    obtain ⟨rfl, _⟩ := h
    simp [RegWrite.sized, encodeCounter, Config.ctrByteCount]
  | hmac =>
    simp only [cmdOf] at h
    rcases hmacCmd_cases p d S with ⟨_, e⟩ | ⟨_, _, e⟩ | ⟨_, _, _, e⟩ | ⟨_, _, _, e⟩ <;> rw [e] at h
    iterate 3 simp at h
    simp only [Prod.mk.injEq, Except.ok.injEq] at h
    obtain ⟨rfl, _⟩ := h
    simp [RegWrite.sized]
  | trunc =>
    simp only [cmdOf, truncCmd, Prod.mk.injEq, Except.ok.injEq] at h
    obtain ⟨rfl, _⟩ := h
    simp [RegWrite.sized]
  | format =>
    simp only [cmdOf, formatCmd, Prod.mk.injEq] at h
    split at h
    · simp at h
    · rename_i hd
      have hW := h.1
      injection hW with hW
      subst hW
      exact codeWrites_sized _ (badDigits_false.mp (by simpa using hd)).2
  | hotp =>
    simp only [cmdOf] at h
    rcases hotpCmd_cases p d S with ⟨_, e⟩ | ⟨_, _, e⟩ | ⟨_, _, _, e⟩ | ⟨hp, _, _, e⟩ <;> rw [e] at h
    iterate 3 simp at h
    simp only [Prod.mk.injEq, Except.ok.injEq] at h
    obtain ⟨rfl, _⟩ := h
    exact hotpWrites_sized _ _ (badDigits_false.mp (Bool.or_eq_false_iff.mp hp).1).2
  | totp =>
    simp only [cmdOf] at h
    rcases totpCmd_cases p d S with ⟨_, e⟩ | ⟨hp, ⟨_, e⟩ | ⟨K, hK, ⟨_, e⟩ | ⟨_, e⟩⟩⟩ <;> rw [e] at h
    iterate 3 simp at h
    simp only [Prod.mk.injEq, Except.ok.injEq] at h
    obtain ⟨rfl, _⟩ := h
    simp only [Bool.or_eq_false_iff] at hp
    intro w hw
    rcases List.mem_append.mp hw with hw | hw
    · exact keyWrites_sized (secretKey_length_le hp.2 hK) w hw
    · rcases List.mem_cons.mp hw with rfl | hw
      · trivial
      · exact hotpWrites_sized _ _ (badDigits_false.mp hp.1.1).2 w hw
  | trem =>
    simp only [cmdOf, tremCmd, Prod.mk.injEq] at h
    split at h
    · simp at h
    · have hW := h.1
      injection hW with hW
      subst hW
      simp [RegWrite.sized]
  | validate =>
    simp only [cmdOf, validateCmd] at h
    split at h
    · simp at h
    · split at h
      · simp at h
      · simp only [Prod.mk.injEq, Except.ok.injEq] at h
        obtain ⟨rfl, _⟩ := h
        simp [RegWrite.sized]
  | validateL =>
    simp only [cmdOf, validateLCmd] at h
    split at h
    · simp at h
    · split at h
      · simp at h
      · simp only [Prod.mk.injEq, Except.ok.injEq] at h
        obtain ⟨rfl, _⟩ := h
        simp [RegWrite.sized]

/-- The table of R401 in the terms of the command functions. -/
theorem paramBad_eq (i : Instr) (S : Regs) :
    paramBad i S =
      match i with
      | .decode => S.badSecretLen
      | .encctr | .trunc => false
      | .hmac => S.badKeyLen
      | .format => S.badDigits
      | .hotp => S.badDigits || S.badKeyLen
      | .totp => S.badDigits || S.badTstep || S.badSecretLen
      | .trem => S.badTstep
      | .validate => S.badDigits || S.badTstep || S.badSecretLen || S.badCandLen || (true && S.badWindow)
      | .validateL => S.badDigits || S.badTstep || S.badSecretLen || S.badCandLen || (false && S.badWindow) := by
  have hd : S.badDigits = (decide (S.digits.toNat = 0) || decide (9 < S.digits.toNat)) := by
    rw [Regs.badDigits]; congr 1; exact decide_eq_decide.mpr (by show _ < 1 ↔ _; omega)
  have ht : S.badTstep = decide (S.tstep.toNat = 0) := by
    simp only [Regs.badTstep]; congr 1; rw [BitVec.toNat_eq]; simp
  have hw : S.badWindow = (decide (S.window.toInt < 0) || decide (16 < S.window.toInt)) := rfl
  have hs : S.badSecretLen = decide (256 < S.secretLen.toNat) := rfl
  have hk : S.badKeyLen = decide (160 < S.keyLen.toNat) := rfl
  have hc : S.badCandLen = decide (16 < S.candLen.toNat) := rfl
  cases i <;> simp [paramBad, hd, ht, hw, hs, hk, hc, Bool.or_assoc]

/-- The buffers a command stores to (R133). -/
def storesTo : Instr → List BufName
  | .decode => [.key]
  | .encctr => [.ctrBytes]
  | .hmac => [.digest]
  | .format => [.code]
  | .hotp => [.ctrBytes, .digest, .code]
  | .totp => [.key, .ctrBytes, .digest, .code]
  | .trunc | .trem | .validate | .validateL => []

/-- A command stores to no buffer but those of R133. -/
theorem cmdOf_buffers {i : Instr} {p : Config.Platform} {d d' : Draws} {S : Regs} {W : List RegWrite}
    (h : cmdOf i p d S = (.ok W, d')) : ∀ w ∈ W, ∀ b, w.buffer = some b → b ∈ storesTo i := by
  cases i with
  | decode =>
    simp only [cmdOf, decodeCmd] at h
    split at h
    · simp at h
    · split at h
      · simp at h
      · simp at h; obtain ⟨rfl, _⟩ := h; simp [keyWrites, RegWrite.buffer, storesTo]
  | encctr => simp [cmdOf, encctrCmd] at h; obtain ⟨rfl, _⟩ := h; simp [RegWrite.buffer, storesTo]
  | hmac =>
    simp only [cmdOf] at h
    rcases hmacCmd_cases p d S with ⟨_, e⟩ | ⟨_, _, e⟩ | ⟨_, _, _, e⟩ | ⟨_, _, _, e⟩ <;> rw [e] at h <;> simp at h
    obtain ⟨rfl, _⟩ := h; simp [RegWrite.buffer, storesTo]
  | trunc => simp [cmdOf, truncCmd] at h; obtain ⟨rfl, _⟩ := h; simp [RegWrite.buffer]
  | format =>
    simp only [cmdOf, formatCmd] at h
    split at h
    · simp at h
    · simp at h; obtain ⟨rfl, _⟩ := h; simp [codeWrites, RegWrite.buffer, storesTo]
  | hotp =>
    simp only [cmdOf] at h
    rcases hotpCmd_cases p d S with ⟨_, e⟩ | ⟨_, _, e⟩ | ⟨_, _, _, e⟩ | ⟨_, _, _, e⟩ <;> rw [e] at h <;> simp at h
    obtain ⟨rfl, _⟩ := h; simp [hotpWrites, RegWrite.buffer, storesTo]
  | totp =>
    simp only [cmdOf] at h
    rcases totpCmd_cases p d S with ⟨_, e⟩ | ⟨hp, ⟨_, e⟩ | ⟨K, hK, ⟨_, e⟩ | ⟨_, e⟩⟩⟩ <;> rw [e] at h <;> simp at h
    obtain ⟨rfl, _⟩ := h; simp [keyWrites, hotpWrites, RegWrite.buffer, storesTo]
  | trem =>
    simp only [cmdOf, tremCmd] at h
    split at h
    · simp at h
    · simp at h; obtain ⟨rfl, _⟩ := h; simp [RegWrite.buffer]
  | validate =>
    simp only [cmdOf, validateCmd] at h
    split at h
    · simp at h
    · split at h <;> simp at h
      obtain ⟨rfl, _⟩ := h; simp [RegWrite.buffer]
  | validateL =>
    simp only [cmdOf, validateLCmd] at h
    split at h
    · simp at h
    · split at h <;> simp at h
      obtain ⟨rfl, _⟩ := h; simp [RegWrite.buffer]

end Sys2Proof.Machine
end

