-- ==== Sys2Proof/Laws/PerInstr.lean ====
section
/-! SUPPORT. The statements made per instruction, one lemma for each constructor of Instr. -/

/-- A command is well formed; its word is the one R132 writes out, with RES = 0 and L = 1 for VALIDATE.L alone; the
decoder gives it back, whether as a word or as a row of spec/opcode_table.json (R130, R132, R133). -/
def Sys2Proof.Laws.CommandWord.Statement (i : Sys2Proof.Instr) : Prop :=
  i.wf = true ∧ Sys2Proof.encode i = Sys2Proof.Machine.tableWord i ∧
  Sys2Proof.reservedField (Sys2Proof.encode i) = 0#23 ∧
  (Sys2Proof.legacyField (Sys2Proof.encode i) = true ↔ i = .validateL) ∧
  Sys2Proof.decode (Sys2Proof.encode i) = .ok i ∧
  Sys2Proof.decodeTableWord 32 (Sys2Proof.encode i).toNat = some i

theorem Sys2Proof.Laws.CommandWord.decode : Sys2Proof.Laws.CommandWord.Statement .decode := by
  unfold Sys2Proof.Laws.CommandWord.Statement; decide

theorem Sys2Proof.Laws.CommandWord.encctr : Sys2Proof.Laws.CommandWord.Statement .encctr := by
  unfold Sys2Proof.Laws.CommandWord.Statement; decide

theorem Sys2Proof.Laws.CommandWord.hmac : Sys2Proof.Laws.CommandWord.Statement .hmac := by
  unfold Sys2Proof.Laws.CommandWord.Statement; decide

theorem Sys2Proof.Laws.CommandWord.trunc : Sys2Proof.Laws.CommandWord.Statement .trunc := by
  unfold Sys2Proof.Laws.CommandWord.Statement; decide

theorem Sys2Proof.Laws.CommandWord.format : Sys2Proof.Laws.CommandWord.Statement .format := by
  unfold Sys2Proof.Laws.CommandWord.Statement; decide

theorem Sys2Proof.Laws.CommandWord.hotp : Sys2Proof.Laws.CommandWord.Statement .hotp := by
  unfold Sys2Proof.Laws.CommandWord.Statement; decide

theorem Sys2Proof.Laws.CommandWord.totp : Sys2Proof.Laws.CommandWord.Statement .totp := by
  unfold Sys2Proof.Laws.CommandWord.Statement; decide

theorem Sys2Proof.Laws.CommandWord.trem : Sys2Proof.Laws.CommandWord.Statement .trem := by
  unfold Sys2Proof.Laws.CommandWord.Statement; decide

theorem Sys2Proof.Laws.CommandWord.validate : Sys2Proof.Laws.CommandWord.Statement .validate := by
  unfold Sys2Proof.Laws.CommandWord.Statement; decide

theorem Sys2Proof.Laws.CommandWord.validateL : Sys2Proof.Laws.CommandWord.Statement .validateL := by
  unfold Sys2Proof.Laws.CommandWord.Statement; decide
end

