-- ==== Sys2Proof/Tests/Slice0.lean ====
section
/-! SUPPORT. Tests on single steps, with expected values from spec/ (the words of R132, the vectors of
95_test_vectors.md, the layouts of 10_state.md), the smoke test of WellFormed, and one witness for the hypotheses of
each statement. -/

set_option Elab.async false

namespace Sys2Proof.Tests

open Sys2Proof Sys2Proof.Machine

/-! ## Helpers -/

/-- The bytes of an ASCII text (R14). -/
def ascii (s : String) : List Byte := s.toList.map fun c => BitVec.ofNat 8 c.toNat

/-- The bytes two hexadecimal digits at a time spell. -/
def hex (s : String) : List Byte := hexBytes (ascii s)

/-- An idle machine with the registers given, at base 0, on which every draw is true. -/
def idleOn (r : Regs) : State := { State.reset with regs := r, platform := ⟨0, true, none⟩ }

/-- A machine with word w in flight on the registers given, and the turns given to come. -/
def busyOn (w : Word) (r : Regs) (script : List Turn) : State := { (idleOn r).accept w with script := script }

/-- The registers after a command runs on an idle machine. -/
def after (i : Instr) (r : Regs) : Regs :=
  match exec i (idleOn r) with
  | .next t => t.regs
  | .fault _ => Regs.reset
  | .refused _ => Regs.reset

/-- The state after a command runs on an idle machine whose draws come from the tape given. -/
def afterDraws (tape : List Bool) (i : Instr) (r : Regs) : State :=
  match exec i { State.reset with regs := r, draws := ⟨tape, 0⟩ } with
  | .next t => t
  | .fault _ => State.reset
  | .refused _ => State.reset

/-- The state after one step. -/
def stepped (s : State) : State :=
  match step s with
  | .next t => t
  | .fault _ => State.reset
  | .refused _ => State.reset

/-- Registers with a secret text. -/
def withSecret (t : List Byte) : Regs :=
  { Regs.reset.setBuf .secret t with secretLen := BitVec.ofNat 16 t.length }

/-- Registers with a raw key. -/
def withKey (k : List Byte) : Regs := { Regs.reset.setBuf .key k with keyLen := BitVec.ofNat 16 k.length }

/-- The source's secret, as Base32 text and as key. -/
def sourceSecret : List Byte := ascii "GEZDGNBVGY3TQOJQGEZDGNBVGY3TQOJQ"
def sourceKey : List Byte := ascii "12345678901234567890"

/-! ## Decoding: the words of the table in R132, and the illegal words of R134 -/

theorem test_decode_unit_words :
    [0x00000001#32, 0x00000002#32, 0x00000003#32, 0x00000004#32, 0x00000005#32].map decode =
      [.ok .decode, .ok .encctr, .ok .hmac, .ok .trunc, .ok .format] := by decide

theorem test_decode_composite_words :
    [0x00000006#32, 0x00000007#32, 0x00000008#32, 0x00000009#32, 0x00000109#32].map decode =
      [.ok .hotp, .ok .totp, .ok .trem, .ok .validate, .ok .validateL] := by decide

/-- V-ENC-1 to V-ENC-4, and a VALIDATE.L word with bit 9 set. -/
theorem test_decode_illegal_words :
    [0x00000000#32, 0x0000000A#32, 0x00000107#32, 0x80000001#32, 0x00000309#32, 0x000000FF#32].map decode =
      [.error .opZero, .error .opUnassigned, .error .legacyFlag, .error .reservedBits, .error .reservedBits,
       .error .opUnassigned] := by decide

theorem test_decodeTableWord : decodeTableWord 32 0x109 = some .validateL ∧ decodeTableWord 32 10 = none := by decide

/-! ## WellFormed: ill-formed terms are refused (R101, R137, R138) -/

theorem smoke_access_size : Access.permitted 0x1000 ⟨0x1010, 2, .read⟩ = false := by decide
theorem smoke_access_alignment : Access.permitted 0x1000 ⟨0x1011, 4, .read⟩ = false := by decide
theorem smoke_access_below : Access.permitted 0x1000 ⟨0x0FFC, 4, .read⟩ = false := by decide
theorem smoke_access_above : Access.permitted 0x1000 ⟨0x2000, 4, .read⟩ = false := by decide
theorem smoke_access_legal : Access.permitted 0x1000 ⟨0x1FFC, 4, .write 0#32⟩ = true := by decide
theorem smoke_buffer_word : HostLine.wf (.wrBuf .code 3 0#32) = false ∧ HostLine.wf (.rdBuf .digest 5) = false := by decide
theorem smoke_loadtxt_secret : HostLine.wf (.loadtxt .secret (List.replicate 257 0x41#8)) = false := by decide +kernel
theorem smoke_loadtxt_cand : HostLine.wf (.loadtxt .cand (ascii "12345678901234567")) = false := by decide
theorem smoke_loadtxt_key_odd : HostLine.wf (.loadtxt .key (ascii "123")) = false := by decide
theorem smoke_loadtxt_key_long : HostLine.wf (.loadtxt .key (List.replicate 322 0x30#8)) = false := by decide +kernel
theorem smoke_loadtxt_key_hex : HostLine.wf (.loadtxt .key (ascii "3G")) = false := by decide
theorem smoke_loadtxt_buffer : HostLine.wf (.loadtxt .digest []) = false := by decide

/-! ## Commands -/

/-- V-B32-5: three characters, padding count not checked. -/
theorem test_decode_padding : (after .decode (withSecret (ascii "MY="))).keyBytes = [0x66#8] ∧
    statusWord false (after .decode (withSecret (ascii "MY="))) = 0x02#32 := by decide +kernel

/-- V-B32-8: non-zero tail bits are discarded. -/
theorem test_decode_tail : (after .decode (withSecret (ascii "AB"))).keyBytes = [0x00#8] := by decide +kernel

/-- V-B32-15: an inner `=` is InvalidSecretEncoding. -/
theorem test_decode_inner_padding : statusWord false (after .decode (withSecret (ascii "A=B"))) = 0x106#32 := by
  decide +kernel

/-- V-CTR-4. -/
theorem test_encctr :
    (after .encctr { Regs.reset with counterHi := 0x01020304#32, counterLo := 0x05060708#32 }).message =
      hex "0102030405060708" := by decide +kernel

/-- V-SHA-1. -/
theorem test_sha1_abc : sha1 (ascii "abc") = hex "a9993e364706816aba3e25717850c26c9cd0d89d" := by decide +kernel

/-- V-HMAC-12: a key of 65 bytes is hashed first. -/
theorem test_hmac_long_key : (after .hmac (withKey (List.replicate 65 0xAA#8))).digestBuf =
    hex "861119f681ce0d31da6e970af1fd8f84695cd224" := by decide +kernel

/-- V-HMAC-16: KEY_LEN 161 is InvalidParameters. -/
theorem test_hmac_key_len : statusWord false (after .hmac { Regs.reset with keyLen := 161#16 }) = 0x306#32 := by
  decide +kernel

/-- V-TRN-4: bytes 15 to 18 are read and the top bit is masked. -/
theorem test_trunc :
    (after .trunc (Regs.reset.setBuf .digest (hex "000000000000000000000000000000810203040f"))).trunc = 0x01020304#31 ∧
    (after .trunc (Regs.reset.setBuf .digest (hex "000000000000000000000000000000810203040f"))).offset = 15#4 := by
  decide +kernel

/-- V-FMT-6: a leading zero is kept. -/
theorem test_format :
    (after .format { Regs.reset with trunc := 907081804#31, digits := 8#8 }).buf .code 12 =
      ascii "07081804" ++ [0#8, 0#8, 0#8, 0#8] ∧
    statusWord false (after .format { Regs.reset with trunc := 907081804#31, digits := 8#8 }) = 0x12#32 := by
  decide +kernel

/-- V-FMT-8: DIGITS 10 is InvalidParameters. -/
theorem test_format_digits : statusWord false (after .format { Regs.reset with digits := 10#8 }) = 0x306#32 := by
  decide +kernel

/-- V-HOTP-10: the greatest counter, a leading zero kept. -/
theorem test_hotp :
    (after .hotp { withKey sourceKey with counterHi := 0xFFFFFFFF#32, counterLo := 0xFFFFFFFF#32 }).buf .code 6 =
      ascii "094451" := by decide +kernel

/-- V-HOTP-11: DIGITS 0 comes before KEY_LEN 0. -/
theorem test_hotp_priority : statusWord false (after .hotp { Regs.reset with digits := 0#8 }) = 0x306#32 := by
  decide +kernel

/-- V-SRC-1 with P1's end state: CODE and COUNTER_LO. -/
theorem test_totp :
    let r := after .totp { withSecret sourceSecret with nowLo := 59#32, digits := 8#8 }
    r.buf .code 8 = ascii "94287082" ∧ r.counterLo = 1#32 ∧ r.trunc = 0x41397EEA#31 ∧ r.keyBytes = sourceKey := by
  decide +kernel

/-- V-TOTP-10: TSTEP 0 comes before the secret. -/
theorem test_totp_priority :
    statusWord false (after .totp { withSecret (ascii "not-base32-!!!") with tstep := 0#32 }) = 0x306#32 := by
  decide +kernel

/-- V-TREM-7. -/
theorem test_trem :
    (after .trem { Regs.reset with nowHi := 0xFFFFFFFF#32, nowLo := 0xFFFFFFFF#32, tstep := 0xFFFFFFFE#32 }).trem =
      0xFFFFFFFB#32 := by decide +kernel

/-- V-TREM-2: an exact boundary gives a full interval. -/
theorem test_trem_boundary : (after .trem { Regs.reset with nowLo := 90#32 }).trem = 30#32 := by decide +kernel

/-- The registers of V-VAL-6: at counter 0 the candidate is the code of counter 1. -/
def regsVal6 : Regs := { (withSecret sourceSecret).setBuf .cand (ascii "287082") with candLen := 6#16 }

/-- V-VAL-6: the next counter matches under VALIDATE and no counter is tried below 0. -/
theorem test_validate : statusWord false (after .validate regsVal6) = 0x0A#32 := by decide +kernel

/-- V-VAL-12: a negative WINDOW is InvalidParameters. -/
theorem test_validate_window :
    statusWord false (after .validate { Regs.reset with window := 0xFFFFFFFF#32 }) = 0x306#32 := by decide +kernel

/-- V-VAL-6: VALIDATE.L compares the current counter alone. -/
theorem test_validateL : statusWord false (after .validateL regsVal6) = 0x02#32 := by decide +kernel

/-- V-VAL-15: CAND_LEN 17 is InvalidParameters. -/
theorem test_validateL_cand : statusWord false (after .validateL { Regs.reset with candLen := 17#16 }) = 0x306#32 := by
  decide +kernel

/-- V-HMAC-17: a false draw is CryptoBackendFailure and the digest stays. -/
theorem test_draw_false :
    let t := afterDraws [false] .hmac (withKey sourceKey)
    statusWord false t.regs = 0x206#32 ∧ t.regs.digestBuf = List.replicate 20 0#8 ∧ t.draws = ⟨[], 1⟩ := by
  decide +kernel

/-! ## The window -/

/-- V-BUS-1: bits 31:8 of DIGITS are not stored. -/
theorem test_write_digits :
    hostRead (stepped { idleOn Regs.reset with script := [writeTurn (idleOn Regs.reset) 0x010 0x107#32] })
      (.reg .digits) = 0x07#32 := by decide +kernel

/-- V-BUS-4: a write while BUSY is dropped and OVR set. -/
theorem test_write_busy :
    let t := stepped (busyOn 8#32 Regs.reset [writeTurn (idleOn Regs.reset) 0x028 90#32])
    hostRead t (.reg .nowLo) = 0#32 ∧ hostRead t (.reg .status) = 0x21#32 := by decide +kernel

/-- V-BUS-5: a CTRL write of 3 while BUSY is a soft reset. -/
theorem test_soft_reset :
    let t := stepped (busyOn 8#32 { Regs.reset with digits := 8#8 } [writeTurn (idleOn Regs.reset) 0x004 3#32])
    hostRead t (.reg .status) = 0#32 ∧ hostRead t (.reg .ctrl) = 0#32 ∧ hostRead t (.reg .digits) = 6#32 := by
  decide +kernel

/-- V-BUS-2: a 16-bit access is a bus error. -/
theorem test_bus_error :
    (stepped { idleOn Regs.reset with script := [.access ⟨0x010, 2, .read⟩] }).resp = some ⟨true, some 0#32⟩ := by
  decide +kernel

/-- P1's first bus write: four characters, the first in bits 31:24. -/
theorem test_loadtxt :
    (expandLine 0 (.loadtxt .secret sourceSecret)).head? = some (.access ⟨0x100, 4, .write 0x47455A44#32⟩) := by
  decide +kernel

/-- R450: a CMD write while the reset input is held starts nothing, and the release leaves the reset values. -/
theorem test_reset_held :
    let s := stepped (busyOn 7#32 { Regs.reset with digits := 8#8 } [.resetAssert, writeTurn (idleOn Regs.reset) 0x008 8#32,
      .resetRelease])
    (stepped s).seq = .idle ∧ (stepped s).resetHeld = true ∧ (stepped (stepped s)).regs = Regs.reset ∧
      (stepped (stepped s)).resetHeld = false := by decide +kernel

/-- R471: a turn of the platform left over keeps no run open, a turn of the host does. -/
theorem test_ended :
    ({ idleOn Regs.reset with script := [.resetAssert] } : State).ended = true ∧
    ({ idleOn Regs.reset with script := [.resetAssert, .wait] } : State).ended = false := by decide

/-- An access outside the window stops (log 7). -/
theorem test_outside_window :
    step { idleOn Regs.reset with script := [.access ⟨0x1000, 4, .read⟩] } = .fault (.outsideWindow 0x1000) := rfl

/-- A word of the table placed by withFetchWord is completed by the very next step: DONE is 1. -/
theorem test_withFetchWord : (stepped (State.reset.withFetchWord 32 8)).regs.trem = 30#32 ∧
    (stepped (State.reset.withFetchWord 32 8)).regs.done = true := by decide +kernel

/-! ## Witnesses: for each statement with hypotheses, inputs that meet all of them -/

/-- exec answers a next state on every state. -/
theorem exec_answers (i : Instr) (s : State) : ∃ t, exec i s = .next t := ⟨_, exec_eq i s⟩

/-- A key of n bytes, the two lengths at which HMAC and HOTP still run (R401). -/
def keyOf (n : Nat) : Regs := withKey (List.replicate n 0xAA#8)

/-- Registers on which TOTP and both validators run: the least secret, DIGITS 1, TSTEP 1, WINDOW 0. -/
def regsLow : Regs := { withSecret (ascii "AB") with digits := 1#8, tstep := 1#32, window := 0#32 }

/-- Registers on which they run with every parameter at its greatest: 256 characters, DIGITS 9, TSTEP and NOW all ones,
WINDOW 16, CAND_LEN 16. -/
def regsHigh : Regs :=
  { Regs.reset with
    secretLen := 256#16, mem := ⟨(List.range 256).map fun i => (0x100 + i, 0x37#8)⟩, digits := 9#8, tstep := 0xFFFFFFFF#32, nowHi := 0xFFFFFFFF#32, nowLo := 0xFFFFFFFF#32, window := 16#32,
    candLen := 16#16 }

/-- The greatest secret decodes to the greatest key. -/
theorem regsHigh_key : base32Decode regsHigh.secretText = .ok (List.replicate 160 0xFF#8) := by decide +kernel

/-- The four clauses: no turn left, an engine turn, a wait, a wait for irq. -/
theorem witness_StepRunsTheDecodedCommand :
    decode 0x109#32 = .ok .validateL ∧
    (∀ x ∈ [[], [Turn.engine], [Turn.wait], [Turn.waitIrq]],
      (busyOn 0x109#32 regsLow x).seq = .busy 0x109#32 regsLow ∧ (busyOn 0x109#32 regsLow x).script = x ∧
      (busyOn 0x109#32 regsLow x).regs.done = false ∧ (busyOn 0x109#32 regsLow x).irq = false) := by decide +kernel

theorem witness_PlacedWordRunsAtTheNextStep : decodeTableWord 32 0x109 = some .validateL ∧
    decodeTableWord 8 1 = some .decode := by decide

theorem witness_IdleExecIsAcceptThenCompletion : (idleOn regsLow).seq = .idle := rfl

/-- An illegal word, and a legal one with each of the errors it can end in and with none. -/
theorem witness_ErrorCodeFollowsThePriority :
    (busyOn 0x0A#32 regsLow [.engine]).seq = .busy 0x0A#32 regsLow ∧ decode 0x0A#32 = .error .opUnassigned ∧
    (busyOn 6#32 (keyOf 1) [.engine]).script = .engine :: [] ∧ decode 6#32 = .ok .hotp ∧
    expectedError .hotp (keyOf 1) ⟨0, true, none⟩ ⟨[], 0⟩ = none ∧
    expectedError .hotp (keyOf 161) ⟨0, true, none⟩ ⟨[], 0⟩ = some .invalidParameters ∧
    expectedError .hotp (keyOf 0) ⟨0, true, none⟩ ⟨[], 0⟩ = some .invalidSecretEncoding ∧
    expectedError .hotp (keyOf 1) ⟨0, false, none⟩ ⟨[false], 0⟩ = some .cryptoBackendFailure := by decide +kernel

theorem witness_ErrorsChangeOnlyStatusAndTheCode :
    ∃ t, exec .hotp (busyOn 6#32 (keyOf 0) []) = .next t ∧ t.regs.err = true := ⟨_, exec_eq _ _, by decide +kernel⟩

theorem witness_IllegalWordsEndInIllegalCommand :
    (∀ i, (0x309#32 : Word) ≠ tableWord i) ∧ (busyOn 0x309#32 regsLow [.engine]).seq = .busy 0x309#32 regsLow ∧
    (busyOn 0x309#32 regsLow [.engine]).script = .engine :: [] :=
  ⟨fun i => by cases i <;> decide, rfl, rfl⟩

theorem witness_CommandsNeverChangeTheInputs : ∃ t, exec .totp (idleOn regsLow) = .next t := exec_answers _ _

/-- A command none of the clauses excepts, ending without error. -/
theorem witness_ResultsChangeOnlyUnderTheirCommands :
    ∃ t, exec .validateL (idleOn regsLow) = .next t ∧ t.regs.err = false :=
  ⟨_, exec_eq _ _, by decide +kernel⟩

/-- The least and the greatest secret. -/
theorem witness_DecodeCommitsTheKey :
    (busyOn 1#32 regsLow []).seq = .busy 1#32 regsLow ∧ regsLow.secretLen.toNat ≤ 256 ∧
    base32Decode regsLow.secretText = .ok [0x00#8] ∧ regsHigh.secretLen.toNat = 256 ∧
    base32Decode regsHigh.secretText = .ok (List.replicate 160 0xFF#8) :=
  ⟨rfl, by decide, by decide +kernel, rfl, regsHigh_key⟩

/-- One text for each clause: a byte outside the alphabet; no symbol, and one symbol, which make no byte; two symbols,
which make one and leave bits over. -/
theorem witness_Base32DecodeIsTheBitStream :
    (stripPadding (ascii "A1")).mapM (fun c => alphabetValue (foldCase c)) = none ∧
    (stripPadding (ascii "==")).mapM (fun c => alphabetValue (foldCase c)) = some [] ∧
    (stripPadding (ascii "B=")).mapM (fun c => alphabetValue (foldCase c)) = some [1] ∧ 5 * [1].length / 8 = 0 ∧
    (stripPadding (ascii "aB")).mapM (fun c => alphabetValue (foldCase c)) = some [0, 1] ∧
    5 * [0, 1].length / 8 ≠ 0 := by decide +kernel

/-- The bytes at both ends of the ranges of R200 and R202 and just outside them. -/
theorem witness_Base32FoldsAsciiLettersOnly :
    [0x60#8, 0x61#8, 0x7A#8, 0x7B#8].map foldCase = [0x60#8, 0x41#8, 0x5A#8, 0x7B#8] ∧
    [0x40#8, 0x41#8, 0x5A#8, 0x5B#8, 0x31#8, 0x32#8, 0x37#8, 0x38#8].map alphabetValue =
      [none, some 0, some 25, none, none, some 26, some 31, none] := by decide

theorem witness_Base32StripsTrailingPaddingOnly : ∃ c ∈ ascii "=B", c ≠ 0x3D#8 := by decide

theorem witness_EncctrStoresTheCounter :
    (busyOn 2#32 regsLow []).seq = .busy 2#32 regsLow ∧
    (0#64 : Dword).toNat = regsLow.counterHi.toNat * 2 ^ 32 + regsLow.counterLo.toNat := by decide +kernel

theorem witness_Sha1ScheduleFollowsTheRecurrence : (List.replicate 16 (0#32 : Word)).length = 16 := rfl

theorem witness_HmacHashesLongKeysFirst :
    64 < (List.replicate 65 (0xAA#8 : Byte)).length ∧ ([0xAA#8] : List Byte).length + 63 ≤ 64 ∧
    (List.replicate 64 (0xAA#8 : Byte)).length + 0 ≤ 64 := by decide

/-- KEY_LEN at both ends of its range. -/
theorem witness_HmacStoresTheDigest :
    (busyOn 3#32 (keyOf 1) []).seq = .busy 3#32 (keyOf 1) ∧ 1 ≤ (keyOf 1).keyLen.toNat ∧
    (keyOf 160).keyLen.toNat = 160 ∧
    (busyOn 3#32 (keyOf 1) []).draws.head (busyOn 3#32 (keyOf 1) []).platform = true := by decide +kernel

theorem witness_TruncReadsFourDigestBytes : (busyOn 4#32 regsLow []).seq = .busy 4#32 regsLow := rfl

theorem witness_FormatCommitsTheCode :
    (busyOn 5#32 regsLow []).seq = .busy 5#32 regsLow ∧ regsLow.digits.toNat = 1 ∧ regsHigh.digits.toNat = 9 :=
  ⟨rfl, rfl, rfl⟩

theorem witness_FormattedCodeReadsBackAsTheNumber : 0 < 10 ^ 0 ∧ 999999999 < 10 ^ 9 := by decide

theorem witness_HotpCommitsTheCode :
    ∃ (c : Dword) (h : HotpResult),
      (busyOn 6#32 (keyOf 1) []).seq = .busy 6#32 (keyOf 1) ∧ 1 ≤ (keyOf 1).digits.toNat ∧
      (keyOf 1).digits.toNat ≤ 9 ∧ 1 ≤ (keyOf 1).keyLen.toNat ∧ (keyOf 1).keyLen.toNat ≤ 160 ∧
      (busyOn 6#32 (keyOf 1) []).draws.head (busyOn 6#32 (keyOf 1) []).platform = true ∧
      c.toNat = (keyOf 1).counterHi.toNat * 2 ^ 32 + (keyOf 1).counterLo.toNat ∧
      h = hotpValue ((keyOf 1).buf .key (keyOf 1).keyLen.toNat) c (keyOf 1).digits.toNat :=
  ⟨0#64, _, rfl, by decide, by decide, by decide, by decide, rfl, by decide, rfl⟩

theorem witness_HotpEqualsTheUnitChain :
    (idleOn (keyOf 160)).seq = .idle ∧ 1 ≤ (idleOn (keyOf 160)).regs.digits.toNat ∧
    (idleOn (keyOf 160)).regs.digits.toNat ≤ 9 ∧ 1 ≤ (idleOn (keyOf 160)).regs.keyLen.toNat ∧
    (idleOn (keyOf 160)).regs.keyLen.toNat ≤ 160 ∧
    (idleOn (keyOf 160)).draws.head (idleOn (keyOf 160)).platform = true := by decide +kernel

theorem witness_TotpCommitsTheCode :
    ∃ (c : Dword) (h : HotpResult),
      (busyOn 7#32 regsHigh []).seq = .busy 7#32 regsHigh ∧ 1 ≤ regsHigh.digits.toNat ∧ regsHigh.digits.toNat ≤ 9 ∧
      regsHigh.tstep ≠ 0#32 ∧ regsHigh.secretLen.toNat ≤ 256 ∧
      base32Decode regsHigh.secretText = .ok (List.replicate 160 0xFF#8) ∧
      (busyOn 7#32 regsHigh []).draws.head (busyOn 7#32 regsHigh []).platform = true ∧
      c.toNat = (regsHigh.nowHi.toNat * 2 ^ 32 + regsHigh.nowLo.toNat) / regsHigh.tstep.toNat ∧
      h = hotpValue (List.replicate 160 0xFF#8) c regsHigh.digits.toNat :=
  ⟨0x100000001#64, _, rfl, by decide +kernel, by decide +kernel, by decide +kernel, by decide +kernel, regsHigh_key, rfl,
    by decide +kernel, rfl⟩

theorem witness_TotpEqualsDecodeThenHotp :
    ∃ s : State, s.seq = .idle ∧ 1 ≤ s.regs.digits.toNat ∧ s.regs.digits.toNat ≤ 9 ∧ s.regs.tstep ≠ 0#32 ∧
      s.regs.secretLen.toNat ≤ 256 ∧ base32Decode s.regs.secretText = .ok [0x00#8] ∧
      s.draws.head s.platform = true ∧ (0#64 : Dword).toNat = counterAt s.regs ∧
      s.resetHeld = false ∧ s.script = [writeTurn s 0x030 ((0#64 : Dword).extractLsb' 0 32), writeTurn s 0x034 ((0#64 : Dword).extractLsb' 32 32)] :=
  ⟨{ idleOn regsLow with script := [writeTurn (idleOn regsLow) 0x030 0#32, writeTurn (idleOn regsLow) 0x034 0#32] },
    by decide +kernel⟩

/-- TSTEP at both ends of its range. -/
theorem witness_TremCommitsTheSecondsLeft :
    (busyOn 8#32 regsLow []).seq = .busy 8#32 regsLow ∧ regsLow.tstep = 1#32 ∧ regsHigh.tstep ≠ 0#32 :=
  ⟨rfl, rfl, by decide⟩

theorem witness_TremMarksTheNextCounterStep :
    regsHigh.tstep ≠ 0#32 ∧ ∃ t, exec .trem (busyOn 8#32 regsHigh []) = .next t := ⟨by decide, exec_answers _ _⟩

/-- WINDOW 0 at counter 0, and WINDOW 16 with every length at its greatest. -/
theorem witness_ValidateScansTheWindow :
    (∀ r ∈ [regsLow, regsHigh],
      (busyOn 9#32 r []).seq = .busy 9#32 r ∧ paramBad .validate r = false ∧
      drawsHold (busyOn 9#32 r []).platform (busyOn 9#32 r []).draws (drawsNeeded .validate r) = true) ∧
    base32Decode regsLow.secretText = .ok [0x00#8] ∧
    base32Decode regsHigh.secretText = .ok (List.replicate 160 0xFF#8) :=
  ⟨by decide +kernel, by decide +kernel, regsHigh_key⟩

/-- VALIDATE.L runs although WINDOW is out of range. -/
theorem witness_ValidateLegacyComparesOneCounter :
    (busyOn 0x109#32 { regsLow with window := 0xFFFFFFFF#32 } []).seq =
      .busy 0x109#32 { regsLow with window := 0xFFFFFFFF#32 } ∧
    paramBad .validateL { regsLow with window := 0xFFFFFFFF#32 } = false ∧
    base32Decode ({ regsLow with window := 0xFFFFFFFF#32 } : Regs).secretText = .ok [0x00#8] ∧
    (busyOn 0x109#32 regsLow []).draws.head (busyOn 0x109#32 regsLow []).platform = true := by decide +kernel

/-- The window's ends: at counter 0, at counter 2^64 - 1, and with w = 0. -/
theorem witness_WindowCountersAreTheClippedInterval :
    windowCounters 0#64 1 = [0#64, 1#64] ∧ windowCounters (BitVec.allOnes 64) 0 = [BitVec.allOnes 64] ∧
    (windowCounters (BitVec.allOnes 64) 16).length = 17 ∧ (windowCounters 16#64 16).length = 33 ∧ 16 ≤ 16 := by
  decide +kernel

theorem witness_WindowZeroEqualsLegacy :
    (busyOn 9#32 regsLow []).seq = .busy 9#32 regsLow ∧ regsLow.window = 0#32 := ⟨rfl, rfl⟩

/-- The registers of V-TOTP-1, and the same with its code copied to CAND and WINDOW at its greatest. -/
def regsTotp : Regs := withSecret sourceSecret
def regsTotpCand : Regs := { regsTotp.setBuf .cand (ascii "755224") with candLen := 6#16, window := 16#32 }

theorem witness_TotpCodeValidates :
    (∃ t, exec .totp (busyOn 7#32 regsTotp []) = .next t ∧
      (t.regs.err = false ∧ regsTotpCand.candLen.toNat = t.regs.codeLen.toNat ∧
        regsTotpCand.candText = t.regs.buf .code t.regs.codeLen.toNat)) ∧
    (regsTotpCand.digits = regsTotp.digits ∧ regsTotpCand.tstep = regsTotp.tstep ∧
      regsTotpCand.nowHi = regsTotp.nowHi ∧ regsTotpCand.nowLo = regsTotp.nowLo ∧
      regsTotpCand.secretLen = regsTotp.secretLen ∧ regsTotpCand.secretText = regsTotp.secretText ∧
      0 ≤ regsTotpCand.window.toInt ∧ regsTotpCand.window.toInt ≤ 16 ∧
      drawsHold (busyOn 9#32 regsTotpCand []).platform (busyOn 9#32 regsTotpCand []).draws
        (drawsNeeded .validate regsTotpCand) = true ∧
      (busyOn 0x109#32 regsTotpCand []).draws.head (busyOn 0x109#32 regsTotpCand []).platform = true) :=
  ⟨⟨_, exec_eq _ _, by decide +kernel⟩, by decide +kernel⟩

/-- Two machines that differ in KEY, COUNTER and a byte of SECRET past SECRET_LEN. -/
theorem witness_CompositesReadOnlyTheirInputs :
    let U : Regs := { regsLow.setBuf .secret (ascii "ABZ") with keyLen := 3#16, counterLo := 9#32 }
    (busyOn 7#32 regsLow []).draws = (busyOn 7#32 U []).draws ∧
    (busyOn 7#32 regsLow []).platform = (busyOn 7#32 U []).platform ∧
    regsLow.digits = U.digits ∧ regsLow.tstep = U.tstep ∧ regsLow.nowHi = U.nowHi ∧ regsLow.nowLo = U.nowLo ∧
    regsLow.secretLen = U.secretLen ∧ regsLow.secretText = U.secretText ∧ regsLow.candLen = U.candLen ∧
    regsLow.candText = U.candText ∧ regsLow.window = U.window ∧ regsLow ≠ U := by decide +kernel

/-- A machine that holds the code "7" of V-FMT-4, with TREM in flight. -/
def codeHeldBusy : State :=
  busyOn 8#32 { Regs.reset with codeValid := true, codeLen := 1#4, codeBin := 7#32, mem := ⟨[(0x080, 0x37#8)]⟩ } []

theorem codeHeldBusy_inv : codeHeldBusy.Inv where
  memWf := by decide +kernel
  memInMap := by decide +kernel
  errReport := by decide +kernel
  errcodeRange := by decide +kernel
  matchClean := by decide +kernel
  noCode := fun h => by cases h
  code := fun _ => by
    refine ⟨by decide, by decide, by decide +kernel, by decide +kernel, by decide, fun a ha _ => ?_⟩
    have hne : (0x080 : Nat) ≠ a := by
      rintro rfl
      exact absurd ha (by decide)
    show readCells [(0x080, 0x37#8)] a = 0#8
    simp only [readCells, if_neg hne]
  heldAtReset := fun h => by cases h
  busyStatus := fun _ _ _ => ⟨rfl, rfl, rfl, rfl⟩
  busySnapshot := fun cur S h => by
    injection h with _ h
    subst h
    rfl

theorem witness_EveryStepKeepsTheInvariant : codeHeldBusy.Inv ∧ ∃ t, step codeHeldBusy = .next t :=
  ⟨codeHeldBusy_inv, _, exec_eq .trem codeHeldBusy⟩

theorem witness_BusyReadsShowTheAcceptedValues :
    codeHeldBusy.Inv ∧ (∃ cur S, codeHeldBusy.seq = .busy cur S) ∧ Slot.reg .codeLen ≠ .reg .status ∧
    Slot.reg .codeLen ≠ .reg .ctrl := ⟨codeHeldBusy_inv, ⟨_, _, rfl⟩, by decide, by decide⟩

/-- An idle machine with one turn to come. -/
def idleWith (x : Turn) : State := { idleOn Regs.reset with script := [x] }

/-- A write at base 0. -/
def wr (off : Nat) (v : Word) : Turn := .access ⟨off, 4, .write v⟩

theorem witness_ReadsHaveNoSideEffects :
    (idleWith (.access ⟨0x00C, 4, .read⟩)).script = .access ⟨0x00C, 4, .read⟩ :: [] ∧
    ∃ t, step (idleWith (.access ⟨0x00C, 4, .read⟩)) = .next t := ⟨rfl, _, rfl⟩

/-- A 16-bit access, and a misaligned one at the last offset. -/
theorem witness_BusErrorsChangeNoEngineState :
    (0x010 < 4096 ∧ (2 ≠ 4 ∨ 0x010 % 4 ≠ 0) ∧
      (idleWith (.access ⟨0x010, 2, .read⟩)).script = .access ⟨0 + 0x010, 2, .read⟩ :: []) ∧
    (0xFFF < 4096 ∧ (4 ≠ 4 ∨ 0xFFF % 4 ≠ 0) ∧
      (idleWith (.access ⟨0xFFF, 4, .write 1#32⟩)).script = .access ⟨0 + 0xFFF, 4, .write 1#32⟩ :: []) := by decide

/-- A register with an unnamed bit, and a CTRL write while BUSY. -/
theorem witness_RegisterWritesStoreTheirNamedBits :
    ((idleWith (wr 0x040 0xFFFFFFFF#32)).resetHeld = false ∧ (idleWith (wr 0x040 0xFFFFFFFF#32)).seq = .idle ∧
      isRWReg .trunc = true ∧ (idleWith (wr 0x040 0xFFFFFFFF#32)).script =
        writeTurn (idleWith (wr 0x040 0xFFFFFFFF#32)) (tableOffset .trunc) 0xFFFFFFFF#32 :: []) ∧
    (busyOn 8#32 Regs.reset [wr 0x004 0xFFFFFFFD#32]).resetHeld = false ∧ (0xFFFFFFFD#32 : Word).getLsbD 1 = false ∧
    (busyOn 8#32 Regs.reset [wr 0x004 0xFFFFFFFD#32]).script =
      writeTurn (busyOn 8#32 Regs.reset [wr 0x004 0xFFFFFFFD#32]) 0x004 0xFFFFFFFD#32 :: [] :=
  ⟨⟨rfl, rfl, rfl, rfl⟩, rfl, rfl, rfl⟩

/-- The first and the last word of KEY. -/
theorem witness_BufferWritesArePackedBigEndian :
    ∀ k ∈ [0, 39], (idleWith (wr (0x200 + 4 * k) 1#32)).resetHeld = false ∧
      (idleWith (wr (0x200 + 4 * k) 1#32)).seq = .idle ∧ isRWBuf .key = true ∧ k < (tableBuffer .key).2 ∧
      (idleWith (wr (0x200 + 4 * k) 1#32)).script =
        writeTurn (idleWith (wr (0x200 + 4 * k) 1#32)) ((tableBuffer .key).1 + 4 * k) 1#32 :: [] := by decide

/-- A protected offset of each kind: CMD, a register, the last word of a buffer. -/
theorem witness_WritesWhileBusyAreDropped :
    protectedOffset 0x008 ∧ protectedOffset 0x040 ∧ protectedOffset 0x29C ∧
    (busyOn 8#32 Regs.reset [wr 0x29C 1#32]).resetHeld = false ∧
    (busyOn 8#32 Regs.reset [wr 0x29C 1#32]).seq = .busy 8#32 Regs.reset ∧
    (busyOn 8#32 Regs.reset [wr 0x29C 1#32]).script =
      writeTurn (busyOn 8#32 Regs.reset [wr 0x29C 1#32]) 0x29C 1#32 :: [] :=
  ⟨.inl rfl, .inr (.inl ⟨.trunc, rfl, rfl⟩), .inr (.inr ⟨.key, 39, rfl, by decide, rfl⟩), rfl, rfl, rfl⟩

/-- An RO register, the last word of CODE, the first and the last reserved offset, while IDLE and while BUSY. -/
theorem witness_ReadOnlyAndReservedWritesAreIgnored :
    (inertOffset 0x000 ∧ inertOffset 0x088 ∧ inertOffset 0x04C ∧ reservedOffset 0x04C = true ∧
      reservedOffset 0xFFC = true) ∧
    (idleWith (wr 0x088 1#32)).script = writeTurn (idleWith (wr 0x088 1#32)) 0x088 1#32 :: [] ∧
    (busyOn 8#32 Regs.reset [.access ⟨0xFFC, 4, .read⟩]).script =
      readTurn (busyOn 8#32 Regs.reset [.access ⟨0xFFC, 4, .read⟩]) 0xFFC :: [] :=
  ⟨⟨.inl (by decide), .inl (by decide), .inr (by decide), by decide, by decide⟩, rfl, rfl⟩

theorem witness_AcceptTakesTheSnapshot :
    (idleWith (wr 0x008 7#32)).resetHeld = false ∧ (idleWith (wr 0x008 7#32)).seq = .idle ∧
    (idleWith (wr 0x008 7#32)).script = writeTurn (idleWith (wr 0x008 7#32)) 0x008 7#32 :: [] := ⟨rfl, rfl, rfl⟩

theorem witness_StatusWritesClearDoneAndOverrun :
    (busyOn 8#32 Regs.reset [wr 0x00C 0x22#32]).resetHeld = false ∧
    (busyOn 8#32 Regs.reset [wr 0x00C 0x22#32]).script =
      writeTurn (busyOn 8#32 Regs.reset [wr 0x00C 0x22#32]) 0x00C 0x22#32 :: [] := ⟨rfl, rfl⟩

/-- Registers with DONE, OVR and IRQ_EN at 1. -/
def regsDone : Regs := { Regs.reset with done := true, ovr := true, irqEn := true }

/-- A STATUS write that clears both, and an accept that clears DONE. -/
theorem witness_DoneAndOverrunClearOnlyAtTheirEvents :
    (let s := { idleOn regsDone with script := [wr 0x00C 0x22#32] }
     s.regs.done = true ∧ s.regs.ovr = true ∧ (stepped s).regs.done = false ∧ (stepped s).regs.ovr = false ∧
     step s = .next (stepped s)) ∧
    (let s := { idleOn regsDone with script := [wr 0x008 0#32] }
     (stepped s).regs.done = false ∧ step s = .next (stepped s)) := ⟨⟨rfl, rfl, rfl, rfl, rfl⟩, rfl, rfl⟩

/-- A completion that sets DONE and ERR, and a dropped write that sets OVR. -/
theorem witness_StatusFlagsAreSetOnlyAtTheirEvents :
    (let s := busyOn 0#32 Regs.reset []
     s.regs.done = false ∧ s.regs.err = false ∧ (stepped s).regs.done = true ∧ (stepped s).regs.err = true ∧
     step s = .next (stepped s)) ∧
    (let s := busyOn 8#32 Regs.reset [wr 0x010 1#32]
     s.regs.ovr = false ∧ (stepped s).regs.ovr = true ∧ step s = .next (stepped s)) :=
  ⟨⟨rfl, rfl, rfl, rfl, rfl⟩, rfl, rfl, rfl⟩

/-- State.reset, and the state a soft reset of a BUSY engine leaves. -/
theorem witness_ResetValuesAsTheHostReadsThem :
    (State.reset.regs = State.reset.regs ∧ State.reset.seq = State.reset.seq) ∧
    (stepped (busyOn 8#32 regsDone [wr 0x004 3#32])).regs = State.reset.regs ∧
    (stepped (busyOn 8#32 regsDone [wr 0x004 3#32])).seq = State.reset.seq := ⟨⟨rfl, rfl⟩, rfl, rfl⟩

theorem witness_SoftAndHardwareResetAgree :
    (busyOn 8#32 regsDone [.resetAssert]).script = .resetAssert :: [] ∧ (3#32 : Word).getLsbD 1 = true ∧
    (busyOn 8#32 regsDone [wr 0x004 3#32]).resetHeld = false ∧
    (busyOn 8#32 regsDone [wr 0x004 3#32]).script =
      writeTurn (busyOn 8#32 regsDone [wr 0x004 3#32]) 0x004 3#32 :: [] := ⟨rfl, rfl, rfl, rfl⟩

/-- A completion, each of the four host or platform events, and a step that changes irq. -/
theorem witness_InterruptFollowsDoneAndEnable :
    (∀ cur ∈ [8#32, 0#32], (busyOn cur regsDone []).seq ≠ .idle ∧
      ∃ t, completion (busyOn cur regsDone []) = .next t) ∧
    (∀ v ∈ [1#32, 3#32], (idleWith (wr 0x004 v)).resetHeld = false ∧ (idleWith (wr 0x004 v)).script = writeTurn (idleWith (wr 0x004 v)) 0x004 v :: []) ∧
    ((2#32 : Word).getLsbD 1 = true ∧ (idleWith (wr 0x00C 2#32)).resetHeld = false ∧ (idleWith (wr 0x00C 2#32)).script =
      writeTurn (idleWith (wr 0x00C 2#32)) 0x00C 2#32 :: []) ∧
    ((idleWith (wr 0x008 8#32)).resetHeld = false ∧ (idleWith (wr 0x008 8#32)).seq = .idle ∧ (idleWith (wr 0x008 8#32)).script =
      writeTurn (idleWith (wr 0x008 8#32)) 0x008 8#32 :: []) ∧
    (idleWith .resetAssert).script = .resetAssert :: [] ∧
    (let s := busyOn 0#32 { Regs.reset with irqEn := true } []
     step s = .next (stepped s) ∧ (stepped s).irq ≠ s.irq) :=
  ⟨fun cur _ => ⟨nofun, by
      cases h : decode cur with
      | ok i => simpa only [completion, busyOn, State.accept, h] using exec_answers i _
      | error e => exact ⟨(busyOn cur regsDone []).fail .illegalCommand, by simp only [completion, busyOn, State.accept, h]⟩⟩,
    fun _ _ => ⟨rfl, rfl⟩, ⟨rfl, rfl, rfl⟩, ⟨rfl, rfl, rfl⟩, rfl, rfl, by decide +kernel⟩

theorem witness_CommandsInFlightEnd : (busyOn 8#32 Regs.reset [.wait]).seq = .busy 8#32 Regs.reset := rfl

/-- A wait after an accept, with a turn of the platform left or none, and a wait with no command in flight. -/
theorem witness_WaitObservesTheCompletion :
    ((busyOn 8#32 Regs.reset [.wait]).seq = .busy 8#32 Regs.reset ∧
      (busyOn 8#32 Regs.reset [.wait]).regs.done = false ∧
      (busyOn 8#32 Regs.reset [.wait]).script = .wait :: [] ∧
      (busyOn 8#32 Regs.reset [.wait, .resetAssert]).script = .wait :: [.resetAssert] ∧
      [Turn.resetAssert].any Turn.isHost = false) ∧
    (idleWith .wait).seq = .idle ∧ (idleWith .wait).regs.done = false ∧ (idleWith .wait).script = .wait :: [] :=
  ⟨⟨rfl, rfl, rfl, rfl, rfl⟩, rfl, rfl, rfl⟩

/-- The empty text, a text that fills CAND, and a key of two bytes. -/
theorem witness_LoadtxtFillsBufferAndLength :
    (idleOn Regs.reset).resetHeld = false ∧ (idleOn Regs.reset).seq = .idle ∧
    HostLine.wf (.loadtxt .secret []) = true ∧ lenReg .secret = some .secretLen ∧
    HostLine.wf (.loadtxt .cand (ascii "1234567890123456")) = true ∧ lenReg .cand = some .candLen ∧
    HostLine.wf (.loadtxt .key (ascii "0fA9")) = true ∧ lenReg .key = some .keyLen ∧
    ({ idleOn Regs.reset with script := expandLine 0 (.loadtxt .key (ascii "0fA9")) ++ [] } : State).script =
      expandLine (idleOn Regs.reset).platform.engineBase (.loadtxt .key (ascii "0fA9")) ++ [] := by decide +kernel

theorem witness_StepsKeepThePlatformParameters : ∃ t, step codeHeldBusy = .next t :=
  ⟨_, exec_eq .trem codeHeldBusy⟩

/-- A register, and the first and the last word of a buffer. -/
theorem witness_ReadsReturnTheAddressedValue :
    (idleWith (.access ⟨0x048, 4, .read⟩)).script =
      readTurn (idleWith (.access ⟨0x048, 4, .read⟩)) (tableOffset .codeLen) :: [] ∧
    ∀ k ∈ [0, 63], k < (tableBuffer .secret).2 ∧ (idleWith (.access ⟨0x100 + 4 * k, 4, .read⟩)).script =
      readTurn (idleWith (.access ⟨0x100 + 4 * k, 4, .read⟩)) ((tableBuffer .secret).1 + 4 * k) :: [] := by decide

/-- A machine whose reset input is held, with the turns given to come. -/
def heldWith (script : List Turn) : State := { idleOn Regs.reset with resetHeld := true, script := script }

theorem heldWith_inv (script : List Turn) : (heldWith script).Inv where
  memWf := ⟨.nil, nofun⟩
  memInMap := nofun
  errReport := ⟨nofun, fun h => absurd rfl h⟩
  errcodeRange := Nat.zero_le _
  matchClean := nofun
  noCode := fun _ => ⟨rfl, rfl, fun _ _ => rfl⟩
  code := nofun
  heldAtReset := fun _ => ⟨rfl, rfl⟩
  busyStatus := nofun
  busySnapshot := nofun

/-- A CMD write at a held engine, and the release. -/
theorem witness_HeldResetKeepsTheResetState :
    ((heldWith [wr 0x008 8#32]).Inv ∧ (heldWith [wr 0x008 8#32]).resetHeld = true ∧
      (∃ t, step (heldWith [wr 0x008 8#32]) = .next t) ∧
      (heldWith [wr 0x008 8#32]).script = writeTurn (heldWith [wr 0x008 8#32]) 0x008 8#32 :: []) ∧
    (heldWith [.resetRelease]).script = .resetRelease :: [] := ⟨⟨heldWith_inv _, rfl, ⟨_, rfl⟩, rfl⟩, rfl⟩

end Sys2Proof.Tests
end

section
/-! STATUS as a word, bit by bit, and the values the host reads off an engine at its reset registers (R40, R41, R72).
Settles StatusWordLayout and ResetValuesAsTheHostReadsThem. -/

namespace Sys2Proof.Machine

/-! ## The fields of STATUS (R40) -/

section
variable (busy : Bool) (r : Regs)

/-- The low byte holds the six flags, every higher bit belongs to ERRCODE or is 0. -/
theorem statusWord_getLsbD (i : Nat) :
    (statusWord busy r).getLsbD i =
      if i < 8 then [busy, r.done, r.err, r.matched, r.codeValid, r.ovr].getD i false
      else r.errcode.getLsbD (i - 8) := by
  show BitVec.getLsbD (_ ++ _ ++ _ ++ _ ++ _ ++ _ ++ _ ++ _ ++ _ : BitVec (20 + 4 + 2 + 1 + 1 + 1 + 1 + 1 + 1)) i = _
  simp only [BitVec.getLsbD_append]
  match i with
  | 0 | 1 | 2 | 3 | 4 | 5 | 6 | 7 => simp
  | n + 8 =>
    by_cases hn : n < 4
    · simp [hn]
    · have past : r.errcode.getLsbD n = false := BitVec.getLsbD_of_ge _ _ (Nat.le_of_not_lt hn)
      simp [hn, past]

/-- Bits 7:6 read 0. -/
theorem statusWord_bits_6_7 : (statusWord busy r).extractLsb' 6 2 = 0#2 := by
  ext i hi
  have low : 6 + i < 8 := by omega
  simp [statusWord_getLsbD, low]

/-- Bits 11:8 are ERRCODE. -/
theorem statusWord_errcode : (statusWord busy r).extractLsb' 8 4 = r.errcode := by
  ext i hi
  simp [statusWord_getLsbD, hi]

/-- Bits 31:12 read 0. -/
theorem statusWord_bits_12_31 : (statusWord busy r).extractLsb' 12 20 = 0#20 := by
  ext i hi
  have high : ¬ 12 + i < 8 := by omega
  have past : 4 ≤ 12 + i - 8 := by omega
  simp [statusWord_getLsbD, high, BitVec.getLsbD_of_ge, past]

end

/-- R41: BUSY is read off the sequencer. -/
theorem busy_iff_seq_busy (s : State) : s.busy = true ↔ ∃ cur S, s.seq = .busy cur S := by
  cases h : s.seq with
  | idle => simp [busy_of_seq_idle h]
  | busy cur S => simp [busy_of_seq_busy h]

/-- Settles O48, field by field; BUSY is the sequencer's state by `busy_iff_seq_busy`. -/
theorem statusWordLayout : Obligations.StatusWordLayout := by
  rintro s w rfl
  have bit (i : Nat) := statusWord_getLsbD s.busy s.regs i
  have busyBit : (statusWord s.busy s.regs).getLsbD 0 = true ↔ ∃ cur S, s.seq = .busy cur S := by
    rw [bit 0]
    exact busy_iff_seq_busy s
  exact ⟨busyBit, bit 1, bit 2, bit 3, bit 4, bit 5,
    statusWord_bits_6_7 _ _, statusWord_errcode _ _, statusWord_bits_12_31 _ _⟩

/-! ## What the host reads off the reset registers (R72) -/

/-- R72's register values, as an idle engine reads them: ID and the three defaults are the only ones that are not 0. -/
theorem readReg_reset (r : RegName) :
    readReg false Regs.reset r =
      match r with
      | .id => 0x4F545031#32
      | .digits => 6#32
      | .tstep => 30#32
      | .window => 1#32
      | _ => 0#32 := by
  cases r <;> decide

/-- A reset lists no byte, so every byte reads 0. -/
@[simp] theorem read_reset (a : Nat) : Regs.reset.mem.read a = 0#8 := rfl

@[simp] theorem readWord_reset (b : BufName) (k : Nat) : readWord Regs.reset b k = 0#32 :=
  readWord_eq fun i _ => by simp

/-- Settles O52: what the host reads depends on the registers and the sequencer alone, here those of the reset. -/
theorem resetValuesAsTheHostReadsThem : Obligations.ResetValuesAsTheHostReadsThem := by
  intro s (hregs : s.regs = Regs.reset) (hseq : s.seq = .idle)
  refine ⟨fun r => ?_, fun b k => ?_, hseq, ?_⟩
  · rw [hostRead, hregs, busy_of_seq_idle hseq]
    exact readReg_reset r
  · rw [hostRead, hregs, readWord_reset]
  · rw [State.irq, hregs]
    rfl

end Sys2Proof.Machine
end

section
/-! The command words: the decoder reads three fields that make up the whole word, so each command has one word only
(R130-R132). Settles LegalWordsAreExactlyTheTen. -/

namespace Sys2Proof

/-- R130: RES, L and OP are disjoint and cover the word, so they determine it. -/
theorem word_eq_fields (w : Word) :
    w = (reservedField w ++ BitVec.ofBool (legacyField w) ++ opField w : BitVec 32) := by
  ext i hi
  rw [BitVec.getElem_append]
  split
  case isTrue => simp [opField, BitVec.getLsbD_eq_getElem hi]
  case isFalse =>
    rw [BitVec.getElem_append]
    split
    case isTrue atL =>
      obtain rfl : i = 8 := by omega
      simp [legacyField]
    case isFalse =>
      have offset : 9 + (i - 8 - 1) = i := by omega
      simp [reservedField, offset, BitVec.getLsbD_eq_getElem hi]

/-- R132: with L = 0, an OP value names a command only if it is that command's OP, and the command has L = 0. -/
theorem fields_of_opTable {op : BitVec 8} {i : Instr} (h : opTable op.toNat = .ok i) : i.legacy = 0#1 ∧ op = i.op := by
  unfold opTable at h
  split at h <;> cases h
  all_goals exact ⟨rfl, BitVec.eq_of_toNat_eq ‹_›⟩

/-- R130, R132: a word that decodes to a command has RES = 0 and the command's L and OP. -/
theorem fields_of_decode {w : Word} {i : Instr} (h : decode w = .ok i) :
    reservedField w = 0#23 ∧ BitVec.ofBool (legacyField w) = i.legacy ∧ opField w = i.op := by
  unfold decode at h
  split at h
  case isTrue => cases h
  case isFalse resZero =>
    refine ⟨not_not.mp resZero, ?_⟩
    split at h
    case isTrue lSet =>
      split at h
      case isTrue opNine =>
        cases h
        exact ⟨congrArg BitVec.ofBool lSet, opNine⟩
      case isFalse => cases h
    case isFalse lClear =>
      obtain ⟨legacy, op⟩ := fields_of_opTable h
      rw [legacy, Bool.eq_false_iff.mpr lClear]
      exact ⟨rfl, op⟩

/-- R132, the exact match: the only word that decodes to a command is the encoder's word of it. -/
theorem encode_of_decode {w : Word} {i : Instr} (h : decode w = .ok i) : encode i = w := by
  obtain ⟨res, legacy, op⟩ := fields_of_decode h
  rw [word_eq_fields w, res, legacy, op, encode]

/-- The laws of the ten command words, for every command. -/
theorem commandWord_statement (i : Instr) : Laws.CommandWord.Statement i := by
  cases i with
  | decode => exact Laws.CommandWord.decode
  | encctr => exact Laws.CommandWord.encctr
  | hmac => exact Laws.CommandWord.hmac
  | trunc => exact Laws.CommandWord.trunc
  | format => exact Laws.CommandWord.format
  | hotp => exact Laws.CommandWord.hotp
  | totp => exact Laws.CommandWord.totp
  | trem => exact Laws.CommandWord.trem
  | validate => exact Laws.CommandWord.validate
  | validateL => exact Laws.CommandWord.validateL

/-- The encoder gives the word R132's table writes out. -/
theorem encode_eq_tableWord (i : Instr) : encode i = Machine.tableWord i := by
  obtain ⟨-, word, -⟩ := commandWord_statement i
  exact word

/-- The decoder gives a command back from the encoder's word of it. -/
@[simp] theorem decode_encode (i : Instr) : decode (encode i) = .ok i := by
  obtain ⟨-, -, -, -, back, -⟩ := commandWord_statement i
  exact back

/-- Decoding and encoding are inverse: a word decodes to a command exactly when it is the encoder's word of it. -/
theorem decode_eq_ok_iff {w : Word} {i : Instr} : decode w = .ok i ↔ w = encode i := by
  constructor
  · intro h
    exact (encode_of_decode h).symm
  · rintro rfl
    exact decode_encode i

/-- Settles O2: the fields of a word that decodes are those of the command's word, so it is that word; the table's words
are the encoder's. -/
theorem legalWordsAreExactlyTheTen : Obligations.LegalWordsAreExactlyTheTen := by
  intro w i
  rw [← encode_eq_tableWord i]
  exact ⟨decode_eq_ok_iff, decode_encode i⟩

end Sys2Proof
end

section
/-! The Base32 decoder against R200 to R204: the padding strip, the alphabet and the case folding byte by byte, and the
loop as a bit stream of symbols cut into bytes. Settles Base32FoldsAsciiLettersOnly, Base32StripsTrailingPaddingOnly and
Base32DecodeIsTheBitStream. -/

namespace Sys2Proof.Machine

/-! ## The decoder by the outcome of its loop (R208) -/

theorem base32Decode_of_loop_error {s : List Byte} {e : ErrCode} (h : base32Loop (stripPadding s) 0 0 [] = .error e) :
    base32Decode s = .error e := by
  simp only [base32Decode, h]

theorem base32Decode_of_loop_ok {s key : List Byte} (h : base32Loop (stripPadding s) 0 0 [] = .ok key) :
    base32Decode s = if key.length = 0 then .error .invalidSecretEncoding else .ok key := by
  simp only [base32Decode, h]

/-! ## Symbols (R200, R202) -/

/-- The value of a symbol in either case, `none` outside the alphabet: what the loop looks up for each byte. -/
def symbolValue (c : Byte) : Option Nat := alphabetValue (foldCase c)

theorem foldCase_toNat_of_lower {c : Byte} (h : 0x61 ≤ c.toNat ∧ c.toNat ≤ 0x7A) :
    (foldCase c).toNat = c.toNat - 0x20 := by
  have lower : 0x61#8 ≤ c ∧ c ≤ 0x7A#8 := h
  rw [foldCase, if_pos lower]
  exact BitVec.toNat_sub_of_le (Nat.le_trans (by decide) h.1)

theorem foldCase_of_not_lower {c : Byte} (h : ¬(0x61 ≤ c.toNat ∧ c.toNat ≤ 0x7A)) : foldCase c = c := if_neg h

/-- Folding leaves no lower-case letter. -/
theorem foldCase_not_lower (c : Byte) : ¬(0x61 ≤ (foldCase c).toNat ∧ (foldCase c).toNat ≤ 0x7A) := by
  by_cases h : 0x61 ≤ c.toNat ∧ c.toNat ≤ 0x7A
  · rw [foldCase_toNat_of_lower h]
    omega
  · rwa [foldCase_of_not_lower h]

@[simp] theorem foldCase_foldCase (c : Byte) : foldCase (foldCase c) = foldCase c :=
  foldCase_of_not_lower (foldCase_not_lower c)

/-- No letter folds to the padding byte. -/
theorem foldCase_eq_pad_iff {c : Byte} : foldCase c = 0x3D#8 ↔ c = 0x3D#8 := by
  by_cases h : 0x61 ≤ c.toNat ∧ c.toNat ≤ 0x7A
  · simp only [← BitVec.toNat_inj, foldCase_toNat_of_lower h, BitVec.toNat_ofNat]
    omega
  · rw [foldCase_of_not_lower h]

/-- R200 on numbers. -/
theorem alphabetValue_eq (c : Byte) :
    alphabetValue c =
      if 0x41 ≤ c.toNat ∧ c.toNat ≤ 0x5A then some (c.toNat - 0x41)
      else if 0x32 ≤ c.toNat ∧ c.toNat ≤ 0x37 then some (c.toNat - 0x32 + 26) else none := rfl

/-- A symbol's value has 5 bits. -/
theorem symbolValue_lt {c : Byte} {v : Nat} (h : symbolValue c = some v) : v < 32 := by
  rw [symbolValue, alphabetValue_eq] at h
  split at h
  case isTrue letter => cases h; omega
  case isFalse =>
    split at h
    case isTrue digit => cases h; omega
    case isFalse => cases h

@[simp] theorem symbolValue_pad : symbolValue 0x3D#8 = none := by decide

/-- A text has symbol values when its first byte and the rest of it have. -/
theorem symbols_cons_eq_some_iff {c : Byte} {cs : List Byte} {vs : List Nat} :
    (c :: cs).mapM symbolValue = some vs ↔
      ∃ v, symbolValue c = some v ∧ ∃ ws, cs.mapM symbolValue = some ws ∧ v :: ws = vs := by
  simp [List.mapM_cons, Option.bind_eq_some_iff]

theorem symbols_length {cs : List Byte} {vs : List Nat} (h : cs.mapM symbolValue = some vs) :
    vs.length = cs.length := by
  induction cs generalizing vs with
  | nil => cases h; rfl
  | cons c cs ih =>
    obtain ⟨v, -, ws, hws, rfl⟩ := symbols_cons_eq_some_iff.mp h
    rw [List.length_cons, List.length_cons, ih hws]

theorem symbols_inner_pad (p q : List Byte) : (p ++ 0x3D#8 :: q).mapM symbolValue = none := by
  simp [List.mapM_append, List.mapM_cons]

/-! ## The padding strip (R201) -/

theorem stripPadding_eq_rdropWhile (s : List Byte) : stripPadding s = s.rdropWhile (· == 0x3D#8) := rfl

theorem stripPadding_eq_nil_iff {s : List Byte} : stripPadding s = [] ↔ ∀ c ∈ s, c = 0x3D#8 := by
  simp [stripPadding_eq_rdropWhile, List.rdropWhile_eq_nil_iff]

/-- The strip passes to the front of a text only when the rest is padding. -/
theorem stripPadding_append (p q : List Byte) :
    stripPadding (p ++ q) = if stripPadding q = [] then stripPadding p else p ++ stripPadding q := by
  simp only [stripPadding, List.reverse_append, List.dropWhile_append, List.isEmpty_iff, List.reverse_eq_nil_iff]
  split <;> simp

theorem stripPadding_append_padding (s : List Byte) (k : Nat) :
    stripPadding (s ++ List.replicate k 0x3D#8) = stripPadding s := by
  have padding : stripPadding (List.replicate k 0x3D#8) = [] :=
    stripPadding_eq_nil_iff.mpr fun _ hc => List.eq_of_mem_replicate hc
  rw [stripPadding_append, if_pos padding]

/-- A `=` that another byte follows stays. -/
theorem stripPadding_inner_pad (p : List Byte) {q : List Byte} (h : ∃ c ∈ q, c ≠ 0x3D#8) :
    stripPadding (p ++ 0x3D#8 :: q) = p ++ 0x3D#8 :: stripPadding q := by
  have stays : ¬ stripPadding q = [] := by
    rw [stripPadding_eq_nil_iff]
    push Not
    exact h
  rw [List.append_cons, stripPadding_append, if_neg stays, ← List.append_cons]

theorem stripPadding_map_foldCase (s : List Byte) : stripPadding (s.map foldCase) = (stripPadding s).map foldCase := by
  have same : ((· == 0x3D#8) ∘ foldCase) = (· == 0x3D#8) := by
    funext c
    exact Bool.eq_iff_iff.mpr (by simpa using foldCase_eq_pad_iff)
  rw [stripPadding, stripPadding, ← List.map_reverse, List.dropWhile_map, same, List.map_reverse]

/-! ## The loop on folded texts, and on texts with a byte outside the alphabet (R202, R204) -/

/-- The loop folds each byte itself. -/
theorem base32Loop_map_foldCase (cs : List Byte) (acc nb : Nat) (out : List Byte) :
    base32Loop (cs.map foldCase) acc nb out = base32Loop cs acc nb out := by
  induction cs generalizing acc nb out with
  | nil => rfl
  | cons c cs ih => simp only [List.map_cons, base32Loop, foldCase_foldCase, ih]

theorem base32Decode_map_foldCase (s : List Byte) : base32Decode (s.map foldCase) = base32Decode s := by
  simp only [base32Decode, stripPadding_map_foldCase, base32Loop_map_foldCase]

theorem base32Loop_cons_of_none {c : Byte} (h : symbolValue c = none) (cs : List Byte) (acc nb : Nat)
    (out : List Byte) : base32Loop (c :: cs) acc nb out = .error .invalidSecretEncoding := by
  rw [symbolValue] at h
  simp only [base32Loop, h]

/-- One symbol: its bits go to the end of the register, and a whole byte at the front goes out. -/
theorem base32Loop_cons_of_some {c : Byte} {v : Nat} (h : symbolValue c = some v) (cs : List Byte) (acc nb : Nat)
    (out : List Byte) :
    base32Loop (c :: cs) acc nb out =
      if 8 ≤ nb + 5 then
        base32Loop cs ((acc <<< 5 ||| v) &&& (1 <<< (nb + 5 - 8) - 1)) (nb + 5 - 8)
          (out ++ [BitVec.ofNat 8 ((acc <<< 5 ||| v) >>> (nb + 5 - 8) &&& 0xFF)])
      else base32Loop cs (acc <<< 5 ||| v) (nb + 5) out := by
  rw [symbolValue] at h
  simp only [base32Loop, h]

theorem base32Loop_of_symbols_none {cs : List Byte} (h : cs.mapM symbolValue = none) (acc nb : Nat) (out : List Byte) :
    base32Loop cs acc nb out = .error .invalidSecretEncoding := by
  induction cs generalizing acc nb out with
  | nil => cases h
  | cons c cs ih =>
    cases hv : symbolValue c with
    | none => exact base32Loop_cons_of_none hv cs acc nb out
    | some v =>
      have rest : cs.mapM symbolValue = none :=
        Option.eq_none_iff_forall_ne_some.mpr fun ws hws =>
          Option.eq_none_iff_forall_ne_some.mp h (v :: ws) (symbols_cons_eq_some_iff.mpr ⟨v, hv, ws, hws, rfl⟩)
      rw [base32Loop_cons_of_some hv]
      split <;> exact ih rest _ _ _

/-- R204 (a). -/
theorem base32Decode_of_symbols_none {s : List Byte} (h : (stripPadding s).mapM symbolValue = none) :
    base32Decode s = .error .invalidSecretEncoding :=
  base32Decode_of_loop_error (base32Loop_of_symbols_none h 0 0 [])

/-! ## The loop as a bit stream (R203) -/

/-- The loop's bits so far, as a number: the bytes put out, then the nb bits of the register. -/
def bitsTaken (out : List Byte) (nb acc : Nat) : Nat := beVal out * 2 ^ nb + acc

/-- A symbol appends its 5 bits. -/
theorem shiftLeft_or_symbol (acc : Nat) {v : Nat} (h : v < 32) : acc <<< 5 ||| v = acc * 32 + v := by
  rw [← Nat.shiftLeft_add_eq_or_of_lt (i := 5) h, Nat.shiftLeft_eq]

theorem bitsTaken_symbol (out : List Byte) (nb acc v : Nat) :
    bitsTaken out (nb + 5) (acc * 32 + v) = bitsTaken out nb acc * 32 + v := by
  simp only [bitsTaken]
  ring

/-- A whole byte that goes out moves from the register to the bytes and is otherwise kept. -/
theorem bitsTaken_byte (out : List Byte) {k x : Nat} (h : x < 2 ^ (k + 8)) :
    bitsTaken (out ++ [BitVec.ofNat 8 (x >>> k &&& 0xFF)]) k (x &&& (1 <<< k - 1)) = bitsTaken out (k + 8) x := by
  have byte : (BitVec.ofNat 8 (x >>> k &&& 0xFF)).toNat = x / 2 ^ k := by
    have fits : x / 2 ^ k < 2 ^ 8 := Nat.div_lt_of_lt_mul (by rwa [← Nat.pow_add])
    rw [Nat.and_two_pow_sub_one_eq_mod _ 8, Nat.shiftRight_eq_div_pow, Nat.mod_eq_of_lt fits, BitVec.toNat_ofNat,
      Nat.mod_eq_of_lt fits]
  rw [bitsTaken, bitsTaken, beVal_append_singleton, byte, Nat.one_shiftLeft, Nat.and_two_pow_sub_one_eq_mod]
  calc (beVal out * 256 + x / 2 ^ k) * 2 ^ k + x % 2 ^ k
      = beVal out * 2 ^ (k + 8) + (2 ^ k * (x / 2 ^ k) + x % 2 ^ k) := by ring
    _ = beVal out * 2 ^ (k + 8) + x := by rw [Nat.div_add_mod]

/-- One symbol as a step of the loop: the register stays below 8 bits, and the bits taken grow by the symbol's 5. -/
theorem base32Loop_cons_bits {c : Byte} {v nb acc : Nat} (hv : symbolValue c = some v) (hnb : nb < 8)
    (hacc : acc < 2 ^ nb) (cs out : List Byte) :
    ∃ acc' out', base32Loop (c :: cs) acc nb out = base32Loop cs acc' ((nb + 5) % 8) out' ∧
      acc' < 2 ^ ((nb + 5) % 8) ∧ bitsTaken out' ((nb + 5) % 8) acc' = bitsTaken out nb acc * 32 + v := by
  have v5 := symbolValue_lt hv
  have full : acc * 32 + v < 2 ^ (nb + 5) := by
    rw [Nat.pow_add]
    omega
  rw [base32Loop_cons_of_some hv, shiftLeft_or_symbol acc v5]
  by_cases byte : 8 ≤ nb + 5
  case pos =>
    have left : (nb + 5) % 8 = nb + 5 - 8 := by omega
    have whole : nb + 5 - 8 + 8 = nb + 5 := by omega
    rw [if_pos byte, left]
    refine ⟨_, _, rfl, ?_, ?_⟩
    · rw [Nat.one_shiftLeft, Nat.and_two_pow_sub_one_eq_mod]
      exact Nat.mod_lt _ (Nat.two_pow_pos _)
    · rw [bitsTaken_byte out (whole ▸ full), whole, bitsTaken_symbol]
  case neg =>
    rw [if_neg byte, Nat.mod_eq_of_lt (by omega)]
    exact ⟨_, _, rfl, full, bitsTaken_symbol out nb acc v⟩

/-- The number of the stream that has `bits` and then the symbols' 5-bit values, first symbol most significant. -/
def streamFrom (bits : Nat) (vs : List Nat) : Nat := vs.foldl (fun acc v => acc * 32 + v) bits

/-- The loop puts out the bits taken and the stream after them, without the bits past the last whole byte. -/
theorem base32Loop_bits {cs : List Byte} {vs : List Nat} {acc nb : Nat} (out : List Byte)
    (hvs : cs.mapM symbolValue = some vs) (hnb : nb < 8) (hacc : acc < 2 ^ nb) :
    ∃ key, base32Loop cs acc nb out = .ok key ∧
      beVal key = streamFrom (bitsTaken out nb acc) vs / 2 ^ ((nb + 5 * vs.length) % 8) := by
  induction cs generalizing vs acc nb out with
  | nil =>
    cases hvs
    refine ⟨out, rfl, ?_⟩
    change _ = bitsTaken out nb acc / 2 ^ (nb % 8)
    rw [Nat.mod_eq_of_lt hnb, bitsTaken, Nat.mul_comm, Nat.mul_add_div (Nat.two_pow_pos nb), Nat.div_eq_of_lt hacc,
      Nat.add_zero]
  | cons c cs ih =>
    obtain ⟨v, hv, ws, hws, rfl⟩ := symbols_cons_eq_some_iff.mp hvs
    obtain ⟨acc', out', step, hacc', bits⟩ := base32Loop_cons_bits hv hnb hacc cs out
    obtain ⟨key, hkey, value⟩ := ih out' hws (Nat.mod_lt _ (by decide)) hacc'
    have tail : ((nb + 5) % 8 + 5 * ws.length) % 8 = (nb + 5 * (v :: ws).length) % 8 := by
      rw [List.length_cons]
      omega
    refine ⟨key, step.trans hkey, ?_⟩
    rw [value, tail, bits]
    rfl

/-- R203: a text of symbols gives the loop floor(5n/8) bytes, the stream without its last 5n mod 8 bits. -/
theorem base32Loop_of_symbols_some {cs : List Byte} {vs : List Nat} (h : cs.mapM symbolValue = some vs) :
    ∃ key, base32Loop cs 0 0 [] = .ok key ∧ key.length = 5 * vs.length / 8 ∧
      beVal key = streamFrom 0 vs / 2 ^ (5 * vs.length % 8) := by
  obtain ⟨key, hkey, value⟩ := base32Loop_bits (acc := 0) (nb := 0) [] h (by decide) (by decide)
  refine ⟨key, hkey, ?_, ?_⟩
  · simpa [symbols_length h] using base32Loop_length (by decide) hkey
  · simpa [bitsTaken] using value

/-! ## The obligations -/

/-- Settles O14, from the two tables on numbers; the strip and the loop both commute with folding. -/
theorem base32FoldsAsciiLettersOnly : Obligations.Base32FoldsAsciiLettersOnly :=
  ⟨fun _ => ⟨foldCase_toNat_of_lower, foldCase_of_not_lower⟩, alphabetValue_eq, base32Decode_map_foldCase⟩

/-- Settles O15: padding at the end is stripped; an inner `=` stays, and it is no symbol. -/
theorem base32StripsTrailingPaddingOnly : Obligations.Base32StripsTrailingPaddingOnly := by
  refine ⟨fun s k => ?_, fun p q other => ?_⟩
  · rw [base32Decode, stripPadding_append_padding, base32Decode]
  · apply base32Decode_of_symbols_none
    rw [stripPadding_inner_pad p other]
    exact symbols_inner_pad p (stripPadding q)

/-- Settles O13, by the loop's invariant `base32Loop_bits`. -/
theorem base32DecodeIsTheBitStream : Obligations.Base32DecodeIsTheBitStream := by
  intro s
  change match (stripPadding s).mapM symbolValue with | none => _ | some vs => _
  cases h : (stripPadding s).mapM symbolValue with
  | none => exact base32Decode_of_symbols_none h
  | some vs =>
    obtain ⟨key, loop, len, value⟩ := base32Loop_of_symbols_some h
    dsimp only
    rw [base32Decode_of_loop_ok loop, len]
    by_cases empty : 5 * vs.length / 8 = 0
    · rw [if_pos empty, if_pos empty]
    · rw [if_neg empty, if_neg empty]
      exact ⟨key, rfl, len, value⟩

end Sys2Proof.Machine
end

section
/-! The counter encoder bit by bit (R230, R231), and the two CTRBYTES words the host reads after ENCCTR (R232, R233).
Settles CounterEncodingIsBigEndian and EncctrStoresTheCounter. -/

namespace Sys2Proof.Machine

/-! ## The encoder (R230, R231) -/

@[simp] theorem encodeCounter_length (c : Dword) : (encodeCounter c).length = 8 := beBytes_length 8 c.toNat

/-- Byte i is the bits 63-8i to 56-8i. -/
theorem encodeCounter_getElem? (c : Dword) {i : Nat} (h : i < 8) :
    (encodeCounter c)[i]? = some (c.extractLsb' (56 - 8 * i) 8) := by
  have shift : 8 * (8 - 1 - i) = 56 - 8 * i := by omega
  rw [encodeCounter, Config.ctrByteCount, beBytes_getElem?, if_pos h, shift, BitVec.extractLsb']

/-- The encoding loses nothing: 8 bytes hold the whole counter. -/
theorem beVal_encodeCounter (c : Dword) : beVal (encodeCounter c) = c.toNat := by
  rw [encodeCounter, beVal_beBytes]
  exact Nat.mod_eq_of_lt c.isLt

/-- A HOTP computation's digest is the HMAC of the counter's encoding, whatever the digit count (R331). -/
theorem hotpValue_digest (K : List Byte) (c : Dword) (n : Nat) :
    (hotpValue K c n).digest = hmacSha1 K (encodeCounter c) := rfl

/-- Settles O16, from the encoder's bytes and their value. -/
theorem counterEncodingIsBigEndian : Obligations.CounterEncodingIsBigEndian := fun c =>
  ⟨encodeCounter_length c, fun _ h => encodeCounter_getElem? c h, beVal_encodeCounter c,
    fun K n => hotpValue_digest K c n⟩

/-! ## The words of CTRBYTES (R102, R233) -/

/-- The bytes after a successful completion: those stored, and the others as before. -/
theorem CompletesWith.read {s t : State} {d : Draws} {r : Regs} {stored : Nat → Option Byte}
    (h : CompletesWith s t d r stored) (a : Nat) : t.regs.mem.read a = (stored a).getD (s.regs.mem.read a) := by
  obtain ⟨m, rfl, bytes⟩ := h
  exact bytes a

@[simp] theorem storedAt_bufBase_add (b : BufName) (bs : List Byte) (i : Nat) :
    storedAt b bs (bufBase b + i) = bs[i]? := by
  simp [storedAt]

/-- Eight bits of a word's bits, where the word holds them. -/
theorem extractLsb'_byte_of_word (c : Dword) (start : Nat) {low : Nat} (h : low + 8 ≤ 32) :
    (c.extractLsb' start 32).extractLsb' low 8 = c.extractLsb' (start + low) 8 := by
  ext j hj
  have inWord : low + j < 32 := by omega
  simp [inWord, Nat.add_assoc]

/-- Word k of a stored counter is its bits 63-32k to 32-32k: words stand most significant first, as bytes do. -/
theorem readWord_of_stored_counter {s t : State} {d : Draws} {r : Regs} {c : Dword} {k : Nat}
    (h : CompletesWith s t d r (storedAt .ctrBytes (encodeCounter c))) (hk : k < 2) :
    readWord t.regs .ctrBytes k = c.extractLsb' (32 - 32 * k) 32 := by
  refine readWord_eq fun i hi => ?_
  have inString : 4 * k + i < 8 := by omega
  have bits : 32 - 32 * k + (24 - 8 * i) = 56 - 8 * (4 * k + i) := by omega
  rw [h.read, Nat.add_assoc, storedAt_bufBase_add, encodeCounter_getElem? c inString, Option.getD_some,
    extractLsb'_byte_of_word c _ (by omega), bits]

/-! ## ENCCTR (R232) -/

/-- ENCCTR in flight completes and stores the snapshot's counter. -/
theorem encctr_completesWith {s : State} {cur : Word} {S : Regs} (h : s.seq = .busy cur S) :
    ∃ t, exec .encctr s = .next t ∧ CompletesWith s t s.draws s.regs (storedAt .ctrBytes (encodeCounter S.counter)) :=
  ⟨_, exec_busy h .encctr, succeed_completesWith rfl fun _ => storedAt_eq _ _ _ _⟩

/-- Settles O17: COUNTER is the number c, and its upper and its lower word are COUNTER_HI and COUNTER_LO. -/
theorem encctrStoresTheCounter : Obligations.EncctrStoresTheCounter := by
  intro s cur S c busy value
  obtain rfl : S.counter = c := BitVec.eq_of_toNat_eq ((counter_toNat S).trans value.symm)
  obtain ⟨t, runs, stores⟩ := encctr_completesWith busy
  refine ⟨t, runs, stores, ?_, ?_⟩
  · rw [hostRead, readWord_of_stored_counter stores (by decide)]
    exact BitVec.extractLsb'_append_eq_left
  · rw [hostRead, readWord_of_stored_counter stores (by decide)]
    exact BitVec.extractLsb'_append_eq_right

end Sys2Proof.Machine
end

section
/-! SHA-1 around its rounds: the padding (R251), the message schedule (R254) and the output bytes (R257). Settles
Sha1PaddingFillsWholeBlocks, Sha1ScheduleFollowsTheRecurrence and Sha1DigestIsFiveBigEndianWords. -/

namespace Sys2Proof.Machine

/-! ## Padding (R251) -/

/-- The zero bytes make up what the message, 0x80 and the eight length bytes leave of the last block. -/
theorem sha1Pad_length (M : List Byte) : (sha1Pad M).length = 64 * ((M.length + 8) / 64 + 1) := by
  simp only [sha1Pad, List.length_append, List.length_cons, List.length_nil, List.length_replicate, beBytes_length]
  omega

/-- Settles O18: the zero bytes are counted mod 64, so there are fewer than 64. -/
theorem sha1PaddingFillsWholeBlocks : Obligations.Sha1PaddingFillsWholeBlocks := fun M =>
  ⟨(119 - M.length % 64) % 64, Nat.mod_lt _ (by decide), rfl, sha1Pad_length M⟩

/-! ## The message schedule (R254) -/

theorem rotl_eq_rotateLeft {n : Nat} (h : n < 32) (x : Word) : rotl n x = x.rotateLeft n :=
  (BitVec.rotateLeft_eq_rotateLeftAux_of_lt h).symm

theorem wAt_append_of_lt (W V : List Word) {t : Nat} (h : t < W.length) : wAt (W ++ V) t = wAt W t :=
  List.getD_append W V 0#32 t h

theorem wAt_append_length (W : List Word) (w : Word) : wAt (W ++ [w]) W.length = w := by
  simp [wAt]

/-- The right side of R254's recurrence: the word that the schedule W gives at place t. -/
def recurrenceWord (W : List Word) (t : Nat) : Word :=
  rotl 1 (wAt W (t - 3) ^^^ wAt W (t - 8) ^^^ wAt W (t - 14) ^^^ wAt W (t - 16))

theorem extendSchedule_succ (n : Nat) (W : List Word) :
    extendSchedule (n + 1) W = extendSchedule n (W ++ [recurrenceWord W W.length]) := rfl

/-- The recurrence reads only words before place t. -/
theorem recurrenceWord_congr {V W : List Word} {t : Nat} (pos : 0 < t) (agree : ∀ u < t, wAt V u = wAt W u) :
    recurrenceWord V t = recurrenceWord W t := by
  have before (k : Nat) (hk : 0 < k) : wAt V (t - k) = wAt W (t - k) := agree _ (Nat.sub_lt pos hk)
  simp only [recurrenceWord, before 3 (by decide), before 8 (by decide), before 14 (by decide), before 16 (by decide)]

theorem extendSchedule_length (n : Nat) (W : List Word) : (extendSchedule n W).length = W.length + n := by
  induction n generalizing W with
  | zero => rfl
  | succ n ih => simp only [extendSchedule_succ, ih, List.length_append, List.length_singleton]; omega

/-- Extending a schedule keeps the words it has. -/
theorem wAt_extendSchedule_of_lt (n : Nat) {W : List Word} {t : Nat} (h : t < W.length) :
    wAt (extendSchedule n W) t = wAt W t := by
  induction n generalizing W with
  | zero => rfl
  | succ n ih =>
    have kept : t < (W ++ [recurrenceWord W W.length]).length := by simp only [List.length_append]; omega
    rw [extendSchedule_succ, ih kept, wAt_append_of_lt _ _ h]

/-- Every word an extension adds satisfies the recurrence in the finished schedule: it was computed from the words
before it, and those are kept. -/
theorem wAt_extendSchedule_of_ge {n : Nat} {W : List Word} {t : Nat} (pos : 0 < W.length) (low : W.length ≤ t)
    (high : t < W.length + n) : wAt (extendSchedule n W) t = recurrenceWord (extendSchedule n W) t := by
  induction n generalizing W with
  | zero => omega
  | succ n ih =>
    have longer : (W ++ [recurrenceWord W W.length]).length = W.length + 1 := by simp
    obtain rfl | above := Nat.eq_or_lt_of_le low
    · calc wAt (extendSchedule (n + 1) W) W.length
          = recurrenceWord W W.length := by
            rw [extendSchedule_succ, wAt_extendSchedule_of_lt n (by omega), wAt_append_length]
        _ = recurrenceWord (extendSchedule (n + 1) W) W.length :=
            recurrenceWord_congr pos fun _ h => (wAt_extendSchedule_of_lt (n + 1) h).symm
    · rw [extendSchedule_succ]
      exact ih (by omega) (by omega) (by omega)

/-- Settles O19: the schedule is the block extended by 64 words. -/
theorem sha1ScheduleFollowsTheRecurrence : Obligations.Sha1ScheduleFollowsTheRecurrence := by
  intro M len
  refine ⟨?_, fun t ht => ?_, fun t low high => ?_⟩
  · rw [schedule, extendSchedule_length, len]
  · exact wAt_extendSchedule_of_lt 64 (by omega)
  · rw [← rotl_eq_rotateLeft (by decide)]
    exact wAt_extendSchedule_of_ge (by omega) (by omega) (by omega)

/-! ## The output bytes (R257) -/

/-- `BE_4` of a word. -/
def beWord (w : Word) : List Byte := beBytes 4 w.toNat

@[simp] theorem beWord_length (w : Word) : (beWord w).length = 4 := beBytes_length 4 w.toNat

/-- The encoding loses nothing: four bytes hold the whole word. -/
theorem beVal_beWord (w : Word) : beVal (beWord w) = w.toNat := by
  rw [beWord, beVal_beBytes]
  exact Nat.mod_eq_of_lt w.isLt

/-- The last of a word's four bytes is its low byte. -/
theorem beWord_last (w : Word) : (beWord w)[3]? = some (w.extractLsb' 0 8) := by
  rw [beWord, beBytes_getElem?, if_pos (by decide), BitVec.extractLsb']

theorem Hash.bytes_eq_beWords (H : Hash) : H.bytes =
    beWord H.h0 ++ beWord H.h1 ++ beWord H.h2 ++ beWord H.h3 ++ beWord H.h4 := rfl

/-- A word's bytes are read back wherever they stand in a string. -/
theorem beVal_word_between (front back : List Byte) (w : Word) :
    beVal (((front ++ (beWord w ++ back)).drop front.length).take 4) = w.toNat := by
  rw [List.drop_left, List.take_left' (beWord_length w), beVal_beWord]

/-- Settles O20: each word stands between the bytes of the words before it and of those after it. -/
theorem sha1DigestIsFiveBigEndianWords : Obligations.Sha1DigestIsFiveBigEndianWords := by
  rintro ⟨h0, h1, h2, h3, h4⟩
  refine ⟨hash_bytes_length _, ?_⟩
  rw [Hash.bytes_eq_beWords]
  refine ⟨?_, ?_, ?_, ?_, ?_, ?_⟩
  · simpa using beVal_word_between [] (beWord h1 ++ beWord h2 ++ beWord h3 ++ beWord h4) h0
  · simpa using beVal_word_between (beWord h0) (beWord h2 ++ beWord h3 ++ beWord h4) h1
  · simpa using beVal_word_between (beWord h0 ++ beWord h1) (beWord h3 ++ beWord h4) h2
  · simpa using beVal_word_between (beWord h0 ++ beWord h1 ++ beWord h2) (beWord h4) h3
  · simpa using beVal_word_between (beWord h0 ++ beWord h1 ++ beWord h2 ++ beWord h3) [] h4
  · rw [List.getElem?_append_right (by simp)]
    simpa using beWord_last h4

end Sys2Proof.Machine
end

section
/-! Dynamic truncation on numbers (R300, R301), and the text of a code as its decimal digits (R311). Settles
TruncReadsFourDigestBytes, FormatCommitsTheCode and FormattedCodeReadsBackAsTheNumber. -/

namespace Sys2Proof.Machine

/-! ## Dynamic truncation on numbers (R300, R301) -/

/-- R300: the low nibble of byte 19. -/
theorem truncOffset_toNat (d : List Byte) : (truncOffset d).toNat = (byteAt d 19).toNat % 16 := by
  rw [truncOffset, BitVec.toNat_setWidth, BitVec.toNat_and, BitVec.toNat_ofNat]
  rw [Nat.and_two_pow_sub_one_eq_mod _ 4, Nat.mod_mod]

/-- The bitwise or of a multiple of 2^k and a number below it is their sum. -/
theorem or_eq_add_of_dvd {k x y : Nat} (high : 2 ^ k ∣ x) (low : y < 2 ^ k) : x ||| y = x + y := by
  obtain ⟨a, rfl⟩ := high
  exact (Nat.two_pow_add_eq_or_of_lt low a).symm

/-- Four bytes moved to their places in a word occupy disjoint bits. -/
theorem or_bytes_eq_add {x0 x1 x2 x3 : Nat} (h1 : x1 < 2 ^ 8) (h2 : x2 < 2 ^ 8) (h3 : x3 < 2 ^ 8) :
    x0 * 2 ^ 24 ||| x1 * 2 ^ 16 ||| x2 * 2 ^ 8 ||| x3 = x0 * 2 ^ 24 + x1 * 2 ^ 16 + x2 * 2 ^ 8 + x3 := by
  rw [or_eq_add_of_dvd (k := 24) (y := x1 * 2 ^ 16), or_eq_add_of_dvd (k := 16) (y := x2 * 2 ^ 8),
    or_eq_add_of_dvd (k := 8) (y := x3)] <;> omega

/-- A byte moved up inside a word loses no bit. -/
theorem shiftLeft_toNat_of_byte {w : Word} {x k : Nat} (hw : w.toNat = x) (hx : x < 2 ^ 8) (hk : k ≤ 24) :
    (w <<< k).toNat = x * 2 ^ k := by
  have fits : x * 2 ^ k < 2 ^ 32 :=
    calc x * 2 ^ k < 2 ^ 8 * 2 ^ k := Nat.mul_lt_mul_of_pos_right hx (Nat.two_pow_pos k)
      _ ≤ 2 ^ 8 * 2 ^ 24 := Nat.mul_le_mul_left _ (Nat.pow_le_pow_right (by decide) hk)
  rw [BitVec.toNat_shiftLeft, Nat.shiftLeft_eq, hw, Nat.mod_eq_of_lt fits]

/-- R301: the first byte gives its low seven bits, the others all of theirs, so the 31 bits hold the value. -/
theorem truncValue_toNat (d : List Byte) (off : Nat) :
    (truncValue d off).toNat = (byteAt d off).toNat % 128 * 2 ^ 24 + (byteAt d (off + 1)).toNat * 2 ^ 16 +
      (byteAt d (off + 2)).toNat * 2 ^ 8 + (byteAt d (off + 3)).toNat := by
  have word (b : Byte) : (b.setWidth 32 : Word).toNat = b.toNat := BitVec.toNat_setWidth_of_le (by decide)
  have low7 (b : Byte) : (b.setWidth 32 &&& 0x7F#32 : Word).toNat = b.toNat % 128 := by
    rw [BitVec.toNat_and, word]
    exact Nat.and_two_pow_sub_one_eq_mod _ 7
  have first := Nat.mod_lt (byteAt d off).toNat (show 0 < 128 by decide)
  have lt1 := (byteAt d (off + 1)).isLt
  have lt2 := (byteAt d (off + 2)).isLt
  have lt3 := (byteAt d (off + 3)).isLt
  simp only [truncValue, BitVec.toNat_setWidth 31, BitVec.toNat_or, Nat.add_zero]
  rw [shiftLeft_toNat_of_byte (low7 _) (by omega) (by decide), shiftLeft_toNat_of_byte (word _) lt1 (by decide),
    shiftLeft_toNat_of_byte (word _) lt2 (by decide), word, or_bytes_eq_add lt1 lt2 lt3, Nat.mod_eq_of_lt (by omega)]

/-! ## TRUNC (R303) -/

/-- A byte of a buffer's first n bytes, read at the map's address. -/
theorem byteAt_buf (S : Regs) (b : BufName) {n i : Nat} (h : i < n) :
    byteAt (S.buf b n) i = S.mem.read (bufBase b + i) := by
  rw [byteAt, List.getD_eq_getElem?_getD, Regs.buf, readBytes_getElem?, if_pos h, Option.getD_some]

/-- TRUNC in flight completes with the truncation of the snapshot's DIGEST, and stores no byte. -/
theorem trunc_completesWith {s : State} {cur : Word} {S : Regs} (h : s.seq = .busy cur S) :
    ∃ t, exec .trunc s = .next t ∧
      CompletesWith s t s.draws
        { s.regs with offset := (dynTrunc S.digestBuf).1, trunc := (dynTrunc S.digestBuf).2 } (fun _ => none) :=
  ⟨_, exec_busy h .trunc, succeed_completesWith rfl fun _ => rfl⟩

/-- Settles O23: the offset is below 16, so every byte it reads lies inside DIGEST (R302). -/
theorem truncReadsFourDigestBytes : Obligations.TruncReadsFourDigestBytes := by
  intro s cur S busy
  obtain ⟨t, runs, completes⟩ := trunc_completesWith busy
  have digest {i : Nat} (h : i < 20) : byteAt S.digestBuf i = S.mem.read (0x060 + i) := byteAt_buf S .digest h
  have inRange : (truncOffset S.digestBuf).toNat < 16 := (truncOffset S.digestBuf).isLt
  refine ⟨t, truncOffset S.digestBuf, truncValue S.digestBuf (truncOffset S.digestBuf).toNat, runs, completes, ?_, ?_⟩
  · rw [truncOffset_toNat, digest (by decide)]
  · rw [truncValue_toNat, digest (by omega), digest (by omega), digest (by omega), digest (by omega)]
    rfl

/-! ## FORMAT (R312) -/

/-- FORMAT's function on legal DIGITS. -/
theorem formatCmd_ok {S : Regs} (legal : S.badDigits = false) :
    formatCmd S = .ok (codeWrites (codeNumber S.trunc S.digits.toNat) S.digits.toNat) := by
  rw [formatCmd, legal, if_neg Bool.false_ne_true]

/-- The text of a code as it stands in CODE. -/
theorem padTo_fmt (m code n : Nat) : padTo m (fmt code n) = fmt code n ++ List.replicate (m - n) 0#8 := by
  rw [padTo, fmt_length]

/-- A completion that commits a code stores its padded text and nothing else (R64, R312). -/
theorem codeWrites_completesWith (s : State) (d : Draws) (code n : Nat) :
    CompletesWith s (s.completeDrawn (.ok (codeWrites code n), d)) d
      { s.regs with codeBin := BitVec.ofNat 32 code, codeLen := BitVec.ofNat 4 n, codeValid := true }
      (storedAt .code (fmt code n ++ List.replicate (12 - n) 0#8)) := by
  refine succeed_completesWith (by rw [codeWrites_regs]) fun a => ?_
  rw [codeWrites_regs, padTo_fmt]
  exact storedAt_eq _ _ _ a

/-- Settles O24: DIGITS from 1 to 9 passes R401's check, so FORMAT commits the code. -/
theorem formatCommitsTheCode : Obligations.FormatCommitsTheCode := by
  intro s cur S busy low high
  have runs := exec_busy busy .format
  rw [cmdOf, formatCmd_ok (badDigits_false.mpr ⟨low, high⟩)] at runs
  exact ⟨_, runs, codeWrites_completesWith s s.draws _ _⟩

/-! ## The text of a code (R311) -/

/-- The ASCII digit of a number's last decimal digit. -/
def lastDigit (code : Nat) : Byte := BitVec.ofNat 8 (0x30 + code % 10)

theorem lastDigit_toNat (code : Nat) : (lastDigit code).toNat = 0x30 + code % 10 := by
  rw [lastDigit, BitVec.toNat_ofNat]
  omega

theorem isDigitByte_lastDigit (code : Nat) : isDigitByte (lastDigit code) = true := by
  simp only [isDigitByte, lastDigit_toNat, Bool.and_eq_true, decide_eq_true_eq]
  omega

/-- A longer text is the text of the number without its last digit, then that digit. -/
theorem fmt_succ (code n : Nat) : fmt code (n + 1) = fmt (code / 10) n ++ [lastDigit code] := by
  have before {i : Nat} (h : i < n) : code / 10 ^ (n + 1 - 1 - i) = code / 10 / 10 ^ (n - 1 - i) := by
    have power : n + 1 - 1 - i = n - 1 - i + 1 := by omega
    rw [power, Nat.pow_succ', Nat.div_div_eq_div_mul]
  have last : code / 10 ^ (n + 1 - 1 - n) = code := by simp
  rw [fmt, List.range_succ, List.map_append, List.map_singleton, last, fmt, lastDigit]
  congr 1
  exact List.map_congr_left fun i hi => by rw [before (List.mem_range.mp hi)]

theorem isDigitByte_of_mem_fmt {code n : Nat} {b : Byte} (h : b ∈ fmt code n) : isDigitByte b = true := by
  induction n generalizing code with
  | zero => cases h
  | succ n ih =>
    rw [fmt_succ, List.mem_append, List.mem_singleton] at h
    obtain front | rfl := h
    · exact ih front
    · exact isDigitByte_lastDigit code

theorem decimalValue_append_singleton (s : List Byte) (b : Byte) :
    decimalValue (s ++ [b]) = 10 * decimalValue s + (b.toNat - 0x30) := by
  simp only [decimalValue, List.foldl_append, List.foldl_cons, List.foldl_nil]

/-- A text of n digits holds the number's last n decimal digits. -/
theorem decimalValue_fmt (code n : Nat) : decimalValue (fmt code n) = code % 10 ^ n := by
  induction n generalizing code with
  | zero => rw [Nat.pow_zero, Nat.mod_one]; rfl
  | succ n ih =>
    calc decimalValue (fmt code (n + 1))
        = 10 * (code / 10 % 10 ^ n) + code % 10 := by
          rw [fmt_succ, decimalValue_append_singleton, ih, lastDigit_toNat, Nat.add_sub_cancel_left]
      _ = code % 10 ^ (n + 1) := by rw [Nat.pow_succ', Nat.mod_mul, Nat.add_comm]

/-- Settles O25: a number below 10^n is its own last n decimal digits. -/
theorem formattedCodeReadsBackAsTheNumber : Obligations.FormattedCodeReadsBackAsTheNumber := by
  intro code n fits
  refine ⟨fmt_length code n, fun _ h => isDigitByte_of_mem_fmt h, ?_⟩
  rw [decimalValue_fmt, Nat.mod_eq_of_lt fits]

end Sys2Proof.Machine
end

section
/-! TREM (R350, R351), and the second at which the counter steps (R352). Settles TremCommitsTheSecondsLeft and
TremMarksTheNextCounterStep. -/

namespace Sys2Proof.Machine

/-! ## TREM in flight (R350) -/

theorem tstep_pos {S : Regs} (legal : S.tstep ≠ 0#32) : 0 < S.tstep.toNat :=
  Nat.pos_of_ne_zero fun zero => legal (BitVec.eq_of_toNat_eq zero)

/-- TREM's function where TSTEP is not 0. -/
theorem tremCmd_ok {S : Regs} (legal : S.tstep ≠ 0#32) :
    tremCmd S = .ok [.trem (BitVec.ofNat 32 (S.tstep.toNat - S.now.toNat % S.tstep.toNat))] := by
  rw [tremCmd, badTstep_false.mpr legal, if_neg Bool.false_ne_true]

/-- The seconds left are at most TSTEP, so TREM's 32 bits hold them. -/
theorem secondsLeft_toNat (S : Regs) :
    (BitVec.ofNat 32 (S.tstep.toNat - S.now.toNat % S.tstep.toNat)).toNat =
      S.tstep.toNat - (S.nowHi.toNat * 2 ^ 32 + S.nowLo.toNat) % S.tstep.toNat := by
  rw [BitVec.toNat_ofNat, Nat.mod_eq_of_lt (Nat.lt_of_le_of_lt (Nat.sub_le _ _) (tstep_lt S)), now_toNat]

/-- TREM in flight with TSTEP not 0 commits the seconds left, and nothing else. -/
theorem trem_completesWith {s : State} {cur : Word} {S : Regs} (busy : s.seq = .busy cur S)
    (legal : S.tstep ≠ 0#32) :
    ∃ t, exec .trem s = .next t ∧ CompletesWith s t s.draws { s.regs with trem := t.regs.trem } (fun _ => none) ∧
      t.regs.trem.toNat = S.tstep.toNat - (S.nowHi.toNat * 2 ^ 32 + S.nowLo.toNat) % S.tstep.toNat := by
  have runs := exec_busy busy .trem
  rw [cmdOf, tremCmd_ok legal] at runs
  exact ⟨_, runs, succeed_completesWith rfl fun _ => rfl, secondsLeft_toNat S⟩

/-- Settles O30: the remainder is below TSTEP, so the difference is from 1 to TSTEP. -/
theorem tremCommitsTheSecondsLeft : Obligations.TremCommitsTheSecondsLeft := by
  intro s cur S busy legal
  obtain ⟨t, runs, completes, value⟩ := trem_completesWith busy legal
  have below := Nat.mod_lt (S.nowHi.toNat * 2 ^ 32 + S.nowLo.toNat) (tstep_pos legal)
  exact ⟨t, runs, completes, value, by omega, by omega⟩

/-! ## When the quotient steps (R352) -/

/-- Fewer seconds than are left leave the quotient. -/
theorem add_div_of_lt_left {now step d : Nat} (h : d < step - now % step) : (now + d) / step = now / step := by
  have small : d < step := by omega
  rw [Nat.add_div_eq_of_add_mod_lt (by rw [Nat.mod_eq_of_lt small]; omega), Nat.div_eq_of_lt small, Nat.add_zero]

/-- The seconds left lead to the next multiple of the step. -/
theorem add_left_div {now step : Nat} (pos : 0 < step) : (now + (step - now % step)) / step = now / step + 1 := by
  have below := Nat.mod_lt now pos
  have parts := Nat.div_add_mod now step
  have multiple : now + (step - now % step) = step * (now / step + 1) := by rw [Nat.mul_succ]; omega
  rw [multiple, Nat.mul_div_cancel_left _ pos]

/-- Settles O31: TREM's value is the distance from NOW to the next multiple of TSTEP. -/
theorem tremMarksTheNextCounterStep : Obligations.TremMarksTheNextCounterStep := by
  intro s t cur S busy legal runs
  obtain ⟨t', runs', -, value⟩ := trem_completesWith busy legal
  obtain rfl : t' = t := Host.Outcome.next.inj (runs'.symm.trans runs)
  have below := Nat.mod_lt (S.nowHi.toNat * 2 ^ 32 + S.nowLo.toNat) (tstep_pos legal)
  rw [value, counterAt]
  refine ⟨add_left_div (tstep_pos legal), ?_, fun d h => add_div_of_lt_left h⟩
  rw [Nat.add_sub_assoc (by omega)]
  exact add_div_of_lt_left (by omega)

end Sys2Proof.Machine
end

section
/-! The functions of DECODE, HMAC, HOTP and TOTP on legal operands, the bytes HOTP and TOTP store (R330, R340), and TOTP
in flight. Settles TotpCommitsTheCode. -/

namespace Sys2Proof.Machine

/-! ## The command functions on legal operands -/

section
variable {p : Config.Platform} {d : Draws} {S : Regs} {K : List Byte}

theorem decodeCmd_ok (secret : S.badSecretLen = false) (decodes : base32Decode S.secretText = .ok K) :
    decodeCmd S = .ok (keyWrites K) := by
  rw [decodeCmd, secret, if_neg Bool.false_ne_true, decodes]

theorem keyLen_ne_zero (low : 1 ≤ S.keyLen.toNat) : S.keyLen ≠ 0#16 := by
  rintro zero
  rw [zero] at low
  contradiction

theorem hmacCmd_ok (keyLow : 1 ≤ S.keyLen.toNat) (keyHigh : S.keyLen.toNat ≤ 160) (draw : d.head p = true) :
    hmacCmd p d S = (.ok [.digest (hmacSha1 S.keyBytes S.message)], d.skip 1) := by
  rw [hmacCmd, badKeyLen_false.mpr keyHigh, if_neg Bool.false_ne_true, if_neg (keyLen_ne_zero keyLow),
    hmacInvoke_true draw]

theorem hotpCmd_ok (digits : S.badDigits = false) (keyLow : 1 ≤ S.keyLen.toNat) (keyHigh : S.keyLen.toNat ≤ 160)
    (draw : d.head p = true) :
    hotpCmd p d S =
      (.ok (hotpWrites (hotpValue S.keyBytes S.counter S.digits.toNat) S.digits.toNat), d.skip 1) := by
  rw [hotpCmd, digits, badKeyLen_false.mpr keyHigh, if_neg Bool.false_ne_true, if_neg Bool.false_ne_true,
    if_neg (keyLen_ne_zero keyLow), hotpCore_true draw]

/-- TOTP's writes for the key K and the counter c: DECODE's, the counter, then HOTP's (R340). -/
def totpWrites (K : List Byte) (c : Dword) (n : Nat) : List RegWrite :=
  keyWrites K ++ .counter c :: hotpWrites (hotpValue K c n) n

theorem totpCmd_ok (digits : S.badDigits = false) (tstep : S.tstep ≠ 0#32) (secret : S.badSecretLen = false)
    (decodes : base32Decode S.secretText = .ok K) (draw : d.head p = true) :
    totpCmd p d S = (.ok (totpWrites K (timeCounter S) S.digits.toNat), d.skip 1) := by
  rw [totpCmd, digits, badTstep_false.mpr tstep, secret, decodes]
  simp only [Bool.false_eq_true, if_false, hotpCore_true draw, totpWrites]

end

/-! ## The bytes HOTP and TOTP store (R330, R340) -/

/-- Of two values of which one is missing, the one that stands is found in either order. -/
theorem getD_getD_of_disjoint {x y : Option Byte} (h : x = none ∨ y = none) (z : Byte) :
    y.getD (x.getD z) = (x <|> y).getD z := by
  obtain rfl | rfl := h
  · rfl
  · cases x <;> rfl

theorem disjoint_orElse {x y z : Option Byte} (hy : x = none ∨ y = none) (hz : x = none ∨ z = none) :
    x = none ∨ (y <|> z) = none := by
  obtain rfl | rfl := hy
  · exact .inl rfl
  · exact hz

/-- The bytes HOTP's writes store in CTRBYTES, DIGEST and CODE. -/
def hotpStored (K : List Byte) (c : Dword) (n : Nat) (a : Nat) : Option Byte :=
  storedAt .ctrBytes (hotpValue K c n).message a <|> storedAt .digest (hotpValue K c n).digest a <|>
    storedAt .code ((hotpValue K c n).text ++ List.replicate (12 - n) 0#8) a

section
variable (K : List Byte) (c : Dword) {n : Nat} (hn : n ≤ 9)
include hn

theorem hotp_code_length : ((hotpValue K c n).text ++ List.replicate (12 - n) 0#8).length = 12 := by
  obtain ⟨-, -, text⟩ := hotpValue_lengths K c n
  rw [List.length_append, text, List.length_replicate]
  omega

/-- A string in a buffer HOTP does not store to meets none of HOTP's strings. -/
theorem storedAt_hotpStored_disjoint {b : BufName} {bs : List Byte} (fits : bs.length ≤ bufSize b)
    (other : b ∉ storesTo .hotp) (a : Nat) : storedAt b bs a = none ∨ hotpStored K c n a = none := by
  obtain ⟨message, digest, -⟩ := hotpValue_lengths K c n
  simp only [storesTo, List.mem_cons, List.not_mem_nil, or_false, not_or] at other
  obtain ⟨notCtr, notDigest, notCode⟩ := other
  exact disjoint_orElse (storedAt_disjoint notCtr fits message.le a)
    (disjoint_orElse (storedAt_disjoint notDigest fits digest.le a)
      (storedAt_disjoint notCode fits (hotp_code_length K c hn).le a))

/-- A byte after HOTP's writes: the three strings never meet, so their order does not matter. -/
theorem read_hotpWrites (r : Regs) (a : Nat) :
    (r.applyWrites (hotpWrites (hotpValue K c n) n)).mem.read a = (hotpStored K c n a).getD (r.mem.read a) := by
  obtain ⟨message, digest, -⟩ := hotpValue_lengths K c n
  have code := (hotp_code_length K c hn).le
  have padded : padTo Config.codeBuf (hotpValue K c n).text = (hotpValue K c n).text ++ List.replicate (12 - n) 0#8 :=
    padTo_fmt 12 _ n
  rw [hotpWrites_regs, storedAt_eq, storedAt_eq, storedAt_eq, padded,
    getD_getD_of_disjoint (storedAt_disjoint (by decide) digest.le code a), getD_getD_of_disjoint]
  · rfl
  · exact disjoint_orElse (storedAt_disjoint (by decide) message.le digest.le a)
      (storedAt_disjoint (by decide) message.le code a)

/-- A completion that commits TOTP's writes (R340, R410). -/
theorem totpWrites_completesWith (s : State) (d : Draws) (hK : K.length ≤ 160) :
    CompletesWith s (s.completeDrawn (.ok (totpWrites K c n), d)) d
      { s.regs with keyLen := BitVec.ofNat 16 K.length, counterHi := c.extractLsb' 32 32,
                    counterLo := c.extractLsb' 0 32, offset := (hotpValue K c n).offset,
                    trunc := (hotpValue K c n).trunc, codeBin := BitVec.ofNat 32 (hotpValue K c n).code,
                    codeLen := BitVec.ofNat 4 n, codeValid := true }
      (fun a => storedAt .key (K ++ List.replicate (160 - K.length) 0#8) a <|> hotpStored K c n a) := by
  refine succeed_completesWith ?_ fun a => ?_
  · rw [totpWrites, applyWrites_append, applyWrites_cons, hotpWrites_regs, keyWrites_regs]
    rfl
  · have key : (padTo 160 K).length ≤ bufSize .key := (padTo_length hK).le
    rw [totpWrites, applyWrites_append, applyWrites_cons, read_hotpWrites K c hn, keyWrites_regs]
    calc (hotpStored K c n a).getD ((s.regs.mem.writeBytes (bufBase .key) (padTo 160 K)).read a)
        = (hotpStored K c n a).getD ((storedAt .key (padTo 160 K) a).getD (s.regs.mem.read a)) := by rw [storedAt_eq]
      _ = (storedAt .key (padTo 160 K) a <|> hotpStored K c n a).getD (s.regs.mem.read a) :=
        getD_getD_of_disjoint (storedAt_hotpStored_disjoint K c hn key (by decide) a) _

end

/-- Settles O28: the counter TOTP derives is the number c, and the decoded key fits KEY. -/
theorem totpCommitsTheCode : Obligations.TotpCommitsTheCode := by
  intro s cur S K c h busy digitsLow digitsHigh tstep secretLen decodes draw value result
  obtain rfl : timeCounter S = c := BitVec.eq_of_toNat_eq ((timeCounter_toNat S).trans value.symm)
  subst result
  have secret := badSecretLen_false.mpr secretLen
  have runs := exec_busy busy .totp
  rw [cmdOf, totpCmd_ok (badDigits_false.mpr ⟨digitsLow, digitsHigh⟩) tstep secret decodes draw] at runs
  exact ⟨_, runs, totpWrites_completesWith K _ digitsHigh s _ (secretKey_length_le secret decodes)⟩

end Sys2Proof.Machine
end

section
/-! Commands issued one after the other on an idle engine (log 5), and the host's writes between them (R112): what they
commit together. -/

namespace Sys2Proof.Machine

/-! ## Registers after a command that succeeds (R110, R410) -/

/-- The registers once an accept cleared the status of the command before (R110). -/
def Regs.statusCleared (r : Regs) : Regs := { r with done := false, err := false, errcode := 0#4, matched := false }

/-- The registers once a command was accepted and then its writes W were committed (R110, R410). -/
def Regs.committed (r : Regs) (W : List RegWrite) : Regs :=
  { r.statusCleared.applyWrites W with err := false, errcode := 0#4, done := true }

/-- No write of W is of MATCH, the one field that an accept clears and a command's writes may set. -/
def keepMatch (W : List RegWrite) : Prop := ∀ w ∈ W, ∀ m, w ≠ .matched m

theorem statusCleared_applyWrite (r : Regs) {w : RegWrite} (h : ∀ m, w ≠ .matched m) :
    (r.applyWrite w).statusCleared = r.statusCleared.applyWrite w := by
  cases w with
  | matched m => exact absurd rfl (h m)
  | key | keyLen | counter | ctrBytes | digest | offset | trunc | codeBin | code | codeLen | codeValid | trem => rfl

theorem statusCleared_applyWrites (r : Regs) {W : List RegWrite} (h : keepMatch W) :
    (r.applyWrites W).statusCleared = r.statusCleared.applyWrites W := by
  induction W generalizing r with
  | nil => rfl
  | cons w W ih =>
    obtain ⟨head, tail⟩ := List.forall_mem_cons.mp h
    rw [applyWrites_cons, applyWrites_cons, ih (r.applyWrite w) tail, statusCleared_applyWrite r head]

/-- Writes made before a command is accepted, and then the command's own. -/
theorem committed_applyWrites (r : Regs) {W : List RegWrite} (h : keepMatch W) (V : List RegWrite) :
    (r.applyWrites W).committed V = r.committed (W ++ V) := by
  rw [Regs.committed, statusCleared_applyWrites r h, ← applyWrites_append, Regs.committed]

/-- Two commands in a row commit their writes in a row: the second accept clears the first one's status. -/
theorem committed_committed (r : Regs) {W : List RegWrite} (h : keepMatch W) (V : List RegWrite) :
    (r.committed W).committed V = r.committed (W ++ V) := by
  have cleared : (r.committed W).statusCleared = (r.applyWrites W).statusCleared :=
    (statusCleared_applyWrites r.statusCleared h).trans (statusCleared_applyWrites r h).symm
  rw [← committed_applyWrites r h, Regs.committed, cleared, Regs.committed]

/-! ## Commands issued on an idle engine (log 5) -/

/-- The state after a command of an idle engine that returned the writes W and left the draws d. The accepted word and
the snapshot are gone. -/
def State.afterCommand (s : State) (W : List RegWrite) (d : Draws) : State :=
  { s with regs := s.regs.committed W, seq := .idle, doneSeen := false, draws := d }

theorem exec_idle_ok {s : State} {i : Instr} {W : List RegWrite} {d : Draws} (idle : s.seq = .idle)
    (returns : cmdOf i s.platform s.draws s.regs = (.ok W, d)) : exec i s = .next (s.afterCommand W d) := by
  rw [exec_idle idle, returns]
  rfl

theorem afterCommand_afterCommand (s : State) {W : List RegWrite} (h : keepMatch W) (V : List RegWrite)
    (d d' : Draws) : (s.afterCommand W d).afterCommand V d' = s.afterCommand (W ++ V) d' := by
  simp only [State.afterCommand, committed_committed s.regs h V]

/-! ## Host writes of an idle engine's registers (R112) -/

theorem hostWrite_reg_idle {s : State} (idle : s.seq = .idle) {r : RegName} (writable : isRWReg r = true) (v : Word) :
    hostWrite s v (.reg r) = { s with regs := writeReg s.regs v r } := by
  have notBusy := busy_of_seq_idle idle
  cases r with
  | id | ctrl | cmd | status | trem | offset | codeBin | codeLen => contradiction
  | digits | tstep | window | secretLen | keyLen | candLen | nowLo | nowHi | counterLo | counterHi | trunc =>
    simp [hostWrite, isRWReg, notBusy]

/-- The step of a host's write to an RW register of an idle engine. -/
theorem step_writeReg_idle {s : State} (idle : s.seq = .idle) (released : s.resetHeld = false) {r : RegName}
    (writable : isRWReg r = true) {v : Word} {rest : List Turn}
    (turn : s.script = writeTurn s (regOffset r) v :: rest) :
    step s = .next { s with script := rest, regs := writeReg s.regs v r, resp := some ⟨false, none⟩ } := by
  obtain ⟨inWindow, aligned⟩ := regOffset_lt r
  rw [step_writeTurn inWindow aligned turn, windowAccess_write (s := { s with script := rest }) released,
    slotAt_regOffset, hostWrite_reg_idle (s := { s with script := rest }) idle writable]

/-- The host's two writes of COUNTER leave what a command's one write of it does (R104). -/
theorem run_counter_writes {s : State} (idle : s.seq = .idle) (released : s.resetHeld = false) {c : Dword}
    (script : s.script = [writeTurn s 0x030 (c.extractLsb' 0 32), writeTurn s 0x034 (c.extractLsb' 32 32)]) :
    Sys2Proof.core.run 2 s =
      .next { s with script := [], regs := s.regs.applyWrites [.counter c], resp := some ⟨false, none⟩ } := by
  let s1 : State := { s with
    script := [writeTurn s 0x034 (c.extractLsb' 32 32)]
    regs := writeReg s.regs (c.extractLsb' 0 32) .counterLo
    resp := some ⟨false, none⟩ }
  have low : step s = .next s1 := step_writeReg_idle (r := .counterLo) idle released rfl script
  have high := step_writeReg_idle (s := s1) (r := .counterHi) idle released rfl rfl
  rw [run_succ low, run_succ high, run_zero]
  rfl

end Sys2Proof.Machine
end

section
/-! HOTP as the units in sequence (R332), and TOTP as DECODE, the host's writes of COUNTER and HOTP (R342). Settles
HotpEqualsTheUnitChain and TotpEqualsDecodeThenHotp. -/

namespace Sys2Proof.Machine

/-! ## HOTP as the units in sequence (R332) -/

theorem message_committed_ctrBytes (r : Regs) {m : List Byte} (h : m.length = 8) :
    (r.committed [.ctrBytes m]).message = m :=
  buf_writeBytes_same (b := .ctrBytes) h

theorem keyBytes_committed_ctrBytes (r : Regs) {m : List Byte} (h : m.length = 8) (key : r.keyLen.toNat ≤ 160) :
    (r.committed [.ctrBytes m]).keyBytes = r.keyBytes :=
  buf_writeBytes_other (b := .ctrBytes) h.le (by decide) key

theorem digestBuf_committed_digest (r : Regs) {g : List Byte} (h : g.length = 20) :
    (r.committed [.digest g]).digestBuf = g :=
  buf_writeBytes_same (b := .digest) h

/-- HOTP's writes are those of ENCCTR, HMAC, TRUNC and FORMAT, in this order. -/
theorem hotpWrites_eq_unit_writes (K : List Byte) (c : Dword) (n : Nat) :
    hotpWrites (hotpValue K c n) n =
      [.ctrBytes (encodeCounter c)] ++ ([.digest (hotpValue K c n).digest] ++
        ([.offset (hotpValue K c n).offset, .trunc (hotpValue K c n).trunc] ++ codeWrites (hotpValue K c n).code n)) :=
  rfl

/-- Settles O27: each unit finds in its operand what the unit before stored, and their writes in a row are HOTP's. -/
theorem hotpEqualsTheUnitChain : Obligations.HotpEqualsTheUnitChain := by
  intro s idle digitsLow digitsHigh keyLow keyHigh draw
  have digits := badDigits_false.mpr ⟨digitsLow, digitsHigh⟩
  let c := s.regs.counter
  let h := hotpValue s.regs.keyBytes c s.regs.digits.toNat
  let t := s.afterCommand (hotpWrites h s.regs.digits.toNat) (s.draws.skip 1)
  let t1 := s.afterCommand [.ctrBytes (encodeCounter c)] s.draws
  let t2 := t1.afterCommand [.digest h.digest] (s.draws.skip 1)
  let t3 := t2.afterCommand [.offset h.offset, .trunc h.trunc] (s.draws.skip 1)
  have hotp : exec .hotp s = .next t := exec_idle_ok idle (hotpCmd_ok digits keyLow keyHigh draw)
  have encctr : exec .encctr s = .next t1 := exec_idle_ok idle rfl
  have hmac : exec .hmac t1 = .next t2 := by
    have message : t1.regs.message = encodeCounter c := message_committed_ctrBytes s.regs (encodeCounter_length c)
    have key : t1.regs.keyBytes = s.regs.keyBytes :=
      keyBytes_committed_ctrBytes s.regs (encodeCounter_length c) keyHigh
    have returns := hmacCmd_ok (S := t1.regs) keyLow keyHigh draw
    rw [message, key] at returns
    exact exec_idle_ok rfl returns
  have trunc : exec .trunc t2 = .next t3 := by
    have digest : t2.regs.digestBuf = h.digest := digestBuf_committed_digest t1.regs (hmacSha1_length _ _)
    refine exec_idle_ok rfl ?_
    rw [cmdOf, truncCmd, digest]
    rfl
  have format : exec .format t3 = .next t := by
    have chain : t3.afterCommand (codeWrites h.code s.regs.digits.toNat) (s.draws.skip 1) = t := by
      rw [afterCommand_afterCommand _ (by simp [keepMatch]), afterCommand_afterCommand _ (by simp [keepMatch]),
        afterCommand_afterCommand _ (by simp [keepMatch]), ← hotpWrites_eq_unit_writes]
    rw [← chain]
    exact exec_idle_ok rfl (congrArg (·, _) (formatCmd_ok digits))
  exact ⟨t, t1, t2, t3, hotp, encctr, hmac, trunc, format, rfl⟩

/-! ## TOTP as DECODE, the host's writes of COUNTER, and HOTP (R342) -/

theorem readBytes_writeBytes_append_left (m : Memory) (a : Nat) (front back : List Byte) :
    (m.writeBytes a (front ++ back)).readBytes a front.length = front := by
  apply List.ext_getElem?
  intro i
  rw [readBytes_getElem?, read_writeBytes]
  split
  next h => simp [List.getElem?_append_left h, h]
  next h => rw [List.getElem?_eq_none (Nat.le_of_not_lt h)]

theorem counter_applyWrites_counter (r : Regs) (c : Dword) : (r.applyWrites [.counter c]).counter = c :=
  (BitVec.extractLsb'_append_extractLsb'_eq_extractLsb' rfl).trans BitVec.extractLsb'_eq_self

section
variable (r : Regs) {K : List Byte} (hK : K.length ≤ 160)
include hK

theorem keyLen_committed_keyWrites : (r.committed (keyWrites K)).keyLen.toNat = K.length :=
  Nat.mod_eq_of_lt (show K.length < 2 ^ 16 by omega)

theorem keyBytes_committed_keyWrites : (r.committed (keyWrites K)).keyBytes = K := by
  rw [Regs.keyBytes, keyLen_committed_keyWrites r hK]
  exact readBytes_writeBytes_append_left _ _ _ _

end

/-- A key committed, then the counter written, then HOTP's writes committed: TOTP's writes committed at once. -/
theorem committed_totpWrites (r : Regs) (K : List Byte) (c : Dword) (n : Nat) :
    ((r.committed (keyWrites K)).applyWrites [.counter c]).committed (hotpWrites (hotpValue K c n) n) =
      r.committed (totpWrites K c n) := by
  rw [committed_applyWrites _ (by simp [keepMatch]), committed_committed _ (by simp [keepMatch, keyWrites]), totpWrites,
    List.singleton_append]

/-- Settles O29: HOTP finds the decoded key and the written counter, and commits the rest of TOTP's writes. -/
theorem totpEqualsDecodeThenHotp : Obligations.TotpEqualsDecodeThenHotp := by
  intro s K c idle digitsLow digitsHigh tstep secretLen decodes draw value released script
  obtain rfl : timeCounter s.regs = c := BitVec.eq_of_toNat_eq ((timeCounter_toNat s.regs).trans value.symm)
  have digits := badDigits_false.mpr ⟨digitsLow, digitsHigh⟩
  have secret := badSecretLen_false.mpr secretLen
  let c := timeCounter s.regs
  let n := s.regs.digits.toNat
  let t1 := s.afterCommand (keyWrites K) s.draws
  let t2 : State := { t1 with script := [], regs := t1.regs.applyWrites [.counter c], resp := some ⟨false, none⟩ }
  have totp : exec .totp s = .next (s.afterCommand (totpWrites K c n) (s.draws.skip 1)) :=
    exec_idle_ok idle (totpCmd_ok digits tstep secret decodes draw)
  have decode : exec .decode s = .next t1 := exec_idle_ok idle (congrArg (·, _) (decodeCmd_ok secret decodes))
  have writes : Sys2Proof.core.run 2 t1 = .next t2 := run_counter_writes (s := t1) rfl released script
  have hotp : exec .hotp t2 = .next (t2.afterCommand (hotpWrites (hotpValue K c n) n) (s.draws.skip 1)) := by
    have fits := secretKey_length_le secret decodes
    have notEmpty := (base32Decode_length decodes).1
    have keyLen : t2.regs.keyLen.toNat = K.length := keyLen_committed_keyWrites s.regs fits
    have key : t2.regs.keyBytes = K := keyBytes_committed_keyWrites s.regs fits
    have counter : t2.regs.counter = c := counter_applyWrites_counter t1.regs c
    have returns := hotpCmd_ok (S := t2.regs) digits (by omega) (by omega) draw
    rw [key, counter] at returns
    exact exec_idle_ok rfl returns
  exact ⟨_, t1, t2, _, totp, decode, writes, hotp, committed_totpWrites s.regs K c n, rfl⟩

end Sys2Proof.Machine
end

section
/-! The counters VALIDATE tries (R373): the window clipped to the u64 values, as a list of consecutive numbers. Settles
WindowCountersAreTheClippedInterval. -/

namespace Sys2Proof.Machine

/-- An integer the window keeps is the number of its u64 value. -/
theorem toNat_ofNat_of_mem_clipped {l : List Int} {j : Int} (h : j ∈ l.filter fun j => 0 ≤ j && j ≤ 2 ^ 64 - 1) :
    ((BitVec.ofNat 64 j.toNat).toNat : Int) = j := by
  obtain ⟨-, inRange⟩ := List.mem_filter.mp h
  simp only [Bool.and_eq_true, decide_eq_true_eq] at inRange
  rw [BitVec.toNat_ofNat, Nat.mod_eq_of_lt (by omega)]
  omega

theorem mem_windowCounters {c j : Dword} {w : Nat} :
    j ∈ windowCounters c w ↔ c.toNat ≤ j.toNat + w ∧ j.toNat ≤ c.toNat + w := by
  have bound : j.toNat < 2 ^ 64 := j.isLt
  rw [windowCounters, List.mem_map]
  constructor
  · rintro ⟨i, clipped, rfl⟩
    have value := toNat_ofNat_of_mem_clipped clipped
    obtain ⟨k, hk, rfl⟩ := List.mem_map.mp (List.mem_filter.mp clipped).1
    rw [List.mem_range] at hk
    omega
  · rintro ⟨low, high⟩
    refine ⟨j.toNat, List.mem_filter.mpr ⟨List.mem_map.mpr ⟨j.toNat + w - c.toNat, ?_, ?_⟩, ?_⟩, ?_⟩
    · rw [List.mem_range]; omega
    · omega
    · simp only [Bool.and_eq_true, decide_eq_true_eq]; omega
    · rw [Int.toNat_natCast, BitVec.ofNat_toNat, BitVec.setWidth_eq]

/-- The clipping keeps the increasing order, and the u64 values follow it. -/
theorem windowCounters_pairwise (c : Dword) (w : Nat) :
    (windowCounters c w).Pairwise fun x y => x.toNat < y.toNat := by
  have rising : ((List.range (2 * w + 1)).map fun (k : Nat) => (c.toNat : Int) - w + k).Pairwise (· < ·) :=
    List.pairwise_map.mpr (List.pairwise_lt_range.imp fun less => by omega)
  refine List.pairwise_map.mpr ((rising.filter _).imp_of_mem fun inX inY less => ?_)
  have valueX := toNat_ofNat_of_mem_clipped inX
  have valueY := toNat_ofNat_of_mem_clipped inY
  omega

/-- The counters tried are consecutive numbers: `windowCount` of them, from `c - w` or 0 on. -/
theorem windowCounters_map_toNat (c : Dword) (w : Nat) :
    (windowCounters c w).map BitVec.toNat = List.range' (c.toNat - w) (windowCount c.toNat w) := by
  refine (List.pairwise_map.mpr (windowCounters_pairwise c w)).eq_of_mem_iff List.pairwise_lt_range' fun j => ?_
  have bound : c.toNat < 2 ^ 64 := c.isLt
  rw [List.mem_range'_1, windowCount, List.mem_map]
  constructor
  · rintro ⟨x, inWindow, rfl⟩
    have xBound : x.toNat < 2 ^ 64 := x.isLt
    have := mem_windowCounters.mp inWindow
    omega
  · intro inRange
    have value : (BitVec.ofNat 64 j).toNat = j := Nat.mod_eq_of_lt (by omega)
    exact ⟨BitVec.ofNat 64 j, mem_windowCounters.mpr (by omega), value⟩

theorem windowCounters_length (c : Dword) (w : Nat) : (windowCounters c w).length = windowCount c.toNat w := by
  rw [← List.length_map, windowCounters_map_toNat, List.length_range']

/-- The centre of the window is always tried. -/
theorem self_mem_windowCounters (c : Dword) (w : Nat) : c ∈ windowCounters c w :=
  mem_windowCounters.mpr ⟨Nat.le_add_right _ _, Nat.le_add_right _ _⟩

/-- The window of width 0 is its centre alone. -/
theorem windowCounters_zero (c : Dword) : windowCounters c 0 = [c] := by
  have bound : c.toNat < 2 ^ 64 := c.isLt
  have single : (windowCounters c 0).length = 1 := by rw [windowCounters_length, windowCount]; omega
  obtain ⟨j, only⟩ := List.length_eq_one_iff.mp single
  have centre := self_mem_windowCounters c 0
  rw [only, List.mem_singleton] at centre
  rw [only, centre]

/-- Settles O34: the count is that of the clipped interval, which loses at most w counters at either end. -/
theorem windowCountersAreTheClippedInterval : Obligations.WindowCountersAreTheClippedInterval := by
  intro c w narrow
  have bound : c.toNat < 2 ^ 64 := c.isLt
  have count : w + 1 ≤ windowCount c.toNat w ∧ windowCount c.toNat w ≤ 2 * w + 1 := by
    unfold windowCount
    omega
  rw [← windowCounters_length] at count
  exact ⟨fun _ => mem_windowCounters, windowCounters_pairwise c w, count⟩

end Sys2Proof.Machine
end

section
/-! The functions of VALIDATE and VALIDATE.L on legal operands (R370 to R375), and both at WINDOW = 0 (R380). Settles
WindowZeroEqualsLegacy. -/

namespace Sys2Proof.Machine

section
variable {p : Config.Platform} {d : Draws} {S : Regs} {K : List Byte}

/-! ## The command functions on legal operands -/

/-- VALIDATE's parameter checks are TOTP's, CAND_LEN's and WINDOW's (R401). -/
theorem paramBad_validate (S : Regs) : paramBad .validate S = (paramBad .totp S || S.badCandLen || S.badWindow) := by
  rw [paramBad_eq, paramBad_eq, Bool.true_and]

/-- VALIDATE.L's parameter checks are TOTP's and CAND_LEN's (R401). -/
theorem paramBad_validateL (S : Regs) : paramBad .validateL S = (paramBad .totp S || S.badCandLen) := by
  rw [paramBad_eq, paramBad_eq, Bool.false_and, Bool.or_false]

theorem validateFront_ok {windowed : Bool}
    (legal : (S.badDigits || S.badTstep || S.badSecretLen || S.badCandLen || (windowed && S.badWindow)) = false)
    (decodes : base32Decode S.secretText = .ok K) :
    validateFront S windowed = .ok ⟨K, timeCounter S, S.digits.toNat⟩ := by
  obtain ⟨bad, -⟩ | ⟨-, ⟨fails, -⟩ | ⟨K', decodes', front⟩⟩ := validateFront_cases S windowed
  · rw [legal] at bad; contradiction
  · rw [decodes] at fails; contradiction
  · rw [decodes] at decodes'; cases decodes'; exact front

theorem validateCmd_ok (legal : paramBad .validate S = false) (decodes : base32Decode S.secretText = .ok K)
    (draws : drawsHold p d (drawsNeeded .validate S) = true) :
    validateCmd p d S =
      (.ok [.matched ((windowCounters (timeCounter S) S.window.toInt.toNat).any fun j =>
        codeEq S.candText (hotpValue K j S.digits.toNat).text)], d.skip (drawsNeeded .validate S)) := by
  rw [paramBad_eq] at legal
  have count : (windowCounters (timeCounter S) S.windowInt.toNat).length = drawsNeeded .validate S := by
    rw [windowCounters_length, timeCounter_toNat]
    rfl
  obtain ⟨-, scan⟩ | ⟨fails, -⟩ := validateScan_eq p K S.digits.toNat S.candText
    (windowCounters (timeCounter S) S.windowInt.toNat) false d
  · rw [validateCmd, validateFront_ok legal decodes]
    simp only [scan, count, Bool.false_or]
    rfl
  · rw [count, draws] at fails; contradiction

theorem validateLCmd_ok (legal : paramBad .validateL S = false) (decodes : base32Decode S.secretText = .ok K)
    (draw : d.head p = true) :
    validateLCmd p d S =
      (.ok [.matched (codeEq S.candText (hotpValue K (timeCounter S) S.digits.toNat).text)], d.skip 1) := by
  rw [paramBad_eq] at legal
  rw [validateLCmd, validateFront_ok legal decodes]
  simp only [hotpCore_true draw]

/-! ## WINDOW = 0 (R380) -/

/-- A legal WINDOW adds nothing to the front end's checks. -/
theorem validateFront_of_legal_window (legal : S.badWindow = false) : validateFront S true = validateFront S false := by
  rw [validateFront, legal]
  rfl

theorem validateCmd_of_window_zero (p : Config.Platform) (d : Draws) (zero : S.window = 0#32) :
    validateCmd p d S = validateLCmd p d S := by
  have legal : S.badWindow = false := by rw [badWindow_false, zero]; decide
  have width : S.windowInt.toNat = 0 := by rw [Regs.windowInt, zero]; rfl
  rw [validateCmd, validateLCmd, validateFront_of_legal_window legal, width]
  cases validateFront S false with
  | error e => rfl
  | ok f =>
    cases draw : d.head p with
    | false => simp only [windowCounters_zero, validateScan, hotpCore_false draw]
    | true => simp only [windowCounters_zero, validateScan, hotpCore_true draw, Bool.false_or]

end

/-- Settles O35: the window of width 0 holds the current counter alone, the one VALIDATE.L computes. -/
theorem windowZeroEqualsLegacy : Obligations.WindowZeroEqualsLegacy := by
  intro s cur S busy zero
  rw [exec_busy busy, exec_busy busy, cmdOf, cmdOf, validateCmd_of_window_zero _ _ zero]

end Sys2Proof.Machine
end

section
/-! The code of a TOTP that succeeds, and its validation by both validators (R378). Settles TotpCodeValidates. -/

namespace Sys2Proof.Machine

/-! ## The code TOTP commits (R340) -/

/-- After TOTP's writes CODE_LEN is the number of digits, and CODE starts with the code's text. -/
theorem code_totpWrites (r : Regs) (K : List Byte) (c : Dword) {n : Nat} (hn : n ≤ 9) :
    (r.applyWrites (totpWrites K c n)).codeLen.toNat = n ∧
      (r.applyWrites (totpWrites K c n)).mem.readBytes (bufBase .code) n = (hotpValue K c n).text := by
  obtain ⟨-, -, length⟩ := hotpValue_lengths K c n
  rw [totpWrites, applyWrites_append, applyWrites_cons, hotpWrites_regs]
  constructor
  · exact Nat.mod_eq_of_lt (show n < 2 ^ 4 by omega)
  · have text := readBytes_writeBytes_append_left (a := bufBase .code) (front := (hotpValue K c n).text)
    rw [length] at text
    exact text _ _

/-- What stands behind a TOTP that ended without error: legal parameters, a decoded key, and the code of the counter at
NOW in CODE. -/
theorem totp_success {s t : State} {cur : Word} {S : Regs} (busy : s.seq = .busy cur S) (runs : exec .totp s = .next t)
    (success : t.regs.err = false) :
    paramBad .totp S = false ∧ t.regs.codeLen.toNat = S.digits.toNat ∧
      ∃ K, base32Decode S.secretText = .ok K ∧
        t.regs.buf .code S.digits.toNat = (hotpValue K (timeCounter S) S.digits.toNat).text := by
  have returns := exec_busy busy .totp
  rw [runs, cmdOf] at returns
  injection returns with result
  subst result
  rw [paramBad_eq]
  obtain ⟨-, e⟩ | ⟨legal, ⟨-, e⟩ | ⟨K, decodes, ⟨-, e⟩ | ⟨-, e⟩⟩⟩ := totpCmd_cases s.platform s.draws S
  case inl | inr.inl | inr.inr.inl => simp [e] at success
  case inr.inr.inr =>
    have digits : S.badDigits = false := by
      rw [Bool.or_eq_false_iff, Bool.or_eq_false_iff] at legal
      exact legal.1.1
    obtain ⟨codeLen, code⟩ := code_totpWrites s.regs K (timeCounter S) (badDigits_false.mp digits).2
    simp only [e, completeDrawn_regs, complete_ok, succeed_regs, Regs.buf]
    exact ⟨legal, codeLen, K, decodes, code⟩

/-! ## Inputs TOTP and the validators share (R378) -/

/-- Two snapshots agree on the inputs of TOTP: DIGITS, TSTEP, NOW and `SECRET[0..SECRET_LEN)`. -/
structure SameTotpInputs (U S : Regs) : Prop where
  digits : U.digits = S.digits
  tstep : U.tstep = S.tstep
  nowHi : U.nowHi = S.nowHi
  nowLo : U.nowLo = S.nowLo
  secretLen : U.secretLen = S.secretLen
  secretText : U.secretText = S.secretText

theorem SameTotpInputs.paramBad_totp_eq {U S : Regs} (same : SameTotpInputs U S) :
    paramBad .totp U = paramBad .totp S := by
  simp only [paramBad, same.digits, same.tstep, same.secretLen]

theorem SameTotpInputs.timeCounter_eq {U S : Regs} (same : SameTotpInputs U S) :
    timeCounter U = timeCounter S := by
  rw [timeCounter, timeCounter, Regs.now, Regs.now, same.tstep, same.nowHi, same.nowLo]

/-- A candidate that is the code of the current counter is found in every window around it. -/
theorem any_codeEq_windowCounters (K : List Byte) (c : Dword) (n w : Nat) :
    ((windowCounters c w).any fun j => codeEq (hotpValue K c n).text (hotpValue K j n).text) = true :=
  List.any_eq_true.mpr ⟨c, self_mem_windowCounters c w, beq_self_eq_true _⟩

/-- A command in flight that returns MATCH = 1 alone commits it and reports no error (R410). -/
theorem exec_commits_match {s : State} {cur : Word} {S : Regs} (busy : s.seq = .busy cur S) {i : Instr} {d : Draws}
    (returns : cmdOf i s.platform s.draws S = (.ok [.matched true], d)) :
    ∃ v, exec i s = .next v ∧ v.regs.err = false ∧ v.regs.matched = true :=
  ⟨_, exec_busy busy i, by rw [returns]; exact ⟨rfl, rfl⟩⟩

/-- Settles O36: the validators decode the same key and derive the same counter as TOTP, and that counter is in every
window. -/
theorem totpCodeValidates : Obligations.TotpCodeValidates := by
  intro s t u cur cur' S U busy runs success busyU digits tstep nowHi nowLo secretLen secretText candLen candText
  have same : SameTotpInputs U S := ⟨digits, tstep, nowHi, nowLo, secretLen, secretText⟩
  obtain ⟨legal, codeLen, K, decodes, code⟩ := totp_success busy runs success
  have totpLegal : paramBad .totp U = false := same.paramBad_totp_eq.trans legal
  have candLegal : U.badCandLen = false := by
    have narrow := t.regs.codeLen.isLt
    rw [badCandLen_false, candLen]
    omega
  have decodesU : base32Decode U.secretText = .ok K := by rw [secretText, decodes]
  have cand : U.candText = (hotpValue K (timeCounter U) U.digits.toNat).text := by
    rw [candText, codeLen, code, same.timeCounter_eq, digits]
  constructor
  · intro windowLow windowHigh draws
    have windowLegal := badWindow_false.mpr ⟨windowLow, windowHigh⟩
    have returns := validateCmd_ok (S := U) (by rw [paramBad_validate, totpLegal, candLegal, windowLegal]; rfl) decodesU
      draws
    rw [cand, any_codeEq_windowCounters] at returns
    exact exec_commits_match busyU returns
  · intro draw
    have returns := validateLCmd_ok (S := U) (by rw [paramBad_validateL, totpLegal, candLegal]; rfl) decodesU draw
    rw [cand, codeEq, beq_self_eq_true] at returns
    exact exec_commits_match busyU returns

end Sys2Proof.Machine
end

section
/-! The error a completion reports (R402), and what it leaves (R411). Settles ErrorCodeFollowsThePriority and
ErrorsChangeOnlyStatusAndTheCode. -/

namespace Sys2Proof.Machine

/-! ## The causes of R402 -/

section
variable {p : Config.Platform} {d : Draws} {S : Regs} {i : Instr}

theorem secretUndecodable_of_ok {K : List Byte} (h : base32Decode S.secretText = .ok K) :
    secretUndecodable S = false := by
  rw [secretUndecodable, h]

theorem secretUndecodable_of_error {e : ErrCode} (h : base32Decode S.secretText = .error e) :
    secretUndecodable S = true := by
  rw [secretUndecodable, h]

@[simp] theorem drawsHold_zero (p : Config.Platform) (d : Draws) : drawsHold p d 0 = true := rfl

@[simp] theorem drawsHold_one (p : Config.Platform) (d : Draws) : drawsHold p d 1 = d.head p := by
  simp [drawsHold]

/-- The causes that apply to a legal word do not include IllegalCommand. -/
theorem expectedError_ne_illegalCommand : expectedError i S p d ≠ some .illegalCommand := by
  unfold expectedError
  split_ifs <;> simp

end

/-! ## The error each command's function returns -/

/-- The error a function of the snapshot returns, if it returns one (R13). -/
def errorOf {α : Type} : Except ErrCode α → Option ErrCode
  | .ok _ => none
  | .error e => some e

@[simp] theorem errorOf_ok {α : Type} (x : α) : errorOf (.ok x) = none := rfl
@[simp] theorem errorOf_error {α : Type} (e : ErrCode) : errorOf (.error e : Except ErrCode α) = some e := rfl

variable (p : Config.Platform) (d : Draws) (S : Regs)

theorem errorOf_decodeCmd : errorOf (decodeCmd S) = expectedError .decode S p d := by
  rw [decodeCmd, expectedError, paramBad_eq, secretBad, drawsNeeded, drawsHold_zero]
  cases legal : S.badSecretLen with
  | true => simp
  | false =>
    cases decodes : base32Decode S.secretText with
    | error e => simp [base32Decode_error decodes, secretUndecodable_of_error decodes]
    | ok K => simp [secretUndecodable_of_ok decodes]

theorem errorOf_formatCmd : errorOf (formatCmd S) = expectedError .format S p d := by
  rw [formatCmd, expectedError, paramBad_eq, secretBad, drawsNeeded, drawsHold_zero]
  cases S.badDigits <;> rfl

theorem errorOf_tremCmd : errorOf (tremCmd S) = expectedError .trem S p d := by
  rw [tremCmd, expectedError, paramBad_eq, secretBad, drawsNeeded, drawsHold_zero]
  cases S.badTstep <;> rfl

theorem errorOf_hmacCmd : errorOf (hmacCmd p d S).1 = expectedError .hmac S p d := by
  rw [expectedError, paramBad_eq, secretBad, drawsNeeded, drawsHold_one]
  obtain ⟨bad, e⟩ | ⟨legal, empty, e⟩ | ⟨legal, key, draw, e⟩ | ⟨legal, key, draw, e⟩ := hmacCmd_cases p d S
  · rw [e, bad]; rfl
  · simp [e, legal, empty]
  · simp [e, legal, key, draw]
  · simp [e, legal, key, draw]

theorem errorOf_hotpCmd : errorOf (hotpCmd p d S).1 = expectedError .hotp S p d := by
  rw [expectedError, paramBad_eq, secretBad, drawsNeeded, drawsHold_one]
  obtain ⟨bad, e⟩ | ⟨legal, empty, e⟩ | ⟨legal, key, draw, e⟩ | ⟨legal, key, draw, e⟩ := hotpCmd_cases p d S
  · rw [e, bad]; rfl
  · simp [e, legal, empty]
  · simp [e, legal, key, draw]
  · simp [e, legal, key, draw]

theorem errorOf_totpCmd : errorOf (totpCmd p d S).1 = expectedError .totp S p d := by
  rw [expectedError, paramBad_eq, secretBad, drawsNeeded, drawsHold_one]
  obtain ⟨bad, e⟩ | ⟨legal, ⟨fails, e⟩ | ⟨K, decodes, ⟨draw, e⟩ | ⟨draw, e⟩⟩⟩ := totpCmd_cases p d S
  · rw [e, bad]; rfl
  · rw [e, legal, secretUndecodable_of_error fails]; rfl
  · rw [e, legal, secretUndecodable_of_ok decodes, draw]; rfl
  · rw [e, legal, secretUndecodable_of_ok decodes, draw]; rfl

theorem errorOf_validateCmd : errorOf (validateCmd p d S).1 = expectedError .validate S p d := by
  have count : (windowCounters (timeCounter S) S.windowInt.toNat).length = drawsNeeded .validate S := by
    rw [windowCounters_length, timeCounter_toNat]
    rfl
  rw [validateCmd, expectedError, paramBad_eq, secretBad, ← count]
  obtain ⟨bad, front⟩ | ⟨legal, ⟨fails, front⟩ | ⟨K, decodes, front⟩⟩ := validateFront_cases S true
  · rw [front, bad]; rfl
  · rw [front, legal, secretUndecodable_of_error fails]; rfl
  · rw [front, legal, secretUndecodable_of_ok decodes]
    obtain ⟨draws, scan⟩ | ⟨draws, k, -, scan⟩ := validateScan_eq p K S.digits.toNat S.candText
      (windowCounters (timeCounter S) S.windowInt.toNat) false d
    · simp [scan, draws]
    · simp [scan, draws]

theorem errorOf_validateLCmd : errorOf (validateLCmd p d S).1 = expectedError .validateL S p d := by
  rw [validateLCmd, expectedError, paramBad_eq, secretBad, drawsNeeded, drawsHold_one]
  obtain ⟨bad, front⟩ | ⟨legal, ⟨fails, front⟩ | ⟨K, decodes, front⟩⟩ := validateFront_cases S false
  · rw [front, bad]; rfl
  · rw [front, legal, secretUndecodable_of_error fails]; rfl
  · rw [front, legal, secretUndecodable_of_ok decodes]
    cases draw : d.head p with
    | false => simp [hotpCore_false draw]
    | true => simp [hotpCore_true draw]

/-- The function of every command returns the error R402 puts first, and none where no cause applies. -/
theorem errorOf_cmdOf (i : Instr) : errorOf (cmdOf i p d S).1 = expectedError i S p d := by
  cases i with
  | decode => exact errorOf_decodeCmd p d S
  | encctr | trunc => rfl
  | hmac => exact errorOf_hmacCmd p d S
  | format => exact errorOf_formatCmd p d S
  | hotp => exact errorOf_hotpCmd p d S
  | totp => exact errorOf_totpCmd p d S
  | trem => exact errorOf_tremCmd p d S
  | validate => exact errorOf_validateCmd p d S
  | validateL => exact errorOf_validateLCmd p d S

/-! ## The report in STATUS -/

/-- ERR and ERRCODE after a completion are the function's error, or 0 (R410, R411). -/
theorem complete_report (s : State) (r : CmdResult) :
    (s.complete r).regs.err = (errorOf r).isSome ∧
      (s.complete r).regs.errcode = ((errorOf r).map ErrCode.code).getD 0#4 := by
  cases r <;> exact ⟨rfl, rfl⟩

theorem completion_of_decode_ok {s : State} {cur : Word} {S : Regs} {i : Instr} (busy : s.seq = .busy cur S)
    (legal : decode cur = .ok i) : completion s = exec i s := by
  simp only [completion, busy, legal]

theorem completion_of_decode_error {s : State} {cur : Word} {S : Regs} {why : Illegal} (busy : s.seq = .busy cur S)
    (illegal : decode cur = .error why) : completion s = .next (s.fail .illegalCommand) := by
  simp only [completion, busy, illegal]

theorem step_engine {s : State} {rest : List Turn} (turn : s.script = .engine :: rest) :
    step s = completion { s with script := rest } := by
  simp only [step, takeTurn, turn]

/-- Settles O7: an illegal word fails at once; a command's function returns the error of R402, which STATUS reports. -/
theorem errorCodeFollowsThePriority : Obligations.ErrorCodeFollowsThePriority := by
  intro s cur S rest busy turn
  have busy' : ({ s with script := rest } : State).seq = .busy cur S := busy
  rw [step_engine turn]
  cases decoded : decode cur with
  | error why =>
    exact ⟨_, completion_of_decode_error busy' decoded, fun _ _ => ⟨rfl, rfl⟩, nofun⟩
  | ok i =>
    refine ⟨_, (completion_of_decode_ok busy' decoded).trans (exec_busy busy' i), nofun, ?_⟩
    rintro _ ⟨⟩
    obtain ⟨err, errcode⟩ := complete_report { s with script := rest } (cmdOf i s.platform s.draws S).1
    rw [errorOf_cmdOf] at err errcode
    rw [completeDrawn_regs, err, errcode]
    cases reported : expectedError i S s.platform s.draws with
    | none => exact ⟨rfl, rfl⟩
    | some e =>
      cases e with
      | illegalCommand => exact expectedError_ne_illegalCommand reported
      | invalidSecretEncoding | cryptoBackendFailure | invalidParameters => exact ⟨rfl, rfl⟩

/-- Settles O8: only a function that returns an error sets ERR, and its completion is the one of R411. -/
theorem errorsChangeOnlyStatusAndTheCode : Obligations.ErrorsChangeOnlyStatusAndTheCode := by
  intro i s t cur S busy runs failed
  rw [exec_busy busy] at runs
  injection runs with result
  subst result
  generalize cmdOf i s.platform s.draws S = returned at failed ⊢
  obtain ⟨e | W, d⟩ := returned
  · exact ⟨e, rfl, fail_failsWith s e d⟩
  · simp at failed

end Sys2Proof.Machine
end

section
/-! The interrupt output (R420, R421): what each event leaves on it, and that no other step moves it. Settles
InterruptFollowsDoneAndEnable. -/

namespace Sys2Proof.Machine

/-! ## What asserts irq (R420) -/

/-- Every completion ends with SEQ = IDLE and DONE = 1, and keeps IRQ_EN (R410, R411). -/
theorem complete_outcome (s : State) (r : CmdResult) :
    (s.complete r).seq = .idle ∧ (s.complete r).regs.done = true ∧ (s.complete r).regs.irqEn = s.regs.irqEn := by
  cases r with
  | error e => exact ⟨rfl, rfl, rfl⟩
  | ok W =>
    obtain ⟨irqEn, -⟩ := applyWrites_inputs s.regs W
    exact ⟨rfl, rfl, irqEn⟩

/-- The completion of a command in flight, of a legal or an illegal word, sets DONE and keeps IRQ_EN. -/
theorem completion_of_busy {s t : State} (busy : s.seq ≠ .idle) (runs : completion s = .next t) :
    t.seq = .idle ∧ t.regs.done = true ∧ t.regs.irqEn = s.regs.irqEn := by
  obtain ⟨idle, -⟩ | ⟨cur, S, i, inFlight, -, runs⟩ | ⟨cur, S, why, -, -, rfl⟩ := completion_cases runs
  · contradiction
  · rw [exec_busy inFlight] at runs
    injection runs with result
    subst result
    exact complete_outcome s (cmdOf i s.platform s.draws S).1
  · exact complete_outcome s (.error .illegalCommand)

/-! ## What a host write does to irq (R421) -/

theorem hostWrite_ctrl_irq (s : State) (v : Word) :
    (hostWrite s v (.reg .ctrl)).irq = (s.regs.done && v.getLsbD 0 && !v.getLsbD 1) := by
  rw [hostWrite, State.writeCtrl]
  cases v.getLsbD 1 with
  | true => rw [Bool.not_true, Bool.and_false]; rfl
  | false => rw [Bool.not_false, Bool.and_true]; rfl

theorem hostWrite_status_irq (s : State) {v : Word} (clears : v.getLsbD 1 = true) :
    (hostWrite s v (.reg .status)).irq = false := by
  simp [hostWrite, State.irq, Regs.writeStatus, clears]

theorem hostWrite_cmd_irq {s : State} (idle : s.seq = .idle) (w : Word) :
    (hostWrite s w (.reg .cmd)).irq = false := by
  rw [hostWrite, busy_of_seq_idle idle]
  rfl

/-- A step at a write to a register, the reset input released, leaves irq as the write does. -/
theorem step_writeTurn_irq {s : State} (released : s.resetHeld = false) (r : RegName) {v : Word} {rest : List Turn}
    (turn : s.script = writeTurn s (regOffset r) v :: rest) :
    ∃ t, step s = .next t ∧ t.irq = (hostWrite { s with script := rest } v (.reg r)).irq := by
  obtain ⟨inWindow, aligned⟩ := regOffset_lt r
  refine ⟨_, step_writeTurn inWindow aligned turn, ?_⟩
  rw [windowAccess_write (s := { s with script := rest }) released, slotAt_regOffset]
  rfl

/-- The writes that can move irq are those of CTRL, of STATUS with a 1 in bit 1, and of CMD on an idle engine. -/
theorem hostWrite_irq_cases (s : State) (v : Word) (sl : Slot) :
    (hostWrite s v sl).irq = s.irq ∨ sl = .reg .ctrl ∨ (sl = .reg .status ∧ v.getLsbD 1 = true) ∨
      (sl = .reg .cmd ∧ s.seq = .idle) := by
  match sl with
  | .reserved => exact .inl rfl
  | .word b k =>
    left
    rw [hostWrite]
    split_ifs <;> rfl
  | .reg r =>
    cases r with
    | ctrl => exact .inr (.inl rfl)
    | status =>
      cases bit : v.getLsbD 1 with
      | true => exact .inr (.inr (.inl ⟨rfl, rfl⟩))
      | false => left; rw [hostWrite, State.irq, Regs.writeStatus, bit, Bool.not_false, Bool.and_true]; rfl
    | cmd =>
      cases seq : s.seq with
      | idle => exact .inr (.inr (.inr ⟨rfl, rfl⟩))
      | busy cur S => left; rw [hostWrite, busy_of_seq_busy seq]; rfl
    | digits | tstep | window | secretLen | keyLen | candLen | nowLo | nowHi | counterLo | counterHi | trunc =>
      left
      simp only [hostWrite]
      split_ifs <;> rfl
    | id | trem | offset | codeBin | codeLen => exact .inl rfl

/-! ## What can change irq -/

/-- A register's slot stands at its own offset of the table alone. -/
theorem slotAt_eq_reg {off : Nat} {r : RegName} (h : slotAt off = .reg r) : off = regOffset r := by
  unfold slotAt at h
  split at h
  · rename_i found
    cases h
    have here := List.find?_some found
    exact (of_decide_eq_true here).symm
  · split at h <;> cases h

/-- A host access that changes irq is one of R421's writes. -/
theorem busAccess_irq_cases {a : Access} {s t : State} (access : busAccess a s = .next t) (changes : t.irq ≠ s.irq) :
    ∃ off v, Turn.access a = writeTurn s off v ∧
      (off = 0x004 ∨ (off = 0x00C ∧ v.getLsbD 1 = true) ∨ (off = 0x008 ∧ s.seq = .idle)) := by
  obtain ⟨addr, size, op⟩ := a
  obtain rfl | ⟨off, -, -, addressed, rfl⟩ := busAccess_cases access
  · cases op <;> exact absurd rfl changes
  cases op with
  | read => exact absurd rfl changes
  | write v =>
    refine ⟨off, v, congrArg Turn.access addressed, ?_⟩
    cases held : s.resetHeld with
    | true => rw [windowAccess_write_held held] at changes; exact absurd rfl changes
    | false =>
      rw [windowAccess_write held] at changes
      obtain same | slot | ⟨slot, bit⟩ | ⟨slot, idle⟩ := hostWrite_irq_cases s v (slotAt off)
      · exact absurd same changes
      · exact .inl (slotAt_eq_reg slot)
      · exact .inr (.inl ⟨slotAt_eq_reg slot, bit⟩)
      · exact .inr (.inr ⟨slotAt_eq_reg slot, idle⟩)

/-- A completion step that changes irq is the completion of a command in flight. -/
theorem completion_changes_irq {s t : State} (runs : completion s = .next t) (changes : t.irq ≠ s.irq) :
    s.seq ≠ .idle ∧ t.seq = .idle ∧ t.regs.done = true := by
  have busy : s.seq ≠ .idle := by
    intro idle
    simp only [completion, idle] at runs
    cases runs
    exact changes rfl
  obtain ⟨ended, done, -⟩ := completion_of_busy busy runs
  exact ⟨busy, ended, done⟩

/-- Every step that changes irq is at one of the events of R420 and R421. -/
theorem step_changes_irq {s t : State} (runs : step s = .next t) (changes : t.irq ≠ s.irq) :
    (s.seq ≠ .idle ∧ t.seq = .idle ∧ t.regs.done = true) ∨ s.resetsNext ∨
    (∃ v rest, s.script = writeTurn s 0x004 v :: rest) ∨
    (∃ v rest, v.getLsbD 1 = true ∧ s.script = writeTurn s 0x00C v :: rest) ∨
    ∃ w rest, s.seq = .idle ∧ s.script = writeTurn s 0x008 w :: rest := by
  obtain runs | ⟨a, rest, turn, access⟩ | ⟨rest, -, -, rfl⟩ | ⟨rest, -, -, rfl⟩ | ⟨rest, -, runs⟩ | ⟨rest, turn, -⟩ |
    ⟨rest, -, rfl⟩ := step_cases runs
  · exact .inl (completion_changes_irq runs changes)
  · obtain ⟨off, v, write, rfl | ⟨rfl, bit⟩ | ⟨rfl, idle⟩⟩ := busAccess_irq_cases access changes
    all_goals rw [write] at turn
    · exact .inr (.inr (.inl ⟨v, rest, turn⟩))
    · exact .inr (.inr (.inr (.inl ⟨v, rest, bit, turn⟩)))
    · exact .inr (.inr (.inr (.inr ⟨v, rest, idle, turn⟩)))
  · exact absurd rfl changes
  · exact absurd rfl changes
  · exact .inl (completion_changes_irq (s := { s with script := rest }) runs changes)
  · exact .inr (.inl (.inl ⟨rest, turn⟩))
  · exact absurd rfl changes

/-- Settles O54: irq is DONE & IRQ_EN, which a completion, a reset and the three writes set, and no other step. -/
theorem interruptFollowsDoneAndEnable : Obligations.InterruptFollowsDoneAndEnable := by
  refine ⟨fun s t busy runs => ?_, fun s v rest released turn => ?_, fun s v rest released clears turn => ?_,
    fun s w rest released idle turn => ?_, fun s rest turn => ?_, fun s t => step_changes_irq⟩
  · obtain ⟨-, done, irqEn⟩ := completion_of_busy busy runs
    rw [State.irq, done, irqEn, Bool.true_and]
  · obtain ⟨t, runs, irq⟩ := step_writeTurn_irq released .ctrl turn
    exact ⟨t, runs, irq.trans (hostWrite_ctrl_irq _ v)⟩
  · obtain ⟨t, runs, irq⟩ := step_writeTurn_irq released .status turn
    exact ⟨t, runs, irq.trans (hostWrite_status_irq _ clears)⟩
  · obtain ⟨t, runs, irq⟩ := step_writeTurn_irq released .cmd turn
    exact ⟨t, runs, irq.trans (hostWrite_cmd_irq (s := { s with script := rest }) idle w)⟩
  · exact ⟨({ s with script := rest } : State).assertReset, by simp only [step, takeTurn, turn], rfl⟩

end Sys2Proof.Machine
end

section
/-! What exec leaves, said once for every command: the writes a command's function can return (R133), and the registers
and the rest of the state after its completion (R410, R411). Settles EveryCommandCompletes,
IllegalWordsEndInIllegalCommand, CommandsNeverChangeTheInputs and ResultsChangeOnlyUnderTheirCommands. -/

namespace Sys2Proof.Machine

/-! ## The writes a command's function returns (R133) -/

/-- The result sets W that a command can return on the snapshot S, with what is known of their operands. -/
inductive MayReturn (S : Regs) : Instr → List RegWrite → Prop where
  | decode (K : List Byte) (fits : K.length ≤ 160) : MayReturn S .decode (keyWrites K)
  | encctr : MayReturn S .encctr [.ctrBytes (encodeCounter S.counter)]
  | hmac : MayReturn S .hmac [.digest (hmacSha1 S.keyBytes S.message)]
  | trunc : MayReturn S .trunc [.offset (dynTrunc S.digestBuf).1, .trunc (dynTrunc S.digestBuf).2]
  | format (legal : S.badDigits = false) :
      MayReturn S .format (codeWrites (codeNumber S.trunc S.digits.toNat) S.digits.toNat)
  | hotp (legal : S.badDigits = false) :
      MayReturn S .hotp (hotpWrites (hotpValue S.keyBytes S.counter S.digits.toNat) S.digits.toNat)
  | totp (legal : S.badDigits = false) (K : List Byte) (fits : K.length ≤ 160) :
      MayReturn S .totp (totpWrites K (timeCounter S) S.digits.toNat)
  | trem (v : BitVec 32) : MayReturn S .trem [.trem v]
  | validate (m : Bool) : MayReturn S .validate [.matched m]
  | validateL (m : Bool) : MayReturn S .validateL [.matched m]

section
variable {p : Config.Platform} {d d' : Draws} {S : Regs} {W : List RegWrite}

theorem mayReturn_of_decodeCmd (h : decodeCmd S = .ok W) : MayReturn S .decode W := by
  rw [decodeCmd] at h
  cases legal : S.badSecretLen with
  | true => simp [legal] at h
  | false =>
    cases decodes : base32Decode S.secretText with
    | error e => simp [legal, decodes] at h
    | ok K =>
      simp only [legal, decodes, Bool.false_eq_true, if_false, Except.ok.injEq] at h
      subst h
      exact .decode K (secretKey_length_le legal decodes)

theorem mayReturn_of_formatCmd (h : formatCmd S = .ok W) : MayReturn S .format W := by
  rw [formatCmd] at h
  cases legal : S.badDigits with
  | true => simp [legal] at h
  | false =>
    simp only [legal, Bool.false_eq_true, if_false, Except.ok.injEq] at h
    subst h
    exact .format legal

theorem mayReturn_of_tremCmd (h : tremCmd S = .ok W) : MayReturn S .trem W := by
  rw [tremCmd] at h
  split at h
  · cases h
  · cases h; exact .trem _

theorem mayReturn_of_hmacCmd (h : (hmacCmd p d S).1 = .ok W) : MayReturn S .hmac W := by
  obtain ⟨-, e⟩ | ⟨-, -, e⟩ | ⟨-, -, -, e⟩ | ⟨-, -, -, e⟩ := hmacCmd_cases p d S
  all_goals rw [e] at h; cases h
  exact .hmac

theorem mayReturn_of_hotpCmd (h : (hotpCmd p d S).1 = .ok W) : MayReturn S .hotp W := by
  obtain ⟨-, e⟩ | ⟨-, -, e⟩ | ⟨-, -, -, e⟩ | ⟨legal, -, -, e⟩ := hotpCmd_cases p d S
  all_goals rw [e] at h; cases h
  obtain ⟨digits, -⟩ := Bool.or_eq_false_iff.mp legal
  exact .hotp digits

theorem mayReturn_of_totpCmd (h : (totpCmd p d S).1 = .ok W) : MayReturn S .totp W := by
  obtain ⟨-, e⟩ | ⟨legal, ⟨-, e⟩ | ⟨K, decodes, ⟨-, e⟩ | ⟨-, e⟩⟩⟩ := totpCmd_cases p d S
  all_goals rw [e] at h; cases h
  obtain ⟨front, secret⟩ := Bool.or_eq_false_iff.mp legal
  obtain ⟨digits, -⟩ := Bool.or_eq_false_iff.mp front
  have result := MayReturn.totp (S := S) digits K (secretKey_length_le secret decodes)
  rwa [totpWrites] at result

theorem mayReturn_of_validateCmd (h : (validateCmd p d S).1 = .ok W) : MayReturn S .validate W := by
  rw [validateCmd] at h
  split at h
  · cases h
  · split at h
    · cases h
    · cases h; exact .validate _

theorem mayReturn_of_validateLCmd (h : (validateLCmd p d S).1 = .ok W) : MayReturn S .validateL W := by
  rw [validateLCmd] at h
  split at h
  · cases h
  · split at h
    · cases h
    · cases h; exact .validateL _

/-- A command's function returns no result set but its own. -/
theorem mayReturn_of_cmdOf {i : Instr} (h : cmdOf i p d S = (.ok W, d')) : MayReturn S i W := by
  have returns : (cmdOf i p d S).1 = .ok W := congrArg Prod.fst h
  cases i with
  | decode => exact mayReturn_of_decodeCmd returns
  | encctr => cases returns; exact .encctr
  | hmac => exact mayReturn_of_hmacCmd returns
  | trunc => cases returns; exact .trunc
  | format => exact mayReturn_of_formatCmd returns
  | hotp => exact mayReturn_of_hotpCmd returns
  | totp => exact mayReturn_of_totpCmd returns
  | trem => exact mayReturn_of_tremCmd returns
  | validate => exact mayReturn_of_validateCmd returns
  | validateL => exact mayReturn_of_validateLCmd returns

end

/-! ## The registers after a completion (R410, R411) -/

/-- The registers after an error completion (R411). -/
def Regs.failed (r : Regs) (e : ErrCode) : Regs :=
  { r.setBuf .code (List.replicate Config.codeBuf 0#8) with
    err := true, errcode := e.code, matched := false, codeValid := false, codeLen := 0#4, codeBin := 0#32
    done := true }

/-- The registers after the writes W are committed (R410). -/
def Regs.succeeded (r : Regs) (W : List RegWrite) : Regs :=
  { r.applyWrites W with err := false, errcode := 0#4, done := true }

/-! The registers after each result set that a command may return (R133). -/

section
variable (r : Regs)

@[simp] theorem succeeded_singleton (w : RegWrite) :
    r.succeeded [w] = { r.applyWrite w with err := false, errcode := 0#4, done := true } := rfl

@[simp] theorem succeeded_truncWrites (off : BitVec 4) (v : BitVec 31) :
    r.succeeded [.offset off, .trunc v] =
      { r with offset := off, trunc := v, err := false, errcode := 0#4, done := true } := rfl

@[simp] theorem succeeded_keyWrites (K : List Byte) :
    r.succeeded (keyWrites K) =
      { r with keyLen := BitVec.ofNat 16 K.length, mem := r.mem.writeBytes (bufBase .key) (padTo Config.keyMax K)
               err := false, errcode := 0#4, done := true } := by
  rw [Regs.succeeded, keyWrites_regs]

@[simp] theorem succeeded_codeWrites (c n : Nat) :
    r.succeeded (codeWrites c n) =
      { r with codeBin := BitVec.ofNat 32 c, codeLen := BitVec.ofNat 4 n, codeValid := true
               mem := r.mem.writeBytes (bufBase .code) (padTo Config.codeBuf (fmt c n))
               err := false, errcode := 0#4, done := true } := by
  rw [Regs.succeeded, codeWrites_regs]

@[simp] theorem succeeded_hotpWrites (h : HotpResult) (n : Nat) :
    r.succeeded (hotpWrites h n) =
      { r with offset := h.offset, trunc := h.trunc, codeBin := BitVec.ofNat 32 h.code, codeLen := BitVec.ofNat 4 n
               codeValid := true, err := false, errcode := 0#4, done := true
               mem := ((r.mem.writeBytes (bufBase .ctrBytes) h.message).writeBytes (bufBase .digest)
                 h.digest).writeBytes (bufBase .code) (padTo Config.codeBuf h.text) } := by
  rw [Regs.succeeded, hotpWrites_regs]

/-- TOTP commits DECODE's key, the counter, and HOTP's result (R340). -/
@[simp] theorem succeeded_totpWrites (K : List Byte) (c : Dword) (n : Nat) :
    r.succeeded (totpWrites K c n) =
      { (r.succeeded (keyWrites K)).succeeded (hotpWrites (hotpValue K c n) n) with
        counterHi := c.extractLsb' 32 32, counterLo := c.extractLsb' 0 32 } := by
  simp only [totpWrites, Regs.succeeded, applyWrites_append, applyWrites_cons, hotpWrites_regs, Regs.applyWrite]

end

theorem fail_regs_eq (s : State) (e : ErrCode) : (s.fail e).regs = s.regs.failed e := rfl

/-- The registers of the command in flight: those of a BUSY engine, or those an accept leaves (R110). -/
theorem issue_regs_cases (s : State) (i : Instr) :
    (s.issue i).regs = s.regs ∨ (s.issue i).regs = s.regs.statusCleared := by
  cases seq : s.seq with
  | idle => right; rw [issue_of_seq_idle seq]; rfl
  | busy cur S => left; rw [issue_of_seq_busy seq]

/-- Everything exec can leave in the registers: those of an error completion, or those of a result set that the command
may return, committed. -/
theorem exec_regs_cases {i : Instr} {s t : State} (h : exec i s = .next t) :
    (∃ e, t.regs = (s.issue i).regs.failed e) ∨
    ∃ W d, cmdOf i s.platform s.draws (s.issue i).snapshot = (.ok W, d) ∧ t.regs = (s.issue i).regs.succeeded W := by
  rw [exec_eq] at h
  cases h
  obtain ⟨e | W, d⟩ : CmdResult × Draws := cmdOf i s.platform s.draws (s.issue i).snapshot
  · exact .inl ⟨e, rfl⟩
  · exact .inr ⟨W, d, rfl, rfl⟩

/-- The registers of the command in flight differ from those before at most in the fields an accept clears. -/
theorem issue_mem (s : State) (i : Instr) : (s.issue i).regs.mem = s.regs.mem := by
  obtain same | cleared := issue_regs_cases s i
  · rw [same]
  · rw [cleared]; rfl

/-- Every command completes, and its completion keeps all of the state but the registers, the sequencer, the draws and
the mark of what the host observed. -/
theorem complete_own_fields (s : State) (r : CmdResult) :
    (s.complete r).script = s.script ∧ (s.complete r).resp = s.resp ∧ (s.complete r).platform = s.platform ∧
      (s.complete r).resetHeld = s.resetHeld := by
  cases r <;> simp

theorem complete_ovr (s : State) (r : CmdResult) : (s.complete r).regs.ovr = s.regs.ovr := by
  cases r with
  | error e => simp
  | ok W =>
    obtain ⟨-, ovr, -⟩ := applyWrites_inputs s.regs W
    simp [ovr]

/-- Settles O6: exec is the completion of the command in flight, which differs from the state by an accept at most. -/
theorem everyCommandCompletes : Obligations.EveryCommandCompletes := by
  intro i s
  let r := cmdOf i s.platform s.draws (s.issue i).snapshot
  obtain ⟨idle, done, irqEn⟩ := complete_outcome (s.issue i) r.1
  obtain ⟨script, resp, platform, held⟩ := complete_own_fields (s.issue i) r.1
  obtain ⟨script', resp', -, platform', held'⟩ := issue_own_fields s i
  have accepted : (s.issue i).regs.ovr = s.regs.ovr ∧ (s.issue i).regs.irqEn = s.regs.irqEn := by
    obtain same | cleared := issue_regs_cases s i
    · rw [same]; exact ⟨rfl, rfl⟩
    · rw [cleared]; exact ⟨rfl, rfl⟩
  exact ⟨_, exec_eq i s, idle, done, (complete_ovr _ _).trans accepted.1, irqEn.trans accepted.2,
    script.trans script', resp.trans resp', platform.trans platform', held.trans held'⟩

/-! ## Illegal words (R134) -/

/-- A word that is none of the table's is illegal. -/
theorem decode_error_of_ne_tableWord {w : Word} (h : ∀ i, w ≠ tableWord i) : ∃ why, decode w = .error why := by
  cases decoded : decode w with
  | error why => exact ⟨why, rfl⟩
  | ok i => exact absurd ((decode_eq_ok_iff.mp decoded).trans (encode_eq_tableWord i)) (h i)

/-- Settles O9: an illegal word's completion is the one error completion of R411, with no draw. -/
theorem illegalWordsEndInIllegalCommand : Obligations.IllegalWordsEndInIllegalCommand := by
  intro s cur S rest busy notOne turn
  obtain ⟨why, illegal⟩ := decode_error_of_ne_tableWord notOne
  refine ⟨_, (step_engine turn).trans (completion_of_decode_error (s := { s with script := rest }) busy illegal), ?_⟩
  have fails := fail_failsWith { s with script := rest } .illegalCommand s.draws
  rwa [completeDrawn_same] at fails

/-! ## What no command changes (R133) -/

/-- An error completion keeps every byte outside CODE. -/
theorem failed_read_other (r : Regs) (e : ErrCode) {a : Nat} (outside : bufHolds .code a = false) :
    (r.failed e).mem.read a = r.mem.read a := by
  change (r.mem.writeBytes (bufBase .code) (List.replicate 12 0#8)).read a = _
  rw [storedAt_eq, storedAt_eq_none (by simp [bufSize_eq]) outside, Option.getD_none]

/-- A committed result set keeps every byte of a buffer that the command does not store to. -/
theorem succeeded_read_other {i : Instr} {p : Config.Platform} {d d' : Draws} {S : Regs} {W : List RegWrite}
    (returns : cmdOf i p d S = (.ok W, d')) (r : Regs) {b : BufName} (other : b ∉ storesTo i) {a : Nat}
    (inside : bufHolds b a = true) : (r.succeeded W).mem.read a = r.mem.read a := by
  rw [Regs.succeeded]
  refine applyWrites_read_other (cmdOf_sized returns) fun w hw b' stored => ?_
  by_contra holds
  obtain rfl : b = b' := bufHolds_unique inside (by simpa using holds)
  exact other (cmdOf_buffers returns w hw b stored)

/-- A command keeps the bytes of every buffer it does not store to, but for the CODE buffer that an error clears. -/
theorem exec_read_other {i : Instr} {s t : State} (runs : exec i s = .next t) {b : BufName} (other : b ∉ storesTo i)
    (kept : b ≠ .code ∨ t.regs.err = false) {a : Nat} (inside : bufHolds b a = true) :
    t.regs.mem.read a = s.regs.mem.read a := by
  rw [← issue_mem s i]
  obtain ⟨e, regs⟩ | ⟨W, d, returns, regs⟩ := exec_regs_cases runs
  · rw [regs] at kept ⊢
    obtain notCode | clean := kept
    · apply failed_read_other
      by_contra holds
      exact notCode (bufHolds_unique inside (by simpa using holds))
    · cases clean
  · rw [regs]
    exact succeeded_read_other returns _ other inside

/-- A command keeps whatever the accept, an error and each of its result sets keep. What an error does not keep, a
command without error does. -/
theorem exec_keeps {α : Type} (f : Regs → α) {i : Instr} {s t : State} (runs : exec i s = .next t)
    (accept : ∀ r : Regs, f r.statusCleared = f r)
    (fails : (∀ (r : Regs) e, f (r.failed e) = f r) ∨ t.regs.err = false)
    (succeeds : ∀ (r S : Regs) W, MayReturn S i W → f (r.succeeded W) = f r) : f t.regs = f s.regs := by
  have issued : f (s.issue i).regs = f s.regs := by
    obtain same | cleared := issue_regs_cases s i
    · rw [same]
    · rw [cleared, accept]
  rw [← issued]
  obtain ⟨e, regs⟩ | ⟨W, d, returns, regs⟩ := exec_regs_cases runs
  · rw [regs] at fails ⊢
    obtain keeps | clean := fails
    · exact keeps _ e
    · cases clean
  · rw [regs]
    exact succeeds _ _ W (mayReturn_of_cmdOf returns)

/-- No command stores to an input buffer. -/
theorem inputs_not_stored (i : Instr) : .secret ∉ storesTo i ∧ .cand ∉ storesTo i := by
  cases i <;> decide

/-- The input registers that no command writes (R133). -/
def Regs.inputRegs (r : Regs) : BitVec 8 × Word × Word × BitVec 16 × BitVec 16 × Word × Word :=
  (r.digits, r.tstep, r.window, r.secretLen, r.candLen, r.nowLo, r.nowHi)

theorem succeeded_inputRegs (r : Regs) (W : List RegWrite) : (r.succeeded W).inputRegs = r.inputRegs := by
  obtain ⟨-, -, digits, tstep, window, secretLen, candLen, nowLo, nowHi⟩ := applyWrites_inputs r W
  simp only [Regs.inputRegs, Regs.succeeded, digits, tstep, window, secretLen, candLen, nowLo, nowHi]

/-- Settles O10: the accept, an error and every result set keep the input registers, and no command stores to SECRET or
CAND. -/
theorem commandsNeverChangeTheInputs : Obligations.CommandsNeverChangeTheInputs := by
  intro i s t runs
  have regs := exec_keeps Regs.inputRegs runs (fun _ => rfl) (.inl fun _ _ => by simp [Regs.failed, Regs.inputRegs])
    fun r _ W _ => succeeded_inputRegs r W
  obtain ⟨secret, cand⟩ := inputs_not_stored i
  simp only [Regs.inputRegs, Prod.mk.injEq] at regs
  obtain ⟨digits, tstep, window, secretLen, candLen, nowLo, nowHi⟩ := regs
  refine ⟨digits, tstep, window, secretLen, candLen, nowLo, nowHi, ?_⟩
  rintro a (inside | inside)
  · exact exec_read_other runs secret (.inl nofun) inside
  · exact exec_read_other runs cand (.inl nofun) inside

/-! ## What changes under some commands alone (R133) -/

section
variable {S : Regs} {i : Instr} {W : List RegWrite} (h : MayReturn S i W) (r : Regs)
include h

theorem MayReturn.trem_eq (other : i ≠ .trem) : (r.succeeded W).trem = r.trem := by
  cases h with
  | trem => contradiction
  | decode | encctr | hmac | trunc | format | hotp | totp | validate | validateL => simp [Regs.applyWrite]

theorem MayReturn.keyLen_eq (notDecode : i ≠ .decode) (notTotp : i ≠ .totp) : (r.succeeded W).keyLen = r.keyLen := by
  cases h with
  | decode | totp => contradiction
  | encctr | hmac | trunc | format | hotp | trem | validate | validateL => simp [Regs.applyWrite]

theorem MayReturn.counter_eq (other : i ≠ .totp) :
    ((r.succeeded W).counterHi, (r.succeeded W).counterLo) = (r.counterHi, r.counterLo) := by
  cases h with
  | totp => contradiction
  | decode | encctr | hmac | trunc | format | hotp | trem | validate | validateL => simp [Regs.applyWrite]

theorem MayReturn.truncation_eq (notTrunc : i ≠ .trunc) (notHotp : i ≠ .hotp) (notTotp : i ≠ .totp) :
    ((r.succeeded W).offset, (r.succeeded W).trunc) = (r.offset, r.trunc) := by
  cases h with
  | trunc | hotp | totp => contradiction
  | decode | encctr | hmac | format | trem | validate | validateL => simp [Regs.applyWrite]

theorem MayReturn.code_eq (notFormat : i ≠ .format) (notHotp : i ≠ .hotp) (notTotp : i ≠ .totp) :
    ((r.succeeded W).codeLen, (r.succeeded W).codeBin, (r.succeeded W).codeValid) =
      (r.codeLen, r.codeBin, r.codeValid) := by
  cases h with
  | format | hotp | totp => contradiction
  | decode | encctr | hmac | trunc | trem | validate | validateL => simp [Regs.applyWrite]

end

theorem key_mem_storesTo (i : Instr) : .key ∈ storesTo i ↔ i = .decode ∨ i = .totp := by
  cases i <;> decide

theorem ctrBytes_mem_storesTo (i : Instr) : .ctrBytes ∈ storesTo i ↔ i = .encctr ∨ i = .hotp ∨ i = .totp := by
  cases i <;> decide

theorem digest_mem_storesTo (i : Instr) : .digest ∈ storesTo i ↔ i = .hmac ∨ i = .hotp ∨ i = .totp := by
  cases i <;> decide

theorem code_mem_storesTo (i : Instr) : .code ∈ storesTo i ↔ i = .format ∨ i = .hotp ∨ i = .totp := by
  cases i <;> decide

/-- Settles O11, register by register from the result sets, and buffer by buffer from the buffers stored to. -/
theorem resultsChangeOnlyUnderTheirCommands : Obligations.ResultsChangeOnlyUnderTheirCommands := by
  intro i s t runs
  refine ⟨fun other => ?_, fun notDecode notTotp => ⟨?_, fun a inside => ?_⟩, fun other => ?_,
    fun notEncctr notHotp notTotp a inside => ?_, fun notHmac notHotp notTotp a inside => ?_,
    fun notTrunc notHotp notTotp => ?_, fun notFormat notHotp notTotp clean => ?_⟩
  · exact exec_keeps Regs.trem runs (fun _ => rfl) (.inl fun _ _ => by simp [Regs.failed])
      fun r _ _ h => h.trem_eq r other
  · exact exec_keeps Regs.keyLen runs (fun _ => rfl) (.inl fun _ _ => by simp [Regs.failed])
      fun r _ _ h => h.keyLen_eq r notDecode notTotp
  · have notStored : .key ∉ storesTo i := by simp [key_mem_storesTo, *]
    exact exec_read_other runs notStored (.inl nofun) inside
  · exact Prod.mk.inj (exec_keeps (fun r => (r.counterHi, r.counterLo)) runs (fun _ => rfl)
      (.inl fun _ _ => by simp [Regs.failed]) fun r _ _ h => h.counter_eq r other)
  · have notStored : .ctrBytes ∉ storesTo i := by simp [ctrBytes_mem_storesTo, *]
    exact exec_read_other runs notStored (.inl nofun) inside
  · have notStored : .digest ∉ storesTo i := by simp [digest_mem_storesTo, *]
    exact exec_read_other runs notStored (.inl nofun) inside
  · exact Prod.mk.inj (exec_keeps (fun r => (r.offset, r.trunc)) runs (fun _ => rfl)
      (.inl fun _ _ => by simp [Regs.failed]) fun r _ _ h => h.truncation_eq r notTrunc notHotp notTotp)
  · have registers := exec_keeps (fun r => (r.codeLen, r.codeBin, r.codeValid)) runs (fun _ => rfl) (.inr clean)
      fun r _ _ h => h.code_eq r notFormat notHotp notTotp
    simp only [Prod.mk.injEq] at registers
    obtain ⟨codeLen, codeBin, codeValid⟩ := registers
    have notStored : .code ∉ storesTo i := by simp [code_mem_storesTo, *]
    exact ⟨codeLen, codeBin, codeValid, fun a inside => exec_read_other runs notStored (.inr clean) inside⟩

end Sys2Proof.Machine
end

section
/-! The register window: which slot stands at an offset of the map, everything a host write can do, and the step of each
access. Settles ReadsHaveNoSideEffects, BusErrorsChangeNoEngineState, RegisterWritesStoreTheirNamedBits,
BufferWritesArePackedBigEndian, WritesWhileBusyAreDropped, ReadOnlyAndReservedWritesAreIgnored, AcceptTakesTheSnapshot,
StatusWritesClearDoneAndOverrun, SoftAndHardwareResetAgree and ReadsReturnTheAddressedValue. -/

namespace Sys2Proof.Machine

/-! ## What a host write does (R106, R112) -/

/-- A BUSY engine drops a write of this slot with OVR: CMD, the RW registers and the RW buffers (R112). -/
def Slot.isProtected : Slot → Bool
  | .reg r => r = .cmd || isRWReg r
  | .word b _ => isRWBuf b
  | .reserved => false

/-- A write of this slot never has an effect: the RO registers, CODE and reserved space (R70, R112). -/
def Slot.isInert : Slot → Bool
  | .reg .ctrl | .reg .status => false
  | sl => !sl.isProtected

theorem hostWrite_inert (s : State) (v : Word) {sl : Slot} (inert : sl.isInert = true) : hostWrite s v sl = s := by
  cases sl with
  | reserved => rfl
  | word b k =>
    have readOnly : isRWBuf b = false := by simpa [Slot.isInert, Slot.isProtected] using inert
    simp [hostWrite, readOnly]
  | reg r =>
    cases r with
    | id | trem | offset | codeBin | codeLen => rfl
    | ctrl | cmd | status | digits | tstep | window | secretLen | keyLen | candLen | nowLo | nowHi | counterLo
    | counterHi | trunc => cases inert

theorem hostWrite_protected_busy {s : State} (busy : s.busy = true) (v : Word) {sl : Slot}
    (guarded : sl.isProtected = true) : hostWrite s v sl = s.overrun := by
  cases sl with
  | reserved => cases guarded
  | word b k =>
    have writable : isRWBuf b = true := guarded
    simp [hostWrite, writable, busy]
  | reg r =>
    cases r with
    | id | ctrl | status | trem | offset | codeBin | codeLen => cases guarded
    | cmd | digits | tstep | window | secretLen | keyLen | candLen | nowLo | nowHi | counterLo | counterHi | trunc =>
      simp [hostWrite, isRWReg, busy]

theorem hostWrite_word_idle {s : State} (idle : s.seq = .idle) (v : Word) {b : BufName} (writable : isRWBuf b = true)
    (k : Nat) : hostWrite s v (.word b k) = { s with regs := writeWord s.regs v b k } := by
  simp [hostWrite, writable, busy_of_seq_idle idle]

theorem hostWrite_cmd_idle {s : State} (idle : s.seq = .idle) (v : Word) : hostWrite s v (.reg .cmd) = s.accept v := by
  simp [hostWrite, busy_of_seq_idle idle]

/-- Everything a host write of word v can make of the state s, by the slot it addresses. -/
inductive WriteEffect (s : State) (v : Word) : Slot → State → Prop where
  | inert {sl : Slot} (inert : sl.isInert = true) : WriteEffect s v sl s
  | overrun {sl : Slot} (guarded : sl.isProtected = true) (busy : s.busy = true) : WriteEffect s v sl s.overrun
  | ctrl : WriteEffect s v (.reg .ctrl) (s.writeCtrl v)
  | status : WriteEffect s v (.reg .status) { s with regs := s.regs.writeStatus v }
  | accept (idle : s.seq = .idle) : WriteEffect s v (.reg .cmd) (s.accept v)
  | storeReg {r : RegName} (writable : isRWReg r = true) (idle : s.seq = .idle) :
      WriteEffect s v (.reg r) { s with regs := writeReg s.regs v r }
  | storeWord {b : BufName} {k : Nat} (writable : isRWBuf b = true) (idle : s.seq = .idle) :
      WriteEffect s v (.word b k) { s with regs := writeWord s.regs v b k }

theorem hostWrite_effect (s : State) (v : Word) (sl : Slot) : WriteEffect s v sl (hostWrite s v sl) := by
  cases inert : sl.isInert with
  | true => rw [hostWrite_inert s v inert]; exact .inert inert
  | false =>
    cases guarded : sl.isProtected with
    | false =>
      obtain rfl | rfl : sl = .reg .ctrl ∨ sl = .reg .status := by
        unfold Slot.isInert at inert
        split at inert
        · exact .inl rfl
        · exact .inr rfl
        · rw [guarded] at inert; cases inert
      · exact .ctrl
      · exact .status
    | true =>
      cases seq : s.seq with
      | busy cur S =>
        have busy := busy_of_seq_busy seq
        rw [hostWrite_protected_busy busy v guarded]
        exact .overrun guarded busy
      | idle =>
        cases sl with
        | reserved => cases guarded
        | word b k => rw [hostWrite_word_idle seq v guarded]; exact .storeWord guarded seq
        | reg r =>
          obtain command | writable : r = .cmd ∨ isRWReg r = true := by simpa [Slot.isProtected] using guarded
          · subst command
            rw [hostWrite_cmd_idle seq]
            exact .accept seq
          · rw [hostWrite_reg_idle seq writable]
            exact .storeReg writable seq

/-! ## The slots of the map (10_state.md section 2) -/

/-- A buffer word's slot stands at the word's own offset alone. -/
theorem slotAt_eq_word {off : Nat} {b : BufName} {k : Nat} (aligned : off % 4 = 0) (h : slotAt off = .word b k) :
    off = bufBase b + 4 * k ∧ 4 * k < bufSize b := by
  obtain ⟨inside, rfl⟩ := slotAt_word h
  obtain ⟨base, -⟩ := bufBase_mod b
  simp only [bufHolds, Bool.and_eq_true, decide_eq_true_eq] at inside
  omega

/-- A word of the map's table lies inside its buffer. -/
theorem tableWord_inside {b : BufName} {k : Nat} (h : k < (tableBuffer b).2) : 4 * k < bufSize b := by
  obtain ⟨-, size⟩ := tableBuffer_eq b
  omega

theorem slotAt_tableOffset (r : RegName) : slotAt (tableOffset r) = .reg r := by
  rw [tableOffset_eq, slotAt_regOffset]

theorem slotAt_tableBuffer {b : BufName} {k : Nat} (h : k < (tableBuffer b).2) :
    slotAt ((tableBuffer b).1 + 4 * k) = .word b k := by
  obtain ⟨base, -⟩ := tableBuffer_eq b
  rw [base, slotAt_bufWord (tableWord_inside h)]

theorem tableOffset_lt (r : RegName) : tableOffset r < 4096 ∧ tableOffset r % 4 = 0 := by
  rw [tableOffset_eq]
  exact regOffset_lt r

theorem tableBuffer_lt {b : BufName} {k : Nat} (h : k < (tableBuffer b).2) :
    (tableBuffer b).1 + 4 * k < 4096 ∧ ((tableBuffer b).1 + 4 * k) % 4 = 0 := by
  obtain ⟨base, -⟩ := tableBuffer_eq b
  rw [base]
  exact bufWord_lt (tableWord_inside h)

/-- No register and no buffer byte stands at a reserved offset (R70). -/
theorem slotAt_reserved {off : Nat} (h : reservedOffset off = true) : slotAt off = .reserved := by
  cases slot : slotAt off with
  | reserved => rfl
  | reg r =>
    rw [slotAt_eq_reg slot] at h
    exact absurd h (by cases r <;> decide)
  | word b k =>
    obtain ⟨inside, -⟩ := slotAt_word slot
    simp only [bufHolds, Bool.and_eq_true, decide_eq_true_eq] at inside
    simp only [reservedOffset, Bool.and_eq_true, Bool.or_eq_true, decide_eq_true_eq] at h
    cases b <;> simp only [bufBase, bufSize_eq] at inside <;> omega

theorem reservedOffset_lt {off : Nat} (h : reservedOffset off = true) : off < 4096 ∧ off % 4 = 0 := by
  simp only [reservedOffset, Bool.and_eq_true, Bool.or_eq_true, decide_eq_true_eq] at h
  omega

theorem isInert_of_inertOffset {off : Nat} (h : inertOffset off) :
    (off < 4096 ∧ off % 4 = 0) ∧ (slotAt off).isInert = true := by
  obtain listed | reserved := h
  · revert off
    decide
  · rw [slotAt_reserved reserved]
    exact ⟨reservedOffset_lt reserved, rfl⟩

theorem isProtected_of_protectedOffset {off : Nat} (h : protectedOffset off) :
    (off < 4096 ∧ off % 4 = 0) ∧ (slotAt off).isProtected = true := by
  obtain rfl | ⟨r, writable, rfl⟩ | ⟨b, k, writable, inside, rfl⟩ := h
  · decide
  · rw [slotAt_tableOffset]
    exact ⟨tableOffset_lt r, by simp [Slot.isProtected, writable]⟩
  · rw [slotAt_tableBuffer inside]
    exact ⟨tableBuffer_lt inside, writable⟩

/-- A protected slot stands at a protected offset. -/
theorem protectedOffset_of_isProtected {off : Nat} (aligned : off % 4 = 0) (h : (slotAt off).isProtected = true) :
    protectedOffset off := by
  cases slot : slotAt off with
  | reserved => rw [slot] at h; cases h
  | reg r =>
    rw [slot] at h
    rw [slotAt_eq_reg slot, ← tableOffset_eq]
    obtain rfl | writable : r = .cmd ∨ isRWReg r = true := by simpa [Slot.isProtected] using h
    · exact .inl rfl
    · exact .inr (.inl ⟨r, writable, rfl⟩)
  | word b k =>
    rw [slot] at h
    obtain ⟨address, inside⟩ := slotAt_eq_word aligned slot
    obtain ⟨base, size⟩ := tableBuffer_eq b
    exact .inr (.inr ⟨b, k, h, by omega, by rw [base]; exact address⟩)

/-! ## The steps of the turns -/

theorem step_access {s : State} {a : Access} {rest : List Turn} (turn : s.script = .access a :: rest) :
    step s = busAccess a { s with script := rest } := by
  simp only [step, takeTurn, turn]

theorem step_resetAssert {s : State} {rest : List Turn} (turn : s.script = .resetAssert :: rest) :
    step s = .next ({ s with script := rest } : State).assertReset := by
  simp only [step, takeTurn, turn]

theorem step_resetRelease {s : State} {rest : List Turn} (turn : s.script = .resetRelease :: rest) :
    step s = .next ({ s with script := rest } : State).releaseReset := by
  simp only [step, takeTurn, turn]

/-- The step of a write turn, the reset input released, is the write of the slot at its offset. -/
theorem step_write {s : State} (released : s.resetHeld = false) {off : Nat} (range : off < 4096 ∧ off % 4 = 0)
    {v : Word} {rest : List Turn} (turn : s.script = writeTurn s off v :: rest) :
    step s = .next { hostWrite { s with script := rest } v (slotAt off) with resp := some ⟨false, none⟩ } := by
  rw [step_writeTurn range.1 range.2 turn, windowAccess_write (s := { s with script := rest }) released]

/-- The step of a write turn that has no effect, whether the reset input is held or not. -/
theorem step_write_inert {s : State} {off : Nat} (range : off < 4096 ∧ off % 4 = 0) {v : Word} {rest : List Turn}
    (turn : s.script = writeTurn s off v :: rest) (inert : s.resetHeld = true ∨ (slotAt off).isInert = true) :
    step s = .next { s with script := rest, resp := some ⟨false, none⟩ } := by
  by_cases held : s.resetHeld = true
  · rw [step_writeTurn range.1 range.2 turn, windowAccess_write_held (s := { s with script := rest }) held]
  · rw [step_write (by simpa using held) range turn, hostWrite_inert _ v (inert.resolve_left held)]

/-- The response of a read turn's step is what the host reads off the slot at its offset. -/
theorem step_read {s : State} {off : Nat} (range : off < 4096 ∧ off % 4 = 0) {rest : List Turn}
    (turn : s.script = readTurn s off :: rest) :
    step s = .next { ({ s with script := rest } : State).observe (slotAt off) with
      resp := some ⟨false, some (hostRead s (slotAt off))⟩ } := by
  rw [step_readTurn range.1 range.2 turn]
  rfl

/-- Settles O41: a bus error and a read of the window keep the engine, and the turn is taken. -/
theorem readsHaveNoSideEffects : Obligations.ReadsHaveNoSideEffects := by
  intro s t addr size rest turn runs
  have access : busAccess ⟨addr, size, .read⟩ { s with script := rest } = .next t := by
    rwa [step_access turn] at runs
  obtain rfl | ⟨off, -, -, -, rfl⟩ := busAccess_cases access
  · exact ⟨rfl, rfl, rfl, rfl, rfl⟩
  · exact ⟨rfl, rfl, rfl, rfl, rfl⟩

/-- Settles O42: inside the window, `busAccess` answers the access with a bus error alone. -/
theorem busErrorsChangeNoEngineState : Obligations.BusErrorsChangeNoEngineState := by
  intro s off size op rest inside refused turn
  have inWindow : ¬(s.platform.engineBase + off < s.platform.engineBase ∨
      s.platform.engineBase + Config.windowBytes ≤ s.platform.engineBase + off) := by
    rw [Config.windowBytes]
    omega
  simp only [step_access turn, busAccess, if_neg inWindow, Nat.add_sub_cancel_left, if_pos refused]
  cases op <;> rfl

/-- Settles O45: every protected offset holds a protected slot. -/
theorem writesWhileBusyAreDropped : Obligations.WritesWhileBusyAreDropped := by
  intro s cur S off v rest released busy guarded turn
  obtain ⟨range, slot⟩ := isProtected_of_protectedOffset guarded
  rw [step_write released range turn, hostWrite_protected_busy (s := { s with script := rest })
    (busy_of_seq_busy (s := { s with script := rest }) busy) v slot]
  rfl

/-- Settles O46: every inert offset holds an inert slot, and a reserved slot reads 0. -/
theorem readOnlyAndReservedWritesAreIgnored : Obligations.ReadOnlyAndReservedWritesAreIgnored := by
  refine ⟨fun s off v rest inert turn => ?_, fun s off rest reserved turn => ?_⟩
  · obtain ⟨range, slot⟩ := isInert_of_inertOffset inert
    exact step_write_inert range turn (.inr slot)
  · rw [step_read (reservedOffset_lt reserved) turn, slotAt_reserved reserved]
    simp [State.observe, hostRead]

/-- Settles O47: the slot at 0x008 is CMD's, whose write on an idle engine is the accept. -/
theorem acceptTakesTheSnapshot : Obligations.AcceptTakesTheSnapshot := by
  intro s w rest released idle turn
  rw [step_write released (tableOffset_lt .cmd) turn, slotAt_tableOffset,
    hostWrite_cmd_idle (s := { s with script := rest }) idle]
  rfl

/-- A flag that a write clears where its bit is 1. -/
theorem and_not_eq_ite (flag bit : Bool) : (flag && !bit) = if bit then false else flag := by
  cases bit <;> simp

/-- Settles O49: STATUS's write is `writeStatus`, whatever the sequencer holds. -/
theorem statusWritesClearDoneAndOverrun : Obligations.StatusWritesClearDoneAndOverrun := by
  intro s v rest released turn
  rw [step_write released (tableOffset_lt .status) turn, slotAt_tableOffset]
  simp only [hostWrite, Regs.writeStatus, and_not_eq_ite]

/-- A CTRL write's step, the reset input released. -/
theorem step_writeCtrl {s : State} (released : s.resetHeld = false) {v : Word} {rest : List Turn}
    (turn : s.script = writeTurn s 0x004 v :: rest) :
    step s = .next { ({ s with script := rest } : State).writeCtrl v with resp := some ⟨false, none⟩ } := by
  rw [step_write released (tableOffset_lt .ctrl) turn, slotAt_tableOffset, hostWrite]

/-- Settles O53: both resets are `engineReset`, the input's with the input held. -/
theorem softAndHardwareResetAgree : Obligations.SoftAndHardwareResetAgree := by
  intro s v rest
  refine ⟨fun turn => ?_, fun released soft turn => ?_⟩
  · exact ⟨({ s with script := rest } : State).assertReset, step_resetAssert turn, rfl, rfl, rfl, rfl, rfl⟩
  · refine ⟨_, step_writeCtrl released turn, ?_⟩
    rw [State.writeCtrl, if_pos soft]
    exact ⟨rfl, rfl, rfl, rfl, released, rfl⟩

/-! ## What the host reads back (R102, R106) -/

/-- The low k bits of a word, zero-extended, are the word with the others masked off. -/
theorem setWidth_setWidth_eq_and (v : Word) {k : Nat} (hk : k < 32) :
    (v.setWidth k).setWidth 32 = v &&& BitVec.ofNat 32 (2 ^ k - 1) := by
  have small : 2 ^ k - 1 < 2 ^ 32 := Nat.lt_of_le_of_lt (Nat.sub_le _ _) (Nat.pow_lt_pow_right (by decide) hk)
  apply BitVec.eq_of_toNat_eq
  rw [BitVec.toNat_setWidth_of_le hk.le, BitVec.toNat_setWidth, BitVec.toNat_and, BitVec.toNat_ofNat,
    Nat.mod_eq_of_lt small, Nat.and_two_pow_sub_one_eq_mod]

/-- An RW register reads back the written word's named bits, the unnamed ones 0 (R34-R38, R50, R52, R54, R61, R70). -/
theorem readReg_writeReg_same (busy : Bool) (r : Regs) (v : Word) {n : RegName} (writable : isRWReg n = true) :
    readReg busy (writeReg r v n) n = v &&& regMask n := by
  cases n with
  | id | ctrl | cmd | status | trem | offset | codeBin | codeLen => contradiction
  | digits => exact setWidth_setWidth_eq_and v (k := 8) (by decide)
  | secretLen | keyLen | candLen => exact setWidth_setWidth_eq_and v (k := 16) (by decide)
  | trunc => exact setWidth_setWidth_eq_and v (k := 31) (by decide)
  | tstep | window | nowLo | nowHi | counterLo | counterHi => exact BitVec.and_allOnes.symm

/-- CTRL reads IRQ_EN in bit 0, every other bit 0 (R32). -/
theorem ctrlWord_eq (r : Regs) : ctrlWord r = (BitVec.ofBool r.irqEn).setWidth 32 := by
  rw [ctrlWord]
  cases r.irqEn <;> rfl

/-- A register write leaves every other register as the host reads it: it updates the field of its own name alone. -/
theorem readReg_writeReg_other (busy : Bool) (r : Regs) (v : Word) {n n' : RegName} (other : n' ≠ n) :
    readReg busy (writeReg r v n) n' = readReg busy r n' := by
  cases n with
  | id | ctrl | cmd | status | trem | offset | codeBin | codeLen => rfl
  | digits | tstep | window | secretLen | keyLen | candLen | nowLo | nowHi | counterLo | counterHi | trunc =>
    cases n' <;> first | contradiction | rfl

theorem writeReg_mem (r : Regs) (v : Word) (n : RegName) : (writeReg r v n).mem = r.mem := by cases n <;> rfl

/-- A register write leaves every slot but the register's own as the host reads it. -/
theorem hostRead_writeReg_other {s t : State} (seq : t.seq = s.seq) {n : RegName} {v : Word}
    (regs : t.regs = writeReg s.regs v n) {sl : Slot} (other : sl ≠ .reg n) : hostRead t sl = hostRead s sl := by
  cases sl with
  | reserved => rfl
  | word b k => simp only [hostRead, readWord, regs, writeReg_mem]
  | reg n' =>
    have busy : t.busy = s.busy := by rw [State.busy, State.busy, seq]
    rw [hostRead, hostRead, busy, regs, readReg_writeReg_other]
    rintro rfl
    exact other rfl

/-- Settles O43: a register write reads back masked and touches no other slot; a CTRL write without reset stores
IRQ_EN. -/
theorem registerWritesStoreTheirNamedBits : Obligations.RegisterWritesStoreTheirNamedBits := by
  refine ⟨fun s r v rest released idle writable turn => ?_, fun s v rest released keep turn => ?_⟩
  · rw [tableOffset_eq] at turn
    let t : State := { s with script := rest, regs := writeReg s.regs v r, resp := some ⟨false, none⟩ }
    have runs : step s = .next t := step_writeReg_idle idle released writable turn
    have mem : t.regs.mem = s.regs.mem := writeReg_mem s.regs v r
    exact ⟨t, runs, idle, rfl, rfl, readReg_writeReg_same t.busy s.regs v writable,
      fun sl other => hostRead_writeReg_other (s := s) (t := t) rfl rfl other, fun a => by rw [mem]⟩
  · refine ⟨_, step_writeCtrl released turn, ?_, ?_⟩
    · rw [State.writeCtrl, keep, if_neg Bool.false_ne_true]
    · rw [State.writeCtrl, keep, if_neg Bool.false_ne_true, BitVec.and_one_eq_setWidth_ofBool_getLsbD]
      exact ctrlWord_eq _

/-- The bytes of a stored word (R102). -/
theorem wordBytes_getElem? (v : Word) {i : Nat} (h : i < 4) :
    (wordBytes v)[i]? = some (v.extractLsb' (24 - 8 * i) 8) := by
  interval_cases i <;> rfl

/-- The four bytes of a word just written. -/
theorem read_writeWord (r : Regs) (v : Word) (b : BufName) (k : Nat) {i : Nat} (h : i < 4) :
    (writeWord r v b k).mem.read (bufBase b + 4 * k + i) = v.extractLsb' (24 - 8 * i) 8 := by
  simp [writeWord, read_writeBytes, wordBytes_getElem? v h]

/-- A stored string leaves every byte before and after it. -/
theorem read_writeBytes_outside (m : Memory) {a x : Nat} {bs : List Byte} (h : x < a ∨ a + bs.length ≤ x) :
    (m.writeBytes a bs).read x = m.read x := by
  rw [read_writeBytes]
  split
  · rw [List.getElem?_eq_none (by omega), Option.getD_none]
  · rfl

/-- A word write leaves every byte outside its word. -/
theorem read_writeWord_outside (r : Regs) (v : Word) (b : BufName) (k : Nat) {a : Nat}
    (outside : a < bufBase b + 4 * k ∨ bufBase b + 4 * k + 4 ≤ a) : (writeWord r v b k).mem.read a = r.mem.read a :=
  read_writeBytes_outside r.mem outside

/-- The step of a host's write to a buffer word of an idle engine. -/
theorem step_writeWord_idle {s : State} (idle : s.seq = .idle) (released : s.resetHeld = false) {b : BufName} {k : Nat}
    (writable : isRWBuf b = true) (inside : 4 * k < bufSize b) {v : Word} {rest : List Turn}
    (turn : s.script = writeTurn s (bufBase b + 4 * k) v :: rest) :
    step s = .next { s with script := rest, regs := writeWord s.regs v b k, resp := some ⟨false, none⟩ } := by
  rw [step_write released (bufWord_lt inside) turn, slotAt_bufWord inside,
    hostWrite_word_idle (s := { s with script := rest }) idle v writable]

/-- Settles O44: the word's four bytes are stored in order at its offset, so it reads back from them. -/
theorem bufferWritesArePackedBigEndian : Obligations.BufferWritesArePackedBigEndian := by
  intro s b k v rest released idle writable inside turn
  obtain ⟨base, -⟩ := tableBuffer_eq b
  rw [base] at turn
  have stored (i : Nat) (hi : i < 4) := read_writeWord s.regs v b k hi
  have runs := step_writeWord_idle idle released writable (tableWord_inside inside) turn
  exact ⟨_, (writeWord s.regs v b k).mem, runs, rfl, readWord_eq stored, stored,
    fun a outside => read_writeWord_outside s.regs v b k outside⟩

/-! ## What a read answers (R40, R102) -/

theorem toNat_append_eq {m n : Nat} (x : BitVec m) (y : BitVec n) : (x ++ y).toNat = x.toNat * 2 ^ n + y.toNat := by
  rw [BitVec.toNat_append, ← Nat.shiftLeft_add_eq_or_of_lt y.isLt, Nat.shiftLeft_eq]

/-- STATUS as a number (R40). -/
theorem statusWord_toNat (busy : Bool) (r : Regs) :
    (statusWord busy r).toNat = busy.toNat + 2 * r.done.toNat + 4 * r.err.toNat + 8 * r.matched.toNat +
      16 * r.codeValid.toNat + 32 * r.ovr.toNat + 256 * r.errcode.toNat := by
  show BitVec.toNat (_ ++ _ ++ _ ++ _ ++ _ ++ _ ++ _ ++ _ ++ _ : BitVec (20 + 4 + 2 + 1 + 1 + 1 + 1 + 1 + 1)) = _
  simp only [toNat_append_eq, BitVec.toNat_ofBool, BitVec.toNat_ofNat]
  omega

/-- A register reads as the number it holds. -/
theorem readReg_toNat (s : State) (r : RegName) : (readReg s.busy s.regs r).toNat = regNumber s r := by
  cases r with
  | id | cmd | tstep | window | nowLo | nowHi | counterLo | counterHi | trem | codeBin => rfl
  | ctrl =>
    rw [readReg, ctrlWord_eq, BitVec.toNat_setWidth_of_le (by decide), BitVec.toNat_ofBool]
    rfl
  | status => exact statusWord_toNat s.busy s.regs
  | digits | secretLen | keyLen | candLen | offset | trunc | codeLen => exact BitVec.toNat_setWidth_of_le (by decide)

/-- The word of four bytes, the first most significant (R102). -/
def bigEndianWord (f : Nat → Byte) : Word := (f 0 ++ f 1 ++ f 2 ++ f 3 : BitVec 32)

theorem bigEndianWord_toNat (f : Nat → Byte) :
    (bigEndianWord f).toNat = (((f 0).toNat * 2 ^ 8 + (f 1).toNat) * 2 ^ 8 + (f 2).toNat) * 2 ^ 8 + (f 3).toNat := by
  show BitVec.toNat (_ ++ _ ++ _ ++ _ : BitVec (8 + 8 + 8 + 8)) = _
  simp only [toNat_append_eq]

theorem bigEndianWord_byte (f : Nat → Byte) {i : Nat} (hi : i < 4) :
    (bigEndianWord f).extractLsb' (24 - 8 * i) 8 = f i := by
  have lt0 := (f 0).isLt
  have lt1 := (f 1).isLt
  have lt2 := (f 2).isLt
  have lt3 := (f 3).isLt
  apply BitVec.eq_of_toNat_eq
  rw [BitVec.extractLsb'_toNat, bigEndianWord_toNat, Nat.shiftRight_eq_div_pow]
  interval_cases i <;> omega

/-- The bytes of a word read are the buffer's, the first most significant. -/
theorem readWord_byte (r : Regs) (b : BufName) (k : Nat) {i : Nat} (hi : i < 4) :
    (readWord r b k).extractLsb' (24 - 8 * i) 8 = r.mem.read (bufBase b + 4 * k + i) :=
  bigEndianWord_byte (fun i => r.mem.read (bufBase b + 4 * k + i)) hi

/-- Settles O59: a read answers what its slot holds, a register as its number, a buffer word byte by byte. -/
theorem readsReturnTheAddressedValue : Obligations.ReadsReturnTheAddressedValue := by
  intro s rest
  refine ⟨fun r turn => ?_, fun b k inside turn => ?_⟩
  · refine ⟨_, _, step_read (tableOffset_lt r) turn, rfl, ?_⟩
    rw [slotAt_tableOffset, hostRead, readReg_toNat]
  · refine ⟨_, _, step_read (tableBuffer_lt inside) turn, rfl, fun i hi => ?_⟩
    rw [slotAt_tableBuffer inside, hostRead, readWord_byte _ b k hi]

end Sys2Proof.Machine
end

section
/-! The machine's invariant: what of it speaks of the registers alone, what every completion, access and reset does to
it, and what it gives while BUSY and while the reset input is held. Settles EveryStepKeepsTheInvariant,
ResetMeetsTheInvariant, BusyReadsShowTheAcceptedValues and HeldResetKeepsTheResetState. -/

namespace Sys2Proof.Machine

/-! ## The memory inside the map -/

/-- Every listed byte lies in a buffer of the map. -/
def Memory.inMap (m : Memory) : Prop := ∀ c ∈ m.cells, ∃ b ∈ allBufs, bufHolds b c.1 = true

theorem mem_allBufs (b : BufName) : b ∈ allBufs := by cases b <;> decide

/-- A string stored inside a buffer keeps the memory inside the map. -/
theorem writeBytes_inMap {m : Memory} (h : m.inMap) {b : BufName} {i : Nat} {bs : List Byte}
    (fits : i + bs.length ≤ bufSize b) : (m.writeBytes (bufBase b + i) bs).inMap := by
  intro c listed
  obtain ⟨low, high⟩ | before := mem_writeBytes listed
  · refine ⟨b, mem_allBufs b, ?_⟩
    simp only [bufHolds, Bool.and_eq_true, decide_eq_true_eq]
    omega
  · exact h c before

/-! ## The code (R46, R313) -/

theorem byteAt_replicate_zero (k i : Nat) : byteAt (List.replicate k 0#8) i = 0#8 := by
  rw [byteAt, List.getD_eq_getElem?_getD]
  exact List.getElem?_getD_replicate_default_eq _ _ _

/-- An error clears every byte of CODE. -/
theorem failed_read_code (r : Regs) (e : ErrCode) {a : Nat} (inside : bufHolds .code a = true) :
    (r.failed e).mem.read a = 0#8 := by
  change (r.mem.writeBytes (bufBase .code) (List.replicate 12 0#8)).read a = 0#8
  rw [storedAt_eq, storedAt_isSome (by simp [bufSize_eq]) inside, Option.getD_some, byteAt_replicate_zero]

/-- Two register files hold the same code. -/
structure Regs.SameCode (r' r : Regs) : Prop where
  codeLen : r'.codeLen = r.codeLen
  codeBin : r'.codeBin = r.codeBin
  codeValid : r'.codeValid = r.codeValid
  bytes : ∀ a, bufHolds .code a = true → r'.mem.read a = r.mem.read a

/-- CODE_VALID tells whether a well-formed code or no code is held. -/
def Regs.CodeSound (r : Regs) : Prop :=
  (r.codeValid = false → r.CodeCleared) ∧ (r.codeValid = true → r.CodeHeld)

theorem Regs.SameCode.codeCleared {r r' : Regs} (same : r'.SameCode r) (h : r.CodeCleared) : r'.CodeCleared := by
  obtain ⟨len, bin, bytes⟩ := h
  exact ⟨same.codeLen.trans len, same.codeBin.trans bin, fun a inside => (same.bytes a inside).trans (bytes a inside)⟩

theorem Regs.SameCode.codeHeld {r r' : Regs} (same : r'.SameCode r) (h : r.CodeHeld) : r'.CodeHeld := by
  have short : r.codeLen.toNat < 16 := r.codeLen.isLt
  obtain ⟨low, high, digits, value, below, rest⟩ := h
  have text : r'.buf .code r.codeLen.toNat = r.buf .code r.codeLen.toNat :=
    readBytes_congr fun i hi => same.bytes _ (by simp [bufHolds, bufSize_eq]; omega)
  rw [Regs.CodeHeld, same.codeLen, same.codeBin, text]
  exact ⟨low, high, digits, value, below, fun a past inside => (same.bytes a inside).trans (rest a past inside)⟩

theorem Regs.SameCode.codeSound {r r' : Regs} (same : r'.SameCode r) (h : r.CodeSound) : r'.CodeSound := by
  rw [Regs.CodeSound, same.codeValid]
  exact ⟨fun invalid => same.codeCleared (h.1 invalid), fun valid => same.codeHeld (h.2 valid)⟩

/-- A committed code is well formed: its text's digits read back as its number (R311, R313). -/
theorem codeHeld_of_committed {r : Regs} {m : Memory} {c n : Nat} (low : 1 ≤ n) (high : n ≤ 9) (below : c < 10 ^ n)
    (codeLen : r.codeLen = BitVec.ofNat 4 n) (codeBin : r.codeBin = BitVec.ofNat 32 c)
    (mem : r.mem = m.writeBytes (bufBase .code) (padTo Config.codeBuf (fmt c n))) : r.CodeHeld := by
  have len : r.codeLen.toNat = n := by
    rw [codeLen]
    exact Nat.mod_eq_of_lt (show n < 2 ^ 4 by omega)
  have bin : r.codeBin.toNat = c := by
    have bound : c < 2 ^ 32 :=
      calc c < 10 ^ n := below
        _ ≤ 10 ^ 9 := Nat.pow_le_pow_right (by decide) high
        _ < 2 ^ 32 := by decide
    rw [codeBin]
    exact Nat.mod_eq_of_lt bound
  have text : r.buf .code n = fmt c n := by
    have front := readBytes_writeBytes_append_left m (bufBase .code) (fmt c n) (List.replicate (12 - n) 0#8)
    rwa [fmt_length, ← padTo_fmt, show (12 : Nat) = Config.codeBuf from rfl, ← mem] at front
  rw [Regs.CodeHeld, len, bin, text, List.all_eq_true, decimalValue_fmt, Nat.mod_eq_of_lt below]
  refine ⟨low, high, fun b mem => isDigitByte_of_mem_fmt mem, rfl, below, fun a past inside => ?_⟩
  have padded : (padTo Config.codeBuf (fmt c n)).length = bufSize .code :=
    padTo_length (by rw [fmt_length]; exact Nat.le_trans high (by decide))
  rw [mem, storedAt_eq, storedAt_isSome padded inside, Option.getD_some, padTo_fmt, byteAt, List.getD_append_right]
  · exact byteAt_replicate_zero _ _
  · rw [fmt_length]; omega

theorem codeSound_of_committed {r : Regs} {m : Memory} {c n : Nat} (legal : 1 ≤ n ∧ n ≤ 9) (below : c < 10 ^ n)
    (codeValid : r.codeValid = true) (codeLen : r.codeLen = BitVec.ofNat 4 n) (codeBin : r.codeBin = BitVec.ofNat 32 c)
    (mem : r.mem = m.writeBytes (bufBase .code) (padTo Config.codeBuf (fmt c n))) : r.CodeSound := by
  rw [Regs.CodeSound, codeValid]
  exact ⟨nofun, fun _ => codeHeld_of_committed legal.1 legal.2 below codeLen codeBin mem⟩

/-! ## The invariant of the registers -/

/-- What the invariant says of the registers alone. -/
structure Regs.Sound (r : Regs) : Prop where
  memWf : r.mem.wf
  memInMap : r.mem.inMap
  errReport : r.err = true ↔ r.errcode ≠ 0#4
  errcodeRange : r.errcode.toNat ≤ 4
  matchClean : r.matched = true → r.err = false
  code : r.CodeSound

/-- What the invariant says of a BUSY engine's registers against its snapshot (R112, R113). -/
structure Regs.InFlight (r S : Regs) : Prop where
  status : r.done = false ∧ r.err = false ∧ r.errcode = 0#4 ∧ r.matched = false
  snapshot : r = { S with irqEn := r.irqEn, done := r.done, err := r.err, errcode := r.errcode,
                          matched := r.matched, ovr := r.ovr }

/-- The invariant in three parts: of the registers, of the held reset, and of a command in flight. -/
theorem inv_iff (s : State) :
    s.Inv ↔ s.regs.Sound ∧ (s.resetHeld = true → s.regs = Regs.reset ∧ s.seq = .idle) ∧
      ∀ cur S, s.seq = .busy cur S → s.regs.InFlight S := by
  constructor
  · intro h
    exact ⟨⟨h.memWf, h.memInMap, h.errReport, h.errcodeRange, h.matchClean, h.noCode, h.code⟩, h.heldAtReset,
      fun cur S busy => ⟨h.busyStatus cur S busy, h.busySnapshot cur S busy⟩⟩
  · rintro ⟨sound, held, inFlight⟩
    exact ⟨sound.memWf, sound.memInMap, sound.errReport, sound.errcodeRange, sound.matchClean, sound.code.1,
      sound.code.2, held, fun cur S busy => (inFlight cur S busy).status,
      fun cur S busy => (inFlight cur S busy).snapshot⟩

/-- An idle engine's invariant, the reset input released. -/
theorem inv_of_idle {s : State} (sound : s.regs.Sound) (idle : s.seq = .idle) (released : s.resetHeld = false) :
    s.Inv := by
  rw [inv_iff, idle, released]
  exact ⟨sound, nofun, fun _ _ busy => by cases busy⟩

/-- A BUSY engine's invariant, the reset input released. -/
theorem inv_of_busy {s : State} {cur : Word} {S : Regs} (sound : s.regs.Sound) (busy : s.seq = .busy cur S)
    (released : s.resetHeld = false) (inFlight : s.regs.InFlight S) : s.Inv := by
  rw [inv_iff, busy, released]
  refine ⟨sound, nofun, ?_⟩
  rintro _ _ ⟨⟩
  exact inFlight

/-- The invariant depends on the registers, the sequencer and the reset input, which may be released. -/
theorem State.Inv.of_same_engine {s t : State} (h : s.Inv) (regs : t.regs = s.regs) (seq : t.seq = s.seq)
    (held : t.resetHeld = true → s.resetHeld = true) : t.Inv := by
  rw [inv_iff] at h ⊢
  obtain ⟨sound, heldAtReset, inFlight⟩ := h
  rw [regs, seq]
  exact ⟨sound, fun h' => heldAtReset (held h'), inFlight⟩

/-- With a command in flight the reset input is released. -/
theorem State.Inv.released_of_busy {s : State} (h : s.Inv) (busy : s.seq ≠ .idle) : s.resetHeld = false := by
  by_contra held
  exact busy (h.heldAtReset (by simpa using held)).2

theorem sound_reset : Regs.reset.Sound where
  memWf := ⟨List.Pairwise.nil, nofun⟩
  memInMap := nofun
  errReport := by decide
  errcodeRange := by decide
  matchClean := nofun
  code := ⟨fun _ => ⟨rfl, rfl, fun _ _ => rfl⟩, nofun⟩

/-- A reset engine has the invariant, whether the reset input is held or not. -/
theorem inv_of_reset {s : State} (regs : s.regs = Regs.reset) (seq : s.seq = .idle) : s.Inv := by
  rw [inv_iff, regs, seq]
  exact ⟨sound_reset, fun _ => ⟨rfl, rfl⟩, fun _ _ busy => by cases busy⟩

/-- Settles O39: the reset registers hold no byte, no report and no code. -/
theorem resetMeetsTheInvariant : Obligations.ResetMeetsTheInvariant := inv_of_reset rfl rfl

/-! ## Completions keep it (R410, R411) -/

/-- One write whose byte string fits its buffer keeps the memory canonical and inside the map. -/
theorem applyWrite_mem {r : Regs} {w : RegWrite} (sized : w.sized) (wf : r.mem.wf) (inMap : r.mem.inMap) :
    (r.applyWrite w).mem.wf ∧ (r.applyWrite w).mem.inMap := by
  have store {b : BufName} {bs : List Byte} (fits : bs.length ≤ bufSize b) :
      (r.setBuf b bs).mem.wf ∧ (r.setBuf b bs).mem.inMap :=
    ⟨writeBytes_wf wf _ _, writeBytes_inMap (i := 0) inMap (by omega)⟩
  cases w with
  | key k => exact store (padTo_length sized).le
  | ctrBytes m => exact store (b := .ctrBytes) (Nat.le_of_eq sized)
  | digest d => exact store (b := .digest) (Nat.le_of_eq sized)
  | code c => exact store (padTo_length sized).le
  | keyLen | counter | offset | trunc | codeBin | codeLen | codeValid | trem | matched => exact ⟨wf, inMap⟩

theorem applyWrites_mem {r : Regs} {W : List RegWrite} (sized : ∀ w ∈ W, w.sized) (wf : r.mem.wf)
    (inMap : r.mem.inMap) : (r.applyWrites W).mem.wf ∧ (r.applyWrites W).mem.inMap := by
  induction W generalizing r with
  | nil => exact ⟨wf, inMap⟩
  | cons w W ih =>
    obtain ⟨head, tail⟩ := List.forall_mem_cons.mp sized
    obtain ⟨wf', inMap'⟩ := applyWrite_mem head wf inMap
    exact ih tail wf' inMap'

theorem codeNumber_lt (t : BitVec 31) (n : Nat) : codeNumber t n < 10 ^ n :=
  Nat.mod_lt _ (Nat.pow_pos (by decide))

theorem hotpValue_text (K : List Byte) (c : Dword) (n : Nat) :
    (hotpValue K c n).text = fmt (hotpValue K c n).code n := rfl

theorem hotpValue_code_lt (K : List Byte) (c : Dword) (n : Nat) : (hotpValue K c n).code < 10 ^ n :=
  codeNumber_lt _ n

/-- A result set without a code keeps the one held. -/
theorem codeSound_of_kept {i : Instr} {p : Config.Platform} {d d' : Draws} {S : Regs} {W : List RegWrite}
    (returns : cmdOf i p d S = (.ok W, d')) {r : Regs} (h : r.CodeSound) (notFormat : i ≠ .format)
    (notHotp : i ≠ .hotp) (notTotp : i ≠ .totp) : (r.succeeded W).CodeSound := by
  have registers := (mayReturn_of_cmdOf returns).code_eq r notFormat notHotp notTotp
  simp only [Prod.mk.injEq] at registers
  obtain ⟨codeLen, codeBin, codeValid⟩ := registers
  have notStored : .code ∉ storesTo i := by simp [code_mem_storesTo, *]
  exact Regs.SameCode.codeSound ⟨codeLen, codeBin, codeValid,
    fun a => succeeded_read_other returns r notStored⟩ h

/-- A result set keeps the code well formed: it commits one, or it keeps the one held. -/
theorem succeeded_codeSound {i : Instr} {p : Config.Platform} {d d' : Draws} {S : Regs} {W : List RegWrite}
    (returns : cmdOf i p d S = (.ok W, d')) {r : Regs} (h : r.CodeSound) : (r.succeeded W).CodeSound := by
  have mayReturn := mayReturn_of_cmdOf returns
  cases mayReturn with
  | format legal =>
    rw [succeeded_codeWrites]
    exact codeSound_of_committed (badDigits_false.mp legal) (codeNumber_lt _ _) rfl rfl rfl rfl
  | hotp legal =>
    rw [succeeded_hotpWrites, hotpValue_text]
    exact codeSound_of_committed (badDigits_false.mp legal) (hotpValue_code_lt _ _ _) rfl rfl rfl rfl
  | totp legal K fits =>
    rw [succeeded_totpWrites, succeeded_hotpWrites, hotpValue_text]
    exact codeSound_of_committed (badDigits_false.mp legal) (hotpValue_code_lt _ _ _) rfl rfl rfl rfl
  | decode | encctr | hmac | trunc | trem | validate | validateL => exact codeSound_of_kept returns h nofun nofun nofun

theorem succeeded_sound {i : Instr} {p : Config.Platform} {d d' : Draws} {S : Regs} {W : List RegWrite}
    (returns : cmdOf i p d S = (.ok W, d')) {r : Regs} (h : r.Sound) : (r.succeeded W).Sound := by
  obtain ⟨wf, inMap⟩ := applyWrites_mem (cmdOf_sized returns) h.memWf h.memInMap
  exact ⟨wf, inMap, by simp [Regs.succeeded], by simp [Regs.succeeded], fun _ => rfl,
    succeeded_codeSound returns h.code⟩

/-- An error clears the code and reports its number, from 1 to 4. -/
theorem failed_sound {r : Regs} (h : r.Sound) (e : ErrCode) : (r.failed e).Sound where
  memWf := writeBytes_wf h.memWf _ _
  memInMap := writeBytes_inMap (b := .code) (i := 0) h.memInMap (by simp [bufSize, Config.codeBuf])
  errReport := by cases e <;> simp [Regs.failed, ErrCode.code]
  errcodeRange := by cases e <;> simp [Regs.failed, ErrCode.code]
  matchClean := nofun
  code := ⟨fun _ => ⟨by simp [Regs.failed], by simp [Regs.failed], fun _ inside => failed_read_code r e inside⟩, nofun⟩

/-- A completion that leaves sound registers meets the invariant: the engine is idle, and the reset input is as
before. -/
theorem complete_inv {s t : State} {r : CmdResult} (held : s.resetHeld = false) (seq : t.seq = (s.complete r).seq)
    (heldAfter : t.resetHeld = (s.complete r).resetHeld) (sound : t.regs.Sound) : t.Inv := by
  obtain ⟨idle, -⟩ := complete_outcome s r
  obtain ⟨-, -, -, same⟩ := complete_own_fields s r
  exact inv_of_idle sound (seq.trans idle) (heldAfter.trans (same.trans held))

/-- The completion of a command in flight keeps the invariant. -/
theorem completion_inv {s t : State} (h : s.Inv) (runs : completion s = .next t) : t.Inv := by
  have sound := ((inv_iff s).mp h).1
  obtain ⟨-, rfl⟩ | ⟨cur, S, i, busy, -, runs⟩ | ⟨cur, S, e, busy, -, rfl⟩ := completion_cases runs
  · exact h
  · have released := h.released_of_busy (by rw [busy]; nofun)
    have regs := exec_regs_cases runs
    rw [issue_of_seq_busy busy] at regs
    rw [exec_busy busy] at runs
    cases runs
    refine complete_inv released rfl rfl ?_
    obtain ⟨e, regs⟩ | ⟨W, d, returns, regs⟩ := regs
    · rw [regs]; exact failed_sound sound e
    · rw [regs]; exact succeeded_sound returns sound
  · have released := h.released_of_busy (by rw [busy]; nofun)
    refine inv_of_idle ?_ rfl ((fail_resetHeld s _).trans released)
    rw [fail_regs_eq]
    exact failed_sound sound .illegalCommand

/-! ## Host writes keep it (R106, R112) -/

/-- The registers' invariant depends on the memory, the code, ERR, ERRCODE and MATCH. -/
theorem Regs.Sound.of_same {r r' : Regs} (h : r.Sound) (mem : r'.mem = r.mem) (code : r'.SameCode r)
    (status : (r'.err, r'.errcode, r'.matched) = (r.err, r.errcode, r.matched)) : r'.Sound := by
  simp only [Prod.mk.injEq] at status
  obtain ⟨err, errcode, matched⟩ := status
  refine ⟨?_, ?_, ?_, ?_, ?_, code.codeSound h.code⟩
  · rw [mem]; exact h.memWf
  · rw [mem]; exact h.memInMap
  · rw [err, errcode]; exact h.errReport
  · rw [errcode]; exact h.errcodeRange
  · rw [err, matched]; exact h.matchClean

theorem writeReg_sound {r : Regs} (h : r.Sound) (v : Word) (n : RegName) : (writeReg r v n).Sound := by
  cases n <;> exact h.of_same rfl ⟨rfl, rfl, rfl, fun _ _ => rfl⟩ rfl

/-- A word stored inside a buffer other than CODE keeps the code. -/
theorem writeWord_sound {r : Regs} (h : r.Sound) (v : Word) {b : BufName} {k : Nat} (notCode : isRWBuf b = true)
    (inside : 4 * k < bufSize b) : (writeWord r v b k).Sound := by
  have fits : 4 * k + 4 ≤ bufSize b := by
    obtain ⟨-, size⟩ := bufBase_mod b
    omega
  have outside (a : Nat) (inCode : bufHolds .code a = true) :
      a < bufBase b + 4 * k ∨ bufBase b + 4 * k + 4 ≤ a := by
    by_contra inWord
    have inBuffer : bufHolds b a = true := by
      simp only [bufHolds, Bool.and_eq_true, decide_eq_true_eq]
      omega
    rw [bufHolds_unique inBuffer inCode] at notCode
    cases notCode
  have code : (writeWord r v b k).SameCode r :=
    ⟨rfl, rfl, rfl, fun a inCode => read_writeWord_outside r v b k (outside a inCode)⟩
  exact ⟨writeBytes_wf h.memWf _ _, writeBytes_inMap h.memInMap fits, h.errReport,
    h.errcodeRange, h.matchClean, code.codeSound h.code⟩

/-- The accept clears the status of the command before. -/
theorem statusCleared_sound {r : Regs} (h : r.Sound) : r.statusCleared.Sound :=
  ⟨h.memWf, h.memInMap, by simp [Regs.statusCleared], by simp [Regs.statusCleared], nofun, h.code⟩

/-- An update of IRQ_EN, DONE and OVR alone, which leaves DONE = 0 while BUSY, keeps the invariant. -/
theorem State.Inv.of_flags {s t : State} (h : s.Inv) (seq : t.seq = s.seq) (held : t.resetHeld = s.resetHeld)
    (released : s.resetHeld = false) {irqEn done ovr : Bool} (cleared : s.regs.done = false → done = false)
    (regs : t.regs = { s.regs with irqEn := irqEn, done := done, ovr := ovr }) : t.Inv := by
  rw [inv_iff] at h ⊢
  obtain ⟨sound, -, inFlight⟩ := h
  rw [seq, held, released, regs]
  refine ⟨sound.of_same rfl ⟨rfl, rfl, rfl, fun _ _ => rfl⟩ rfl, nofun, fun cur S busy => ?_⟩
  obtain ⟨⟨doneLow, err, errcode, matched⟩, snapshot⟩ := inFlight cur S busy
  refine ⟨⟨cleared doneLow, err, errcode, matched⟩, ?_⟩
  conv_lhs => rw [snapshot]

/-- A host write to a slot of the window keeps the invariant, the reset input released. -/
theorem hostWrite_inv {s : State} (h : s.Inv) (released : s.resetHeld = false) (v : Word) {sl : Slot}
    (inside : ∀ b k, sl = .word b k → 4 * k < bufSize b) : (hostWrite s v sl).Inv := by
  have sound := ((inv_iff s).mp h).1
  have effect := hostWrite_effect s v sl
  generalize hostWrite s v sl = t at effect ⊢
  cases effect with
  | inert => exact h
  | overrun => exact h.of_flags rfl rfl released id rfl
  | status => exact h.of_flags rfl rfl released (fun low => by rw [low, Bool.false_and]) rfl
  | ctrl =>
    rw [State.writeCtrl]
    split
    · exact inv_of_reset rfl rfl
    · exact h.of_flags rfl rfl released id rfl
  | accept =>
    exact inv_of_busy (statusCleared_sound sound) rfl released ⟨⟨rfl, rfl, rfl, rfl⟩, rfl⟩
  | storeReg writable idle => exact inv_of_idle (writeReg_sound sound v _) idle released
  | storeWord writable idle => exact inv_of_idle (writeWord_sound sound v writable (inside _ _ rfl)) idle released

/-! ## Every step keeps it -/

theorem busAccess_inv {a : Access} {s t : State} (h : s.Inv) (access : busAccess a s = .next t) : t.Inv := by
  obtain ⟨addr, size, op⟩ := a
  obtain rfl | ⟨off, -, aligned, -, rfl⟩ := busAccess_cases access
  · cases op <;> exact h.of_same_engine rfl rfl id
  cases op with
  | read => exact h.of_same_engine rfl rfl id
  | write v =>
    cases held : s.resetHeld with
    | true =>
      rw [windowAccess_write_held held]
      exact h.of_same_engine rfl rfl id
    | false =>
      rw [windowAccess_write held]
      exact (hostWrite_inv h held v fun b k slot => (slotAt_eq_word aligned slot).2).of_same_engine rfl rfl id

/-- Settles O38, turn by turn: completions by `completion_inv`, accesses by `busAccess_inv`, resets by `inv_of_reset`,
and the other turns leave the engine. -/
theorem everyStepKeepsTheInvariant : Obligations.EveryStepKeepsTheInvariant := by
  intro s t h runs
  have taken (rest : List Turn) : ({ s with script := rest } : State).Inv := h.of_same_engine rfl rfl id
  obtain runs | ⟨a, rest, -, access⟩ | ⟨rest, -, -, rfl⟩ | ⟨rest, -, -, rfl⟩ | ⟨rest, -, runs⟩ | ⟨rest, -, rfl⟩ |
    ⟨rest, -, rfl⟩ := step_cases runs
  · exact completion_inv h runs
  · exact busAccess_inv (taken rest) access
  · exact h.of_same_engine rfl rfl id
  · exact h.of_same_engine rfl rfl id
  · exact completion_inv (taken rest) runs
  · exact inv_of_reset rfl rfl
  · exact h.of_same_engine rfl rfl nofun

/-! ## What the invariant gives -/

/-- Settles O40: the registers of a BUSY engine are the snapshot's but for CTRL and STATUS. -/
theorem busyReadsShowTheAcceptedValues : Obligations.BusyReadsShowTheAcceptedValues := by
  intro s cur S sl h busy notStatus notCtrl
  have snapshot := h.busySnapshot cur S busy
  cases sl with
  | reserved => rfl
  | word b k =>
    rw [hostRead, snapshot]
    rfl
  | reg r =>
    rw [hostRead, snapshot]
    cases r with
    | status | ctrl => contradiction
    | id | cmd | digits | tstep | window | secretLen | keyLen | candLen | nowLo | nowHi | counterLo | counterHi | trem
    | offset | trunc | codeBin | codeLen => rfl

/-- A step of a held engine keeps the reset input held, unless its turn releases the input. -/
theorem step_held {s t : State} (held : s.resetHeld = true) (idle : s.seq = .idle) (runs : step s = .next t) :
    t.resetHeld = true ∨ ∃ rest, s.script = .resetRelease :: rest ∧ t.regs = s.regs ∧ t.seq = s.seq := by
  obtain runs | ⟨a, rest, -, access⟩ | ⟨rest, -, -, rfl⟩ | ⟨rest, -, -, rfl⟩ | ⟨rest, -, runs⟩ | ⟨rest, -, rfl⟩ |
    ⟨rest, turn, rfl⟩ := step_cases runs
  · simp only [completion, idle] at runs
    cases runs
    exact .inl held
  · left
    obtain ⟨addr, size, op⟩ := a
    obtain rfl | ⟨off, -, -, -, rfl⟩ := busAccess_cases access
    · cases op <;> exact held
    · cases op with
      | read => exact held
      | write v => rw [windowAccess_write_held (s := { s with script := rest }) held]; exact held
  · exact .inl held
  · exact .inl held
  · simp only [completion, idle] at runs
    cases runs
    exact .inl held
  · exact .inl rfl
  · exact .inr ⟨rest, turn, rfl, rfl⟩

/-- Settles O60: the invariant holds again after the step, so an engine that is still held is at its reset values; the
release changes the input alone. -/
theorem heldResetKeepsTheResetState : Obligations.HeldResetKeepsTheResetState := by
  refine ⟨fun s t h held runs => ?_, fun s off v rest held inside aligned turn => ?_, fun s rest turn => ?_⟩
  · obtain ⟨regs, seq⟩ := h.heldAtReset held
    have irq (reset : t.regs = Regs.reset) : t.irq = false := by rw [State.irq, reset]; rfl
    obtain held' | ⟨rest, turn, regs', seq'⟩ := step_held held seq runs
    · obtain ⟨regs', seq'⟩ := (everyStepKeepsTheInvariant s t h runs).heldAtReset held'
      exact ⟨regs', seq', irq regs', .inl held'⟩
    · exact ⟨regs'.trans regs, seq'.trans seq, irq (regs'.trans regs), .inr ⟨rest, turn⟩⟩
  · exact step_write_inert ⟨inside, aligned⟩ turn (.inl held)
  · exact step_resetRelease turn

end Sys2Proof.Machine
end

section
/-! HMAC's key block (R261), and what DECODE, HMAC, HOTP, VALIDATE and VALIDATE.L commit on legal operands (R205, R270,
R330, R371, R372). Settles HmacHashesLongKeysFirst, DecodeCommitsTheKey, HmacStoresTheDigest, HotpCommitsTheCode,
ValidateScansTheWindow and ValidateLegacyComparesOneCounter. -/

namespace Sys2Proof.Machine

/-! ## The key block (R261) -/

theorem hmacKeyBlock_short {K : List Byte} (h : K.length ≤ 64) : hmacKeyBlock K = padTo 64 K := if_pos h

theorem hmacKeyBlock_long {K : List Byte} (h : 64 < K.length) : hmacKeyBlock K = padTo 64 (sha1 K) :=
  if_neg (Nat.not_le.mpr h)

/-- HMAC reads a key through its block alone (R262). -/
theorem hmacSha1_congr {K K' : List Byte} (block : hmacKeyBlock K = hmacKeyBlock K') (msg : List Byte) :
    hmacSha1 K msg = hmacSha1 K' msg := by
  rw [hmacSha1, hmacSha1, block]

/-- Zero bytes at the end of a string are part of its padding. -/
theorem padTo_append_zeros {n z : Nat} {s : List Byte} (fits : s.length + z ≤ n) :
    padTo n (s ++ List.replicate z 0#8) = padTo n s := by
  have zeros : z + (n - (s.length + z)) = n - s.length := by omega
  rw [padTo, padTo, List.length_append, List.length_replicate, List.append_assoc, ← List.replicate_add, zeros]

/-- Settles O21: a digest is shorter than a block, and a block pads a key with zero bytes. -/
theorem hmacHashesLongKeysFirst : Obligations.HmacHashesLongKeysFirst := by
  refine ⟨fun K msg long => hmacSha1_congr ?_ msg, fun K msg z fits => hmacSha1_congr ?_ msg⟩
  · have digest : (sha1 K).length ≤ 64 := by rw [sha1_length]; decide
    rw [hmacKeyBlock_long long, hmacKeyBlock_short digest]
  · have padded : (K ++ List.replicate z 0#8).length ≤ 64 := by
      rw [List.length_append, List.length_replicate]
      exact fits
    rw [hmacKeyBlock_short padded, hmacKeyBlock_short (by omega), padTo_append_zeros fits]

/-! ## DECODE, HMAC and HOTP in flight -/

/-- A completion that commits a decoded key stores it padded, and nothing else (R205, R210). -/
theorem keyWrites_completesWith (s : State) (d : Draws) (K : List Byte) :
    CompletesWith s (s.completeDrawn (.ok (keyWrites K), d)) d { s.regs with keyLen := BitVec.ofNat 16 K.length }
      (storedAt .key (K ++ List.replicate (160 - K.length) 0#8)) := by
  refine succeed_completesWith (by rw [keyWrites_regs]) fun a => ?_
  rw [keyWrites_regs]
  exact storedAt_eq _ _ _ a

/-- Settles O12: SECRET_LEN passes R401's check, and the decoded key fits KEY. -/
theorem decodeCommitsTheKey : Obligations.DecodeCommitsTheKey := by
  intro s cur S key busy secretLen decodes
  have secret := badSecretLen_false.mpr secretLen
  have fits := secretKey_length_le secret decodes
  have runs := exec_busy busy .decode
  rw [cmdOf, decodeCmd_ok secret decodes] at runs
  exact ⟨_, runs, keyWrites_completesWith s s.draws key, (base32Decode_length decodes).1, fits,
    keyLen_committed_keyWrites s.regs fits⟩

/-- Settles O22: KEY_LEN passes R401's check and is not 0, and the draw is true. -/
theorem hmacStoresTheDigest : Obligations.HmacStoresTheDigest := by
  intro s cur S busy keyLow keyHigh draw
  have runs := exec_busy busy .hmac
  rw [cmdOf, hmacCmd_ok keyLow keyHigh draw] at runs
  exact ⟨_, runs, succeed_completesWith rfl fun a => storedAt_eq _ _ _ a⟩

/-- A completion that commits HOTP's writes (R330, R410). -/
theorem hotpWrites_completesWith (K : List Byte) (c : Dword) {n : Nat} (hn : n ≤ 9) (s : State) (d : Draws) :
    CompletesWith s (s.completeDrawn (.ok (hotpWrites (hotpValue K c n) n), d)) d
      { s.regs with offset := (hotpValue K c n).offset, trunc := (hotpValue K c n).trunc,
                    codeBin := BitVec.ofNat 32 (hotpValue K c n).code, codeLen := BitVec.ofNat 4 n, codeValid := true }
      (hotpStored K c n) :=
  succeed_completesWith (by rw [hotpWrites_regs]) (read_hotpWrites K c hn s.regs)

/-- Settles O26: DIGITS and KEY_LEN pass R401's checks, and COUNTER is the number c. -/
theorem hotpCommitsTheCode : Obligations.HotpCommitsTheCode := by
  intro s cur S c h busy digitsLow digitsHigh keyLow keyHigh draw value result
  obtain rfl : S.counter = c := BitVec.eq_of_toNat_eq ((counter_toNat S).trans value.symm)
  subst result
  have runs := exec_busy busy .hotp
  rw [cmdOf, hotpCmd_ok (badDigits_false.mpr ⟨digitsLow, digitsHigh⟩) keyLow keyHigh draw] at runs
  exact ⟨_, runs, hotpWrites_completesWith _ _ digitsHigh s _⟩

/-! ## VALIDATE and VALIDATE.L in flight -/

/-- A completion that commits MATCH alone. -/
theorem matched_completesWith (s : State) (d : Draws) (m : Bool) :
    CompletesWith s (s.completeDrawn (.ok [.matched m], d)) d { s.regs with matched := m } (fun _ => none) :=
  succeed_completesWith rfl fun _ => rfl

theorem codeEq_iff (cand s : List Byte) : codeEq cand s = true ↔ cand = s := beq_iff_eq

/-- The scan finds a match exactly when a counter of the window has the candidate as its code. -/
theorem any_windowCounters_iff (K : List Byte) (n : Nat) (cand : List Byte) (c : Dword) (w : Nat) :
    ((windowCounters c w).any fun j => codeEq cand (hotpValue K j n).text) = true ↔
      windowMatches K n cand c.toNat w := by
  simp only [List.any_eq_true, codeEq_iff, mem_windowCounters, windowMatches, inWindow]
  constructor
  · rintro ⟨j, ⟨low, high⟩, found⟩
    refine ⟨j.toNat, ⟨low, high, j.isLt⟩, ?_⟩
    rwa [BitVec.ofNat_toNat, BitVec.setWidth_eq]
  · rintro ⟨j, ⟨low, high, bound⟩, found⟩
    have value : (BitVec.ofNat 64 j).toNat = j := Nat.mod_eq_of_lt bound
    exact ⟨BitVec.ofNat 64 j, by rw [value]; exact ⟨low, high⟩, found⟩

/-- Settles O32: every draw of the scan is true, and the scan's counters are those of the window. -/
theorem validateScansTheWindow : Obligations.ValidateScansTheWindow := by
  intro s cur S K busy legal decodes draws
  have runs := exec_busy busy .validate
  rw [cmdOf, validateCmd_ok legal decodes draws] at runs
  refine ⟨_, _, runs, matched_completesWith s _ _, ?_⟩
  rw [any_windowCounters_iff, timeCounter_toNat]

/-- Settles O33: the one counter compared is the number NOW div TSTEP. -/
theorem validateLegacyComparesOneCounter : Obligations.ValidateLegacyComparesOneCounter := by
  intro s cur S K busy legal decodes draw
  have runs := exec_busy busy .validateL
  rw [cmdOf, validateLCmd_ok legal decodes draw] at runs
  refine ⟨_, _, runs, matched_completesWith s _ _, ?_⟩
  rw [codeEq_iff, ← timeCounter_toNat, BitVec.ofNat_toNat, BitVec.setWidth_eq]

end Sys2Proof.Machine
end

section
/-! TOTP and the validators on two machines that agree on their inputs (R71, R133): the command functions return the
same, and a result set leaves the same in every register and buffer it writes. Settles CompositesReadOnlyTheirInputs. -/

namespace Sys2Proof.Machine

/-! ## The functions on snapshots that agree -/

section
variable {U S : Regs} (same : SameTotpInputs U S) (p : Config.Platform) (d : Draws)
include same

theorem SameTotpInputs.badDigits_eq : U.badDigits = S.badDigits := by
  rw [Regs.badDigits, Regs.badDigits, same.digits]

theorem SameTotpInputs.badTstep_eq : U.badTstep = S.badTstep := by
  rw [Regs.badTstep, Regs.badTstep, same.tstep]

theorem SameTotpInputs.badSecretLen_eq : U.badSecretLen = S.badSecretLen := by
  rw [Regs.badSecretLen, Regs.badSecretLen, same.secretLen]

theorem SameTotpInputs.totpCmd_eq : totpCmd p d U = totpCmd p d S := by
  rw [totpCmd, totpCmd, same.badDigits_eq, same.badTstep_eq, same.badSecretLen_eq, same.secretText,
    same.timeCounter_eq, same.digits]

theorem SameTotpInputs.validateFront_eq (candLen : U.candLen = S.candLen) {windowed : Bool}
    (window : windowed = true → U.window = S.window) : validateFront U windowed = validateFront S windowed := by
  have candBad : U.badCandLen = S.badCandLen := by rw [Regs.badCandLen, Regs.badCandLen, candLen]
  have windowBad : (windowed && U.badWindow) = (windowed && S.badWindow) := by
    cases windowed with
    | false => rw [Bool.false_and, Bool.false_and]
    | true => rw [Regs.badWindow, Regs.badWindow, Regs.windowInt, Regs.windowInt, window rfl]
  rw [validateFront, validateFront, same.badDigits_eq, same.badTstep_eq, same.badSecretLen_eq, candBad, windowBad,
    same.secretText, same.timeCounter_eq, same.digits]

theorem SameTotpInputs.validateCmd_eq (candLen : U.candLen = S.candLen) (candText : U.candText = S.candText)
    (window : U.window = S.window) : validateCmd p d U = validateCmd p d S := by
  rw [validateCmd, validateCmd, same.validateFront_eq candLen fun _ => window, candText, Regs.windowInt, Regs.windowInt,
    window]

theorem SameTotpInputs.validateLCmd_eq (candLen : U.candLen = S.candLen) (candText : U.candText = S.candText) :
    validateLCmd p d U = validateLCmd p d S := by
  rw [validateLCmd, validateLCmd, same.validateFront_eq (windowed := false) candLen nofun, candText]

end

/-! ## The same result committed by two machines -/

/-- What a completion reports depends on the function's result alone (R410, R411). -/
theorem completeDrawn_errcode_eq (s u : State) (x : CmdResult × Draws) :
    (s.completeDrawn x).regs.errcode = (u.completeDrawn x).regs.errcode := by
  obtain ⟨-, errcode⟩ := complete_report s x.1
  obtain ⟨-, errcode'⟩ := complete_report u x.1
  rw [completeDrawn_regs, completeDrawn_regs, errcode, errcode']

/-- A completion without error committed a result set. -/
theorem ok_of_completeDrawn_clean {s : State} {x : CmdResult × Draws} (clean : (s.completeDrawn x).regs.err = false) :
    ∃ W d, x = (.ok W, d) := by
  obtain ⟨e | W, d⟩ := x
  · simp at clean
  · exact ⟨W, d, rfl⟩

/-- TOTP stores every byte of KEY, CTRBYTES, DIGEST and CODE. -/
theorem totpStored_isSome (K : List Byte) (c : Dword) {n : Nat} (hn : n ≤ 9) (fits : K.length ≤ 160) {b : BufName}
    (result : b ∈ storesTo .totp) {a : Nat} (inside : bufHolds b a = true) :
    (storedAt .key (K ++ List.replicate (160 - K.length) 0#8) a <|> hotpStored K c n a).isSome = true := by
  obtain ⟨message, digest, -⟩ := hotpValue_lengths K c n
  have code := hotp_code_length K c hn
  cases b with
  | cand | secret => contradiction
  | key =>
    have key : (K ++ List.replicate (160 - K.length) 0#8).length = bufSize .key := padTo_length fits
    simp [storedAt_isSome key inside]
  | ctrBytes => simp [hotpStored, storedAt_isSome message inside]
  | digest => simp [hotpStored, storedAt_isSome digest inside]
  | code => simp [hotpStored, storedAt_isSome code inside]

/-- TOTP's result set leaves the same in every register it writes, whatever they held. -/
theorem totpWrites_registers_eq {s u t v : State} {d : Draws} {K : List Byte} {c : Dword} {n : Nat}
    (ht : t = s.completeDrawn (.ok (totpWrites K c n), d)) (hv : v = u.completeDrawn (.ok (totpWrites K c n), d)) :
    t.regs.keyLen = v.regs.keyLen ∧ t.regs.counterHi = v.regs.counterHi ∧ t.regs.counterLo = v.regs.counterLo ∧
      t.regs.offset = v.regs.offset ∧ t.regs.trunc = v.regs.trunc ∧ t.regs.codeBin = v.regs.codeBin ∧
      t.regs.codeLen = v.regs.codeLen := by
  have registers (s : State) :
      (s.completeDrawn (.ok (totpWrites K c n), d)).regs = s.regs.succeeded (totpWrites K c n) := rfl
  simp only [ht, hv, registers, succeeded_totpWrites, succeeded_hotpWrites, succeeded_keyWrites, and_self]

/-- TOTP's result set leaves the same bytes in every buffer it stores to, whatever they held. -/
theorem totpWrites_buffers_eq (s u : State) (d : Draws) (K : List Byte) (c : Dword) {n : Nat} (hn : n ≤ 9)
    (fits : K.length ≤ 160) {b : BufName} (result : b ∈ storesTo .totp) :
    (s.completeDrawn (.ok (totpWrites K c n), d)).regs.buf b (bufSize b) =
      (u.completeDrawn (.ok (totpWrites K c n), d)).regs.buf b (bufSize b) := by
  refine readBytes_congr fun i hi => ?_
  have inside : bufHolds b (bufBase b + i) = true := by
    simp only [bufHolds, Bool.and_eq_true, decide_eq_true_eq]
    omega
  obtain ⟨byte, stored⟩ := Option.isSome_iff_exists.mp (totpStored_isSome K c hn fits result inside)
  rw [(totpWrites_completesWith K c hn s d fits).read, (totpWrites_completesWith K c hn u d fits).read, stored,
    Option.getD_some, Option.getD_some]

/-- A completion of a validator's result reports and commits the same on any two machines. -/
theorem validation_eq {S : Regs} {i : Instr} (validator : i = .validate ∨ i = .validateL) {p : Config.Platform}
    {d : Draws} {x : CmdResult × Draws} (returns : cmdOf i p d S = x) (s u : State) :
    (s.completeDrawn x).regs.errcode = (u.completeDrawn x).regs.errcode ∧
      ((s.completeDrawn x).regs.err = false →
        (s.completeDrawn x).regs.matched = (u.completeDrawn x).regs.matched) := by
  refine ⟨completeDrawn_errcode_eq s u x, fun clean => ?_⟩
  obtain ⟨W, d', rfl⟩ := ok_of_completeDrawn_clean clean
  have mayReturn := mayReturn_of_cmdOf returns
  obtain rfl | rfl := validator
  all_goals cases mayReturn; rfl

/-- Settles O37: on the same inputs a command's function returns the same, so both machines commit the same result. -/
theorem compositesReadOnlyTheirInputs : Obligations.CompositesReadOnlyTheirInputs := by
  intro s u t v cur cur' S U busy busy' draws platform digits tstep nowHi nowLo secretLen secretText
  have same : SameTotpInputs S U := ⟨digits, tstep, nowHi, nowLo, secretLen, secretText⟩
  refine ⟨fun runs runs' => ?_, fun candLen candText => ⟨fun window runs runs' => ?_, fun runs runs' => ?_⟩⟩
  · rw [exec_busy busy, cmdOf, same.totpCmd_eq, draws, platform] at runs
    rw [exec_busy busy', cmdOf] at runs'
    cases runs
    cases runs'
    refine ⟨completeDrawn_errcode_eq s u _, fun clean => ?_⟩
    obtain ⟨W, d, returns⟩ := ok_of_completeDrawn_clean clean
    have mayReturn := mayReturn_of_cmdOf (i := .totp) returns
    rw [returns]
    cases mayReturn with
    | totp legal K fits =>
      obtain ⟨keyLen, counterHi, counterLo, offset, trunc, codeBin, codeLen⟩ :=
        totpWrites_registers_eq (s := s) (u := u) rfl rfl
      exact ⟨keyLen, counterHi, counterLo, offset, trunc, codeBin, codeLen,
        fun b result => totpWrites_buffers_eq s u d K _ (badDigits_false.mp legal).2 fits result⟩
  · rw [exec_busy busy, cmdOf, same.validateCmd_eq _ _ candLen candText window, draws, platform] at runs
    rw [exec_busy busy', cmdOf] at runs'
    cases runs
    cases runs'
    exact validation_eq (i := .validate) (.inl rfl) rfl s u
  · rw [exec_busy busy, cmdOf, same.validateLCmd_eq _ _ candLen candText, draws, platform] at runs
    rw [exec_busy busy', cmdOf] at runs'
    cases runs
    cases runs'
    exact validation_eq (i := .validateL) (.inr rfl) rfl s u

end Sys2Proof.Machine
end

section
/-! The status flags over a step: everything a step can do to the registers and the sequencer, and which of it clears or
sets DONE, ERR, MATCH and OVR (R40, R42-R45). Settles DoneAndOverrunClearOnlyAtTheirEvents and
StatusFlagsAreSetOnlyAtTheirEvents. -/

namespace Sys2Proof.Machine

/-! ## What a step does to the engine -/

/-- Everything a step from s to t can do to the registers and the sequencer: nothing, the completion of the command in
flight, a host write of the window, or the hardware reset. The completion and the write run on a state s' that differs
from s by the turns to come. -/
inductive StepEffect (s t : State) : Prop where
  | none (regs : t.regs = s.regs) (seq : t.seq = s.seq)
  | completion {s' : State} (regs : s'.regs = s.regs) (seq : s'.seq = s.seq) (busy : s.seq ≠ .idle)
      (runs : completion s' = .next t)
  | write {s' u : State} {off : Nat} {v : Word} {rest : List Turn} (regs : s'.regs = s.regs) (seq : s'.seq = s.seq)
      (turn : s.script = writeTurn s off v :: rest) (aligned : off % 4 = 0) (effect : WriteEffect s' v (slotAt off) u)
      (regs' : t.regs = u.regs) (seq' : t.seq = u.seq)
  | reset {rest : List Turn} (turn : s.script = .resetAssert :: rest) (regs : t.regs = Regs.reset)

/-- The completion step of an idle engine does nothing. -/
theorem completion_effect {s s' t : State} (regs : s'.regs = s.regs) (seq : s'.seq = s.seq)
    (runs : completion s' = .next t) : StepEffect s t := by
  by_cases idle : s.seq = .idle
  · simp only [completion, seq.trans idle] at runs
    cases runs
    exact .none regs seq
  · exact .completion regs seq idle runs

theorem busAccess_effect {s s' t : State} {a : Access} {rest : List Turn} (turn : s.script = .access a :: rest)
    (regs : s'.regs = s.regs) (seq : s'.seq = s.seq) (platform : s'.platform = s.platform)
    (access : busAccess a s' = .next t) : StepEffect s t := by
  obtain ⟨addr, size, op⟩ := a
  obtain rfl | ⟨off, -, aligned, addressed, rfl⟩ := busAccess_cases access
  · cases op <;> exact .none regs seq
  cases op with
  | read => exact .none regs seq
  | write v =>
    cases held : s'.resetHeld with
    | true =>
      rw [windowAccess_write_held held]
      exact .none regs seq
    | false =>
      rw [windowAccess_write held]
      rw [addressed, platform] at turn
      exact .write regs seq turn aligned (hostWrite_effect s' v (slotAt off)) rfl rfl

theorem step_effect {s t : State} (runs : step s = .next t) : StepEffect s t := by
  obtain runs | ⟨a, rest, turn, access⟩ | ⟨rest, -, -, rfl⟩ | ⟨rest, -, -, rfl⟩ | ⟨rest, -, runs⟩ | ⟨rest, turn, rfl⟩ |
    ⟨rest, -, rfl⟩ := step_cases runs
  · exact completion_effect rfl rfl runs
  · exact busAccess_effect (s' := { s with script := rest }) turn rfl rfl rfl access
  · exact .none rfl rfl
  · exact .none rfl rfl
  · exact completion_effect (s' := { s with script := rest }) rfl rfl runs
  · exact .reset turn rfl
  · exact .none rfl rfl

/-! ## What a host write does to the flags -/

theorem writeReg_flags (r : Regs) (v : Word) (n : RegName) :
    (writeReg r v n).done = r.done ∧ (writeReg r v n).err = r.err ∧ (writeReg r v n).matched = r.matched ∧
      (writeReg r v n).ovr = r.ovr := by
  cases n <;> exact ⟨rfl, rfl, rfl, rfl⟩

section
variable {s u : State} {v : Word} {sl : Slot} (h : WriteEffect s v sl u)
include h

/-- A host write keeps DONE, unless it is a soft reset, a STATUS write of 1 to bit 1, or an accept. -/
theorem WriteEffect.done_cases :
    u.regs.done = s.regs.done ∨ (sl = .reg .ctrl ∧ v.getLsbD 1 = true) ∨ (sl = .reg .status ∧ v.getLsbD 1 = true) ∨
      (sl = .reg .cmd ∧ s.seq = .idle) := by
  cases h with
  | inert | overrun | storeWord => exact .inl rfl
  | @storeReg n =>
    obtain ⟨done, -⟩ := writeReg_flags s.regs v n
    exact .inl done
  | accept idle => exact .inr (.inr (.inr ⟨rfl, idle⟩))
  | ctrl =>
    rw [State.writeCtrl]
    split
    next soft => exact .inr (.inl ⟨rfl, soft⟩)
    next => exact .inl rfl
  | status =>
    cases bit : v.getLsbD 1 with
    | true => exact .inr (.inr (.inl ⟨rfl, rfl⟩))
    | false => left; simp only [Regs.writeStatus, bit, Bool.not_false, Bool.and_true]

/-- A host write keeps OVR, unless it is a soft reset, a STATUS write of 1 to bit 5, or a write that a BUSY engine
drops. -/
theorem WriteEffect.ovr_cases :
    u.regs.ovr = s.regs.ovr ∨ (u.regs.ovr = false ∧ sl = .reg .ctrl ∧ v.getLsbD 1 = true) ∨
      (u.regs.ovr = false ∧ sl = .reg .status ∧ v.getLsbD 5 = true) ∨
      (u.regs.ovr = true ∧ sl.isProtected = true ∧ s.busy = true ∧ u.seq = s.seq) := by
  cases h with
  | inert | storeWord | accept => exact .inl rfl
  | @storeReg n =>
    obtain ⟨-, -, -, ovr⟩ := writeReg_flags s.regs v n
    exact .inl ovr
  | overrun guarded busy => exact .inr (.inr (.inr ⟨rfl, guarded, busy, rfl⟩))
  | ctrl =>
    rw [State.writeCtrl]
    split
    next soft => exact .inr (.inl ⟨rfl, rfl, soft⟩)
    next => exact .inl rfl
  | status =>
    cases bit : v.getLsbD 5 with
    | true => exact .inr (.inr (.inl ⟨by simp [Regs.writeStatus, bit], rfl, rfl⟩))
    | false => left; simp only [Regs.writeStatus, bit, Bool.not_false, Bool.and_true]

/-- No host write sets DONE, ERR or MATCH. -/
theorem WriteEffect.sets_no_report :
    (u.regs.done = true → s.regs.done = true) ∧ (u.regs.err = true → s.regs.err = true) ∧
      (u.regs.matched = true → s.regs.matched = true) := by
  cases h with
  | inert | overrun | storeWord => exact ⟨id, id, id⟩
  | @storeReg n =>
    obtain ⟨done, err, matched, -⟩ := writeReg_flags s.regs v n
    exact ⟨done.symm.trans, err.symm.trans, matched.symm.trans⟩
  | accept => exact ⟨nofun, nofun, nofun⟩
  | ctrl =>
    rw [State.writeCtrl]
    split
    · exact ⟨nofun, nofun, nofun⟩
    · exact ⟨id, id, id⟩
  | status => exact ⟨fun set => (Bool.and_eq_true_iff.mp set).1, id, id⟩

end

/-! ## What a completion does to the flags -/

/-- A completion keeps OVR (R410, R411). -/
theorem completion_ovr {s t : State} (runs : completion s = .next t) : t.regs.ovr = s.regs.ovr := by
  obtain ⟨-, rfl⟩ | ⟨cur, S, i, busy, -, runs⟩ | ⟨cur, S, e, -, -, rfl⟩ := completion_cases runs
  · rfl
  · rw [exec_busy busy] at runs
    cases runs
    exact complete_ovr s _
  · exact complete_ovr s (.error .illegalCommand)

/-- Only the validators' result sets write MATCH (R44, R133). -/
theorem MayReturn.matched_eq {S : Regs} {i : Instr} {W : List RegWrite} (h : MayReturn S i W) (r : Regs)
    (notValidate : i ≠ .validate) (notValidateL : i ≠ .validateL) : (r.succeeded W).matched = r.matched := by
  cases h with
  | validate | validateL => contradiction
  | decode | encctr | hmac | trunc | format | hotp | totp | trem => simp [Regs.applyWrite]

/-- A completion that sets MATCH is a validator's (R44). -/
theorem completion_sets_matched {s t : State} (runs : completion s = .next t) (clear : s.regs.matched = false)
    (set : t.regs.matched = true) :
    ∃ cur S, s.seq = .busy cur S ∧ (decode cur = .ok .validate ∨ decode cur = .ok .validateL) := by
  obtain ⟨-, rfl⟩ | ⟨cur, S, i, busy, decoded, runs⟩ | ⟨cur, S, e, -, -, rfl⟩ := completion_cases runs
  · rw [clear] at set; cases set
  · refine ⟨cur, S, busy, ?_⟩
    rw [decoded]
    obtain ⟨e, regs⟩ | ⟨W, d, returns, regs⟩ := exec_regs_cases runs
    · rw [regs] at set; cases set
    · by_contra other
      simp only [Except.ok.injEq, not_or] at other
      rw [regs, issue_of_seq_busy busy, (mayReturn_of_cmdOf returns).matched_eq _ other.1 other.2, clear] at set
      cases set
  · cases set

/-! ## The obligations -/

/-- A write turn to a register's slot is a write at the register's offset of the map. -/
theorem turn_of_slotAt {s : State} {off : Nat} {v : Word} {rest : List Turn} {r : RegName}
    (turn : s.script = writeTurn s off v :: rest) (slot : slotAt off = .reg r) :
    s.script = writeTurn s (regOffset r) v :: rest := by
  rw [turn, slotAt_eq_reg slot]

/-- Settles O50: a completion sets DONE and keeps OVR, so only resets and host writes clear them. -/
theorem doneAndOverrunClearOnlyAtTheirEvents : Obligations.DoneAndOverrunClearOnlyAtTheirEvents := by
  intro s t runs
  constructor
  · intro set clear
    cases step_effect runs with
    | none regs => rw [regs, set] at clear; cases clear
    | completion regs seq busy runs =>
      obtain ⟨-, done, -⟩ := completion_of_busy (seq ▸ busy) runs
      rw [done] at clear; cases clear
    | reset turn => exact .inl (.inl ⟨_, turn⟩)
    | write regs seq turn aligned effect regs' =>
      obtain same | ⟨slot, soft⟩ | ⟨slot, bit⟩ | ⟨slot, idle⟩ := effect.done_cases
      · rw [regs', same, regs, set] at clear; cases clear
      · exact .inl (.inr ⟨_, _, soft, turn_of_slotAt turn slot⟩)
      · exact .inr (.inl ⟨_, _, bit, turn_of_slotAt turn slot⟩)
      · exact .inr (.inr ⟨_, _, seq ▸ idle, turn_of_slotAt turn slot⟩)
  · intro set clear
    cases step_effect runs with
    | none regs => rw [regs, set] at clear; cases clear
    | completion regs seq busy runs => rw [completion_ovr runs, regs, set] at clear; cases clear
    | reset turn => exact .inl (.inl ⟨_, turn⟩)
    | write regs seq turn aligned effect regs' =>
      obtain same | ⟨-, slot, soft⟩ | ⟨-, slot, bit⟩ | ⟨raised, -⟩ := effect.ovr_cases
      · rw [regs', same, regs, set] at clear; cases clear
      · exact .inl (.inr ⟨_, _, soft, turn_of_slotAt turn slot⟩)
      · exact .inr ⟨_, _, bit, turn_of_slotAt turn slot⟩
      · rw [regs', raised] at clear; cases clear

/-- Settles O51: no host write sets DONE, ERR or MATCH, and no completion sets OVR. -/
theorem statusFlagsAreSetOnlyAtTheirEvents : Obligations.StatusFlagsAreSetOnlyAtTheirEvents := by
  intro s t runs
  cases step_effect runs with
  | none regs =>
    rw [regs]
    refine ⟨fun clear set => ?_, fun clear set => ?_, fun clear set => ?_, fun clear set => ?_⟩
    all_goals rw [clear] at set; cases set
  | reset turn regs =>
    rw [regs]
    exact ⟨nofun, nofun, nofun, nofun⟩
  | completion regs seq busy runs =>
    obtain ⟨idle, done, -⟩ := completion_of_busy (seq ▸ busy) runs
    refine ⟨fun _ _ => ⟨busy, idle⟩, fun _ _ => ⟨busy, idle, done⟩, fun clear set => ?_, fun clear set => ?_⟩
    · obtain ⟨cur, S, inFlight, validator⟩ := completion_sets_matched runs (by rw [regs, clear]) set
      exact ⟨cur, S, seq ▸ inFlight, validator, idle⟩
    · rw [completion_ovr runs, regs, clear] at set
      cases set
  | write regs seq turn aligned effect regs' seq' =>
    obtain ⟨done, err, matched⟩ := effect.sets_no_report
    rw [regs] at done err matched
    rw [regs']
    refine ⟨fun clear set => ?_, fun clear set => ?_, fun clear set => ?_, fun clear set => ?_⟩
    · rw [done set] at clear; cases clear
    · rw [err set] at clear; cases clear
    · rw [matched set] at clear; cases clear
    · obtain same | ⟨lowered, -⟩ | ⟨lowered, -⟩ | ⟨-, guarded, busy, kept⟩ := effect.ovr_cases
      · rw [same, regs, clear] at set; cases set
      · rw [lowered] at set; cases set
      · rw [lowered] at set; cases set
      · obtain ⟨cur, S, inFlight⟩ := (busy_iff_seq_busy _).mp busy
        refine ⟨?_, seq'.trans (kept.trans seq), _, _, _, protectedOffset_of_isProtected aligned guarded, turn⟩
        rw [← seq, inFlight]
        nofun

end Sys2Proof.Machine
end

section
/-! Runs: the step of a due completion and of a placed word (logs 5, 6), the end of a command in flight (R111), the WAIT
after an accept (R137), and what no step changes. Settles SomeWordsDecodeAsTheTableSays, StepRunsTheDecodedCommand,
PlacedWordRunsAtTheNextStep, IdleExecIsAcceptThenCompletion, CommandsInFlightEnd, WaitObservesTheCompletion and
StepsKeepThePlatformParameters. -/

namespace Sys2Proof.Machine

/-! ## Which step completes a command -/

/-- Settles O1, word by word. -/
theorem someWordsDecodeAsTheTableSays : Obligations.SomeWordsDecodeAsTheTableSays := by
  unfold Obligations.SomeWordsDecodeAsTheTableSays
  decide

theorem step_no_turn {s : State} (turns : s.script = []) : step s = completion s := by
  simp only [step, takeTurn, turns]

theorem step_wait_pending {s : State} {rest : List Turn} (turn : s.script = .wait :: rest)
    (pending : s.regs.done = false) : step s = completion s := by
  simp only [step, takeTurn, turn, pending, Bool.false_eq_true, if_false]

theorem step_waitIrq_pending {s : State} {rest : List Turn} (turn : s.script = .waitIrq :: rest)
    (pending : s.irq = false) : step s = completion s := by
  simp only [step, takeTurn, turn, pending, Bool.false_eq_true, if_false]

theorem step_wait_done {s : State} {rest : List Turn} (turn : s.script = .wait :: rest) (done : s.regs.done = true) :
    step s = .next ({ s with script := rest } : State).statusPoll := by
  simp only [step, takeTurn, turn, done, if_true]

theorem step_waitIrq_raised {s : State} {rest : List Turn} (turn : s.script = .waitIrq :: rest) (irq : s.irq = true) :
    step s = .next { s with script := rest, doneSeen := true } := by
  simp only [step, takeTurn, turn, irq, if_true]

/-- Settles O3: at each of the four the step is the completion, which runs the decoded command. -/
theorem stepRunsTheDecodedCommand : Obligations.StepRunsTheDecodedCommand := by
  intro s cur S i busy decoded
  have runs := completion_of_decode_ok busy decoded
  refine ⟨fun turns => (step_no_turn turns).trans runs, fun rest turn => ?_,
    fun rest turn pending => (step_wait_pending turn pending).trans runs,
    fun rest turn pending => (step_waitIrq_pending turn pending).trans runs⟩
  exact (step_engine turn).trans (completion_of_decode_ok (s := { s with script := rest }) busy decoded)

theorem decode_of_decodeTableWord {nbits w : Nat} {i : Instr} (h : decodeTableWord nbits w = some i) :
    decode (BitVec.ofNat 32 (w % 2 ^ nbits)) = .ok i := by
  rw [decodeTableWord] at h
  split at h
  · cases h; assumption
  · cases h

/-- Settles O4: the loaded state's engine turn completes the word just accepted, which is the command's own. -/
theorem placedWordRunsAtTheNextStep : Obligations.PlacedWordRunsAtTheNextStep := by
  intro s nbits w i row
  have decoded := decode_of_decodeTableWord row
  rw [State.withFetchWord, decode_eq_ok_iff.mp decoded]
  exact (step_engine (s := s.load (encode i)) rfl).trans (completion_of_decode_ok rfl (decode_encode i))

/-- Settles O5: both take the same registers as snapshot and complete the same accept. -/
theorem idleExecIsAcceptThenCompletion : Obligations.IdleExecIsAcceptThenCompletion := by
  intro s i idle
  rw [exec_idle idle, exec_busy (accept_seq s (encode i)), accept_platform, accept_draws]

/-! ## The end of a command in flight (R111) -/

/-- The completion of a command in flight always ends, with the engine idle and DONE = 1, and keeps the turns to come
and the reset input. -/
theorem completion_ends {s : State} {cur : Word} {S : Regs} (busy : s.seq = .busy cur S) :
    ∃ t, completion s = .next t ∧ t.seq = .idle ∧ t.regs.done = true ∧ t.script = s.script := by
  cases decoded : decode cur with
  | error why => exact ⟨_, completion_of_decode_error busy decoded, fail_seq _ _, by simp, fail_script _ _⟩
  | ok i =>
    obtain ⟨t, runs, idle, done, -, -, script, -⟩ := everyCommandCompletes i s
    exact ⟨t, (completion_of_decode_ok busy decoded).trans runs, idle, done, script⟩

/-- A host write keeps the turns to come and the OPEN parameters. -/
theorem WriteEffect.own_fields {s u : State} {v : Word} {sl : Slot} (h : WriteEffect s v sl u) :
    u.script = s.script ∧ u.platform = s.platform := by
  cases h with
  | inert | overrun | status | accept | storeReg | storeWord => exact ⟨rfl, rfl⟩
  | ctrl => rw [State.writeCtrl]; split <;> exact ⟨rfl, rfl⟩

theorem windowAccess_own_fields (s : State) (off : Nat) (op : AccessOp) :
    (windowAccess s off op).script = s.script ∧ (windowAccess s off op).platform = s.platform := by
  cases op with
  | read => exact ⟨rfl, rfl⟩
  | write v =>
    cases held : s.resetHeld with
    | true => rw [windowAccess_write_held held]; exact ⟨rfl, rfl⟩
    | false => rw [windowAccess_write held]; exact (hostWrite_effect s v (slotAt off)).own_fields

theorem busError_own_fields (s : State) (op : AccessOp) :
    (s.busError op).script = s.script ∧ (s.busError op).platform = s.platform := by
  cases op <;> exact ⟨rfl, rfl⟩

/-- An access leaves the window, or it completes and keeps the turns to come. -/
theorem busAccess_outcome (a : Access) (s : State) :
    busAccess a s = .fault (.outsideWindow a.addr) ∨ ∃ t, busAccess a s = .next t ∧ t.script = s.script := by
  rw [busAccess]
  split_ifs
  · exact .inl rfl
  · exact .inr ⟨_, rfl, (busError_own_fields s a.op).1⟩
  · exact .inr ⟨_, rfl, (windowAccess_own_fields s _ a.op).1⟩

/-- A step of a BUSY engine ends the command, takes a turn, or leaves the window. -/
theorem step_busy {s : State} {cur : Word} {S : Regs} (busy : s.seq = .busy cur S) :
    (∃ t, step s = .next t ∧ (t.seq = .idle ∨ t.script.length < s.script.length)) ∨
      ∃ a, step s = .fault (.outsideWindow a) := by
  obtain ⟨t, runs, idle, -⟩ := completion_ends busy
  match turns : s.script with
  | [] => exact .inl ⟨t, (step_no_turn turns).trans runs, .inl idle⟩
  | .access a :: rest =>
    have runs := step_access turns
    obtain faults | ⟨t, access, script⟩ := busAccess_outcome a { s with script := rest }
    · exact .inr ⟨a.addr, runs.trans faults⟩
    · exact .inl ⟨t, runs.trans access, .inr (by rw [script]; exact Nat.lt_succ_self _)⟩
  | .wait :: rest =>
    cases done : s.regs.done with
    | true => exact .inl ⟨_, step_wait_done turns done, .inr (Nat.lt_succ_self _)⟩
    | false => exact .inl ⟨t, (step_wait_pending turns done).trans runs, .inl idle⟩
  | .waitIrq :: rest =>
    cases irq : s.irq with
    | true => exact .inl ⟨_, step_waitIrq_raised turns irq, .inr (Nat.lt_succ_self _)⟩
    | false => exact .inl ⟨t, (step_waitIrq_pending turns irq).trans runs, .inl idle⟩
  | .engine :: rest =>
    obtain ⟨t, runs, idle, -⟩ := completion_ends (s := { s with script := rest }) busy
    exact .inl ⟨t, (step_engine turns).trans runs, .inl idle⟩
  | .resetAssert :: rest => exact .inl ⟨_, step_resetAssert turns, .inl rfl⟩
  | .resetRelease :: rest => exact .inl ⟨_, step_resetRelease turns, .inr (Nat.lt_succ_self _)⟩

/-- Settles O55, by induction on the turns to come: a step that does not end the command takes one of them. -/
theorem commandsInFlightEnd : Obligations.CommandsInFlightEnd := by
  intro s cur S busy
  induction turns : s.script.length using Nat.strong_induction_on generalizing s cur S with
  | _ n ih =>
    obtain ⟨t, runs, progress⟩ | ⟨a, faults⟩ := step_busy busy
    · match seq : t.seq with
      | .idle => exact ⟨1, Nat.le_add_left 1 n, .inl ⟨t, run_succ runs 0, seq⟩⟩
      | .busy cur' S' =>
        have shorter : t.script.length < n := turns ▸ progress.resolve_left (by rw [seq]; nofun)
        obtain ⟨k, bound, outcome⟩ := ih t.script.length shorter t cur' S' seq rfl
        refine ⟨k + 1, by omega, ?_⟩
        rw [run_succ runs]
        exact outcome
    · exact ⟨1, Nat.le_add_left 1 n, .inr ⟨a, run_succ_fault faults 0⟩⟩

/-! ## The WAIT after an accept (R137) -/

/-- The poll of an idle engine with DONE = 1 reads STATUS with DONE = 1 and observes the completion (R137, R471). -/
theorem statusPoll_done (s : State) (done : s.regs.done = true) :
    s.statusPoll = { s with resp := some ⟨false, some (hostRead s (.reg .status))⟩, doneSeen := true } := by
  rw [State.statusPoll, windowAccess, slotAt_regOffset]
  simp [State.observe, done]

/-- Settles O56: the first step completes the command, the second reads STATUS; on an idle engine the completion step
does nothing. -/
theorem waitObservesTheCompletion : Obligations.WaitObservesTheCompletion := by
  refine ⟨fun s cur S rest busy pending turn => ?_, fun s rest idle pending turn => ?_⟩
  · obtain ⟨t, runs, idle, done, script⟩ := completion_ends busy
    have first := (step_wait_pending turn pending).trans runs
    have second := step_wait_done (script.trans turn) done
    rw [statusPoll_done { t with script := rest } done] at second
    let t' : State :=
      { t with script := rest, resp := some ⟨false, some (hostRead t (.reg .status))⟩, doneSeen := true }
    have run : Sys2Proof.core.run 2 s = .next t' := by
      rw [run_succ first, run_succ second, run_zero]
      rfl
    refine ⟨t', hostRead t (.reg .status), run, idle, rfl, rfl, rfl, rfl, ?_, fun last => ?_⟩
    · rw [hostRead, readReg, statusWord_getLsbD]
      exact done
    · have notBusy : t'.busy = false := busy_of_seq_idle idle
      rw [State.ended, State.hostDone, last, notBusy]
      rfl
  · rw [step_wait_pending turn pending]
    simp only [completion, idle]

/-! ## The OPEN parameters -/

theorem completion_platform {s t : State} (runs : completion s = .next t) : t.platform = s.platform := by
  obtain ⟨-, rfl⟩ | ⟨cur, S, i, -, -, runs⟩ | ⟨cur, S, e, -, -, rfl⟩ := completion_cases runs
  · rfl
  · obtain ⟨t', runs', -, -, -, -, -, -, platform, -⟩ := everyCommandCompletes i s
    rw [runs] at runs'
    cases runs'
    exact platform
  · rfl

/-- Settles O58, turn by turn. -/
theorem stepsKeepThePlatformParameters : Obligations.StepsKeepThePlatformParameters := by
  intro s t runs
  obtain runs | ⟨a, rest, -, access⟩ | ⟨rest, -, -, rfl⟩ | ⟨rest, -, -, rfl⟩ | ⟨rest, -, runs⟩ | ⟨rest, -, rfl⟩ |
    ⟨rest, -, rfl⟩ := step_cases runs
  · exact completion_platform runs
  · obtain rfl | ⟨off, -, -, -, rfl⟩ := busAccess_cases access
    · exact (busError_own_fields _ a.op).2
    · exact (windowAccess_own_fields _ off a.op).2
  · rfl
  · rfl
  · exact completion_platform (s := { s with script := rest }) runs
  · rfl
  · rfl

end Sys2Proof.Machine
end

section
/-! LOADTXT (R138): the bytes a text stands for, the run of its word writes, and the write of its length. Settles
LoadtxtFillsBufferAndLength. -/

namespace Sys2Proof.Machine

/-! ## The text's bytes -/

theorem hexBytes_length (text : List Byte) : (hexBytes text).length = text.length / 2 := by
  induction text using hexBytes.induct with
  | case1 hi lo rest ih =>
    rw [hexBytes, List.length_cons, ih, List.length_cons, List.length_cons]
    omega
  | case2 text short =>
    match text, short with
    | [], _ => rfl
    | [_], _ => simp [hexBytes]
    | hi :: lo :: rest, short => exact absurd rfl (short hi lo rest)

/-- The bytes of a legal LOADTXT fit the buffer. -/
theorem loadBytes_length_le {b : BufName} {text : List Byte} (legal : HostLine.wf (.loadtxt b text) = true) :
    (loadBytes b text).length ≤ bufSize b := by
  cases b with
  | ctrBytes | digest | code => cases legal
  | secret | cand => exact of_decide_eq_true legal
  | key =>
    simp only [HostLine.wf, Bool.and_eq_true, decide_eq_true_eq] at legal
    obtain ⟨⟨-, short⟩, -⟩ := legal
    rw [loadBytes, hexBytes_length]
    exact short

/-- A byte of a packed word is the text's byte, 0x00 past its end. -/
theorem packWord_byte (t : List Byte) (k : Nat) {i : Nat} (hi : i < 4) :
    (packWord t k).extractLsb' (24 - 8 * i) 8 = byteAt t (4 * k + i) :=
  bigEndianWord_byte (fun i => byteAt t (4 * k + i)) hi

/-- What LOADTXT names: an RW buffer, and an RW register of 16 named bits. -/
theorem lenReg_facts {b : BufName} {r : RegName} (h : lenReg b = some r) :
    isRWBuf b = true ∧ isRWReg r = true ∧ regMask r = 0x0000FFFF#32 := by
  cases b with
  | ctrBytes | digest | code => cases h
  | secret | cand | key => cases h; decide

/-! ## The run of the word writes -/

/-- The turns that write words j to j + n - 1 of the text t to buffer b. -/
def wordWrites (base : Nat) (b : BufName) (t : List Byte) (j n : Nat) : List Turn :=
  (List.range' j n).map fun k => memWrite base (bufBase b + 4 * k) (packWord t k)

theorem loadWrites_eq_wordWrites (base : Nat) (b : BufName) (t : List Byte) :
    loadWrites base b t = wordWrites base b t 0 ((t.length + 3) / 4) := by
  rw [loadWrites, List.range_eq_range', wordWrites]

theorem wordWrites_succ (base : Nat) (b : BufName) (t : List Byte) (j n : Nat) :
    wordWrites base b t j (n + 1) =
      memWrite base (bufBase b + 4 * j) (packWord t j) :: wordWrites base b t (j + 1) n := by
  rw [wordWrites, List.range'_succ, List.map_cons, wordWrites]

/-- The bytes after word j of a text is written to a buffer. -/
theorem read_writeWord_packWord (r : Regs) (t : List Byte) (b : BufName) (j a : Nat) :
    (writeWord r (packWord t j) b j).mem.read a =
      if bufBase b + 4 * j ≤ a ∧ a < bufBase b + 4 * j + 4 then byteAt t (a - bufBase b) else r.mem.read a := by
  split
  next inWord =>
    obtain ⟨i, rfl⟩ : ∃ i, a = bufBase b + 4 * j + i := ⟨a - (bufBase b + 4 * j), by omega⟩
    have place : bufBase b + 4 * j + i - bufBase b = 4 * j + i := by omega
    rw [read_writeWord r _ b j (by omega), packWord_byte t j (by omega), place]
  next outside => exact read_writeWord_outside r _ b j (by omega)

/-- The word writes of an idle engine leave the text's bytes 4j to 4(j + n) - 1 in the buffer and change nothing else; a
run goes on from there. -/
theorem run_wordWrites {b : BufName} (writable : isRWBuf b = true) (t : List Byte) (rest : List Turn) (n j : Nat)
    {s : State} (released : s.resetHeld = false) (idle : s.seq = .idle) (fits : 4 * (j + n) ≤ bufSize b)
    (script : s.script = wordWrites s.platform.engineBase b t j n ++ rest) :
    ∃ m p, (∀ k, Sys2Proof.core.run (k + n) s =
        Sys2Proof.core.run k { s with script := rest, regs := { s.regs with mem := m }, resp := p }) ∧
      ∀ a, m.read a = if bufBase b + 4 * j ≤ a ∧ a < bufBase b + 4 * (j + n) then byteAt t (a - bufBase b)
        else s.regs.mem.read a := by
  induction n generalizing j s with
  | zero =>
    refine ⟨s.regs.mem, s.resp, fun k => ?_, fun a => ?_⟩
    · rw [← show s.script = rest from script]
      rfl
    · rw [if_neg (by omega)]
  | succ n ih =>
    rw [wordWrites_succ, List.cons_append] at script
    let s' : State := { s with
      script := wordWrites s.platform.engineBase b t (j + 1) n ++ rest
      regs := writeWord s.regs (packWord t j) b j
      resp := some ⟨false, none⟩ }
    have first : step s = .next s' := step_writeWord_idle idle released writable (by omega) script
    obtain ⟨m, p, runs, bytes⟩ := ih (j + 1) (s := s') released idle (by omega) rfl
    refine ⟨m, p, fun k => ?_, fun a => ?_⟩
    · rw [← Nat.add_assoc, run_succ first, runs]
      rfl
    · rw [bytes, read_writeWord_packWord, ← ite_or]
      exact if_congr (by omega) rfl rfl

/-! ## The length -/

/-- A length register reads back a length of at most 16 bits. -/
theorem readReg_writeReg_length (busy : Bool) (regs : Regs) {r : RegName} (writable : isRWReg r = true)
    (mask : regMask r = 0x0000FFFF#32) {n : Nat} (short : n < 2 ^ 16) :
    readReg busy (writeReg regs (BitVec.ofNat 32 n) r) r = BitVec.ofNat 32 n := by
  have value : (BitVec.ofNat 32 n).toNat = n := Nat.mod_eq_of_lt (by omega)
  rw [readReg_writeReg_same busy regs _ writable, mask]
  apply BitVec.eq_of_toNat_eq
  rw [BitVec.toNat_and, value]
  exact (Nat.and_two_pow_sub_one_eq_mod n 16).trans (Nat.mod_eq_of_lt short)

/-- The byte memory is no part of what a register reads as. -/
theorem readReg_mem (busy : Bool) (r : Regs) (m : Memory) (n : RegName) :
    readReg busy { r with mem := m } n = readReg busy r n := by
  cases n <;> rfl

/-- Settles O57: the run of the word writes, then the write of the length. -/
theorem loadtxtFillsBufferAndLength : Obligations.LoadtxtFillsBufferAndLength := by
  intro s b r text rest released idle legal names script
  obtain ⟨bufWritable, regWritable, mask⟩ := lenReg_facts names
  have fits := loadBytes_length_le legal
  obtain ⟨-, size⟩ := bufBase_mod b
  have bounded : bufSize b ≤ 256 := by cases b <;> decide
  rw [expandLine, names] at script
  generalize loadBytes b text = t at script fits ⊢
  simp only [loadWrites_eq_wordWrites, List.append_assoc, List.singleton_append] at script
  obtain ⟨m, p, runs, bytes⟩ := run_wordWrites bufWritable t _ _ 0 released idle (by omega) script
  let s' : State := { s with
    script := memWrite s.platform.engineBase (regOffset r) (BitVec.ofNat 32 t.length) :: rest
    regs := { s.regs with mem := m }
    resp := p }
  let done : State := { s' with
    script := rest, regs := writeReg s'.regs (BitVec.ofNat 32 t.length) r, resp := some ⟨false, none⟩ }
  have last : step s' = .next done := step_writeReg_idle (s := s') idle released regWritable rfl
  refine ⟨done, ?_, idle, rfl, readReg_writeReg_length false s'.regs regWritable mask (by omega), fun r' other => ?_,
    fun a => ?_⟩
  · rw [Nat.add_comm, runs, run_succ last, run_zero]
  · exact (readReg_writeReg_other false s'.regs _ other).trans (readReg_mem false s.regs m r')
  · change (writeReg s'.regs _ r).mem.read a = _
    rw [writeReg_mem, bytes, Nat.mul_zero, Nat.add_zero, Nat.zero_add]

end Sys2Proof.Machine
end
